-- ==== Sys2Proof/Word.lean ====
section
/-!
DEFINITION. The words of the GCM core. A byte is 8 bits (00_scope.md R10), a bus word and an operand register 32 bits (R9), a
reduction-table entry 16 bits (10_state.md R29), a Block 16 bytes (R11). A Block is held as one 128-bit word whose bits 127:120
are byte 0: the order in which the cipher port carries a Block (20_memory.md R77). DEDUCED, log 11.
-/

namespace Sys2Proof

abbrev Byte := BitVec 8

abbrev Half := BitVec 16

abbrev Word := BitVec 32

abbrev Block := BitVec 128

end Sys2Proof
end

