-- ==== Sys2Proof/Machine/Blocks.lean ====
section
/-!
DEFINITION. Blocks and their views (00_scope.md R10, R11), and the byte-lane operations of 40_field_algebra.md R114.
-/

namespace Sys2Proof.Machine

/-- `B[k]`, byte k of a Block, k = 0..15 (R11): bits 127:120 are byte 0. -/
def Block.byte (b : Block) (k : Nat) : Byte := b.extractLsb' (8 * (15 - k)) 8

/-- The 16 bytes of a Block, byte 0 first. -/
def Block.toBytes (b : Block) : List Byte := (List.range 16).map (Block.byte b)

/-- The Block whose byte k is `f k`. -/
def Block.ofLanes (f : Nat → Byte) : Block :=
  f 0 ++ f 1 ++ f 2 ++ f 3 ++ f 4 ++ f 5 ++ f 6 ++ f 7 ++
  f 8 ++ f 9 ++ f 10 ++ f 11 ++ f 12 ++ f 13 ++ f 14 ++ f 15

/-- The first 16 bytes of `bs` as a Block, zero-padded: `F ‖ 0^(16−n)` (R114). -/
def Block.ofBytes (bs : List Byte) : Block := Block.ofLanes (fun k => bs.getD k 0)

/-- `word(B, w)`, big-endian (R11). -/
def Block.word (b : Block) (w : Nat) : Word := b.extractLsb' (32 * (3 - w)) 32

/-- `ivpart(B)`, bytes 0..11 (R11). -/
def Block.ivpart (b : Block) : BitVec 96 := b.extractLsb' 32 96

/-- `suffix(B)`, bytes 12..15 as a big-endian integer (R11). -/
def Block.suffix (b : Block) : Word := b.extractLsb' 0 32

/-- The Block with the given IV part and suffix: the counter view (R11). -/
def Block.ofCounter (iv : BitVec 96) (suffix : Word) : Block := iv ++ suffix

/-- `aadbits(B)`, bytes 0..7 as a big-endian integer (R11). -/
def Block.aadbits (b : Block) : BitVec 64 := b.extractLsb' 64 64

/-- `databits(B)`, bytes 8..15 as a big-endian integer (R11). -/
def Block.databits (b : Block) : BitVec 64 := b.extractLsb' 0 64

/-- `be64(a) ‖ be64(d)`: the length-pair view (R11). -/
def Block.ofLengths (aadBits dataBits : BitVec 64) : Block := aadBits ++ dataBits

/-- `XorPrefix(A, F, n)` with n the length of F, at most 16: `A ⊕ (F ‖ 0^(16−n))` (R114). -/
def xorPrefix (a : Block) (f : List Byte) : Block := a ^^^ Block.ofBytes f

/-- `KsXor(F, KS, n)` with n the length of F, at most 16 (R114). -/
def ksXor (f : List Byte) (ks : Block) : List Byte := List.zipWith (· ^^^ ·) f (Block.toBytes ks)

/-- `Inc32(C)`: the suffix plus 1 modulo 2^32, the IV part unchanged (R116). -/
def inc32 (c : Block) : Block := Block.ofCounter (Block.ivpart c) (Block.suffix c + 1)

/-- The counter block `0^12 ‖ be32(1)` (41_key_iv.md R140, R141). -/
def counterOne : Block := Block.ofCounter 0 1

/-- The four bytes of a bus word, the byte of the lowest offset first: bits 31:24 (20_memory.md R63). -/
def wordToBytes (v : Word) : List Byte :=
  [v.extractLsb' 24 8, v.extractLsb' 16 8, v.extractLsb' 8 8, v.extractLsb' 0 8]

/-- The bus word of four bytes of a byte store, the lowest offset in bits 31:24 (R63). -/
def bytesToWord (b0 b1 b2 b3 : Byte) : Word := b0 ++ b1 ++ b2 ++ b3

end Sys2Proof.Machine
end

