-- ==== Sys2Proof/Config.lean ====
section
/-!
DEFINITION. What an implementation fixes: the parameters NCTX and BUF_SIZE (00_scope.md R4, R5), the cipher adapter (R6), and
the free values, constants without a body that stand for what the spec leaves unspecified (93_implementation_defined.md).
-/

namespace Sys2Proof

/-- The parameters `NCTX`, 1 to 8 (00_scope.md R4), and `BUF_SIZE`, a power of two from 256 to 65536 (R5), held as its base-2
logarithm CFG.LOG2BUF (10_state.md R37). A value outside those bounds cannot be built. -/
structure Params where
  nctx : Nat
  log2Buf : Nat
  nctx_pos : 1 ≤ nctx
  nctx_le : nctx ≤ 8
  log2Buf_ge : 8 ≤ log2Buf
  log2Buf_le : log2Buf ≤ 16
  deriving DecidableEq, Repr

/-- The spec's defaults: NCTX = 4 (R4) and BUF_SIZE = 4096 (R5). -/
def Params.standard : Params :=
  { nctx := 4, log2Buf := 12, nctx_pos := by decide, nctx_le := by decide,
    log2Buf_ge := by decide, log2Buf_le := by decide }

/-- `BUF_SIZE` in bytes (R5). -/
def Params.bufSize (p : Params) : Nat := 2 ^ p.log2Buf

/-- The type `CipherState` of R6, the adapter's opaque per-slot sub-state. DEDUCED, log 2: a byte string can code any sub-state
an adapter reaches, since CipherSetKey is a function of a cipher id and a byte string. -/
abbrev CipherState := List Byte

/-- The parameter `CIPHER` (R6): `setKey` is CipherSetKey, which reports success with status 0 and whose sub-state is used on
success only; `enc` is CipherEnc, total. Both are functions of their arguments with no other effect (20_memory.md R78). -/
structure Cipher where
  setKey : BitVec 4 → List Byte → Byte × CipherState
  enc : CipherState → Block → Block
  deriving Inhabited

/-- The cipher adapter of this machine: any adapter at all (P3, log 2). -/
opaque Config.cipher : Cipher

/-- FREE VALUE. The byte an address of BUF holds where the spec says "any value": `freeByte e a` for a byte nothing has written
since the power-on or rst numbered `e` (P6, 70_reset_and_hazards.md R221), and for a byte of an output range abandoned by the
soft reset numbered `e` (P9, R223). Logs 4 and 15. -/
opaque Config.freeByte : Nat → Nat → Byte

/-- FREE VALUE. M[b] after the reset, or SETKEY's invalidation of the cache, numbered by the first argument (P7, R221). Log 6. -/
opaque Config.freeBlock : Nat → Nat → Block

/-- FREE VALUE. R[b] after the reset, or SETKEY's invalidation of the cache, numbered by the first argument (P7, R221). Log 6. -/
opaque Config.freeHalf : Nat → Nat → Half

/-- FREE VALUE. CIPHST[s] after the reset, or the failed SETKEY on slot s, numbered by the first argument (P8, R221,
41_key_iv.md R140). Log 5. -/
opaque Config.freeCipherState : Nat → Nat → CipherState

end Sys2Proof
end

