-- ==== Sys2Proof/Syntax.lean ====
section
/-!
DEFINITION. The six commands of the GCM core (30_encoding.md R92), one constructor per row of opcode_table.json. `ctx` is the
slot number of the CTX field, `ciph` the cipher id of the CIPH field (R90). The operands SRC, DST and LEN are not part of a
command word: they are latched in PEND (R91).
-/

namespace Sys2Proof

inductive Instr where
  /-- OP 0x1, 41_key_iv.md R140. -/
  | setkey (ctx : Nat) (ciph : BitVec 4)
  /-- OP 0x2, 41_key_iv.md R141. -/
  | setiv (ctx : Nat)
  /-- OP 0x3, 42_process.md R160. -/
  | aad (ctx : Nat)
  /-- OP 0x4, 42_process.md R161. -/
  | encrypt (ctx : Nat)
  /-- OP 0x5, 42_process.md R162. -/
  | decrypt (ctx : Nat)
  /-- OP 0x6, 43_tag.md R180. -/
  | tag (ctx : Nat)
  deriving DecidableEq, Repr

/-- The slot number s a command names. -/
def Instr.ctx : Instr → Nat
  | .setkey c _ => c
  | .setiv c => c
  | .aad c => c
  | .encrypt c => c
  | .decrypt c => c
  | .tag c => c

end Sys2Proof
end

