-- ==== Sys2Proof/Machine/State.lean ====
section
/-!
DEFINITION. The state of the GCM core, 10_state.md R21, as plain data, with the model's own fields beside it (INVENTORY.md, '## State').
-/

namespace Sys2Proof.Machine

/-- The lifecycle state PHASE[s] of a slot (10_state.md R28). The values 6 and 7 are never taken (P14). -/
inductive Phase where
  | uninit
  | keyed
  | ivready
  | aad
  | data
  | tagged
  deriving DecidableEq, Repr

/-- The fault cause codes of STATUS.CAUSE (60_exceptions.md R191). The codes 7 to 15 are never recorded (P13). -/
inductive Cause where
  | none
  | illegalOp
  | reservedField
  | badSlot
  | sequence
  | bounds
  | overlap
  deriving DecidableEq, Repr

/-- A context slot: CTX[s] in the layout of 10_state.md R22, with PHASE[s] (R28) and CIPHST[s] (R27). -/
structure Slot where
  /-- HASH, bytes 0..15 (R23). -/
  hash : Block
  /-- LENS, bytes 16..31: AAD bits, then payload bits (R24). -/
  lens : Block
  /-- CTR, bytes 32..47: IV subfield, then 32-bit suffix (R25). -/
  ctr : Block
  /-- KEY, bytes 48..63: the hash key H (R26). -/
  key : Block
  phase : Phase
  ciphst : CipherState
  deriving DecidableEq, Repr

/-- The shared multiplication cache (R29, R30). M[0] and R[0] are hardwired to zero: `Cache.mAt` and `Cache.rAt` read the tables. -/
structure Cache where
  m : Vector Block 256
  r : Vector Half 256
  valid : Bool
  tag : BitVec 3
  deriving DecidableEq, Repr

/-- What PEND latches (R33). -/
structure Pending where
  word : Word
  src : Word
  dst : Word
  len : Word
  deriving DecidableEq, Repr

/-- One turn of the total order of 20_memory.md R71: a host transaction (R61), the sequencer's turn (R67), or a pulse on the rst
input (70_reset_and_hazards.md R221). DESIGN CHOICE, log 1. -/
inductive Turn where
  | read32 (a : BitVec 17)
  | write32 (a : BitVec 17) (v : Word)
  | sequencer
  | rst
  deriving DecidableEq, Repr

/-- The bus's answer to a host transaction (R61, R77). -/
inductive Response where
  /-- Read32 accepted, with the data read. -/
  | data (v : Word)
  /-- Write32 accepted. -/
  | ok
  /-- BusError (60_exceptions.md R197). -/
  | busError
  deriving DecidableEq, Repr

/-- The bytes of BUF that have been written, addresses strictly rising; an unlisted address holds no value (log 4). -/
abbrev Memory := List Host.Cell

structure State where
  /-- NCTX and BUF_SIZE (00_scope.md R4, R5). No step changes them. The model's own field, log 3. -/
  cfg : Params
  /-- CTRL.IE (10_state.md R38). -/
  ie : Bool
  /-- STATUS.DONE, FAULT, KEYERR and CAUSE (R39). STATUS.BUSY is `pend` not empty (R33). -/
  done : Bool
  fault : Bool
  keyerr : Bool
  cause : Cause
  /-- LASTCMD (R40). -/
  lastcmd : Word
  /-- SRC, DST, LEN (R41 to R43). -/
  src : Word
  dst : Word
  len : Word
  /-- KSTAT.KSTATUS (R44). -/
  kstat : Byte
  /-- FAULTCMD (R48). -/
  faultcmd : Word
  /-- TAGREG (R49). -/
  tagreg : Block
  /-- PEND (R33). -/
  pend : Option Pending
  /-- The context slots; those at or above NCTX do not exist and are never reached (R22, log 12). -/
  ctx : Vector Slot 8
  /-- The shared multiplication cache (R29, R30). -/
  cache : Cache
  /-- REBUILDS (R31). -/
  rebuilds : Word
  /-- BUF (20_memory.md R60). -/
  buf : Memory
  /-- Which unknown contents BUF's unwritten bytes have. The model's own field, logs 4 and 7. -/
  bufEpoch : Nat
  /-- The number of the next free value. The model's own field, log 7. -/
  freeCtr : Nat
  /-- The total order of R71 still to come, the next turn first. The model's own field, log 1. -/
  schedule : List Turn
  /-- The answers the host has been given, newest first. The model's own field, log 8. -/
  responses : List Response
  deriving DecidableEq, Repr

/-- The reasons a step could stop the machine. There are none: every command fault is a next state with FAULT set
(60_exceptions.md R193), every bus error a response (R197), and the core has no halt state (70_reset_and_hazards.md R232). Safe. -/
inductive Fault where
  deriving DecidableEq, Repr

/-- The reasons the model could have no meaning for an instruction. -/
inductive Refusal where
  /-- Raised by `exec` for an instruction whose arm has no meaning yet. Safe: nothing is claimed of it. No arm raises it. -/
  | notModelled (mnemonic : String)
  deriving DecidableEq, Repr

/-- A slot as reset leaves it: every CTX byte 0, UNINIT (R221). CIPHST is unspecified: DESIGN CHOICE, log 5. -/
def Slot.reset : Slot :=
  { hash := 0, lens := 0, ctr := 0, key := 0, phase := .uninit, ciphst := [] }

/-- The cache as reset leaves it: not valid, tag 0 (R221). The tables are unspecified: DESIGN CHOICE, log 6. -/
def Cache.reset : Cache :=
  { m := Vector.replicate 256 0, r := Vector.replicate 256 0, valid := false, tag := 0 }

/-- The state after power-on of a core with the parameters `p` (R220, R221). -/
def State.powerOn (p : Params) : State :=
  { cfg := p, ie := false, done := false, fault := false, keyerr := false, cause := .none,
    lastcmd := 0, src := 0, dst := 0, len := 0, kstat := 0, faultcmd := 0, tagreg := 0,
    pend := .none, ctx := Vector.replicate 8 Slot.reset, cache := Cache.reset, rebuilds := 0,
    buf := [], bufEpoch := 0, freeCtr := 1, schedule := [], responses := [] }

/-- The machine right after reset, with the spec's default parameters (log 3). -/
def State.reset : State := State.powerOn Params.standard

end Sys2Proof.Machine
end

