-- ==== Sys2Proof/Machine/Field.lean ====
section
/-!
DEFINITION. The field datapath: multiplication by x, Shoup's tables and the multiplication they serve (40_field_algebra.md R110 to
R113, R115).
-/

namespace Sys2Proof.Machine

/-- The field-polynomial byte 0xE1 in byte 0 of a Block: 1 + x + x^2 + x^7, to which x^128 reduces (R110). -/
def fieldByte : Block := 0xE1#8 ++ 0#120

/-- `MulX(V)`: the 128-bit value shifted right by one bit; if a 1 is shifted out, 0xE1 is XORed into byte 0 (R111). -/
def mulX (v : Block) : Block := if v.getLsbD 0 then (v >>> 1) ^^^ fieldByte else v >>> 1

/-- `rev8(i)`: bit j of the result is bit 7−j of i (R112). -/
def rev8 (i : Byte) : Byte := i.reverse

/-- `M[b]`, M[0] hardwired to zero (10_state.md R29). -/
def Cache.mAt (c : Cache) (b : Byte) : Block := if b = 0 then 0 else c.m[b.toNat]'b.isLt

/-- `R[b]`, R[0] hardwired to zero (R29). -/
def Cache.rAt (c : Cache) (b : Byte) : Half := if b = 0 then 0 else c.r[b.toNat]'b.isLt

/-- One iteration of the loop of `Rebuild`: entry t = rev8(i) of both tables from entry o (R112). -/
def Cache.buildEntry (hk : Block) (c : Cache) (i : Nat) : Cache :=
  let t := rev8 (BitVec.ofNat 8 i)
  if t.msb then
    let o := t &&& 0x7F#8
    { c with m := c.m.set t.toNat (c.mAt o ^^^ hk) t.isLt, r := c.r.set t.toNat (c.rAt o ^^^ 0xE100#16) t.isLt }
  else
    let o := t <<< 1
    { c with m := c.m.set t.toNat (mulX (c.mAt o)) t.isLt, r := c.r.set t.toNat (c.rAt o >>> 1) t.isLt }

/-- The loop of `Rebuild`, i = 1 to 255 ascending (R112). Irreducible only so that no unification runs the loop. -/
@[irreducible] def Cache.buildTables (hk : Block) (c : Cache) : Cache := (List.range' 1 255).foldl (Cache.buildEntry hk) c

/-- The cache after `Rebuild` for the key `hk` of slot `s`: both tables built, tagged with s, valid (R112). -/
def Cache.build (hk : Block) (s : Nat) (c : Cache) : Cache :=
  { Cache.buildTables hk c with valid := true, tag := BitVec.ofNat 3 s }

/-- The cache is valid for slot `s`: the test of R115, negated. -/
def Cache.validFor (c : Cache) (s : Nat) : Bool := c.valid && c.tag == BitVec.ofNat 3 s

/-- `MulX8(V)`: the Block shifted right by one byte, R of the byte shifted out XORed into bytes 0 and 1 (R113). -/
def Cache.mulX8 (c : Cache) (v : Block) : Block := (v >>> 8) ^^^ (c.rAt (Block.byte v 15) ++ 0#112)

/-- The loop of `MulH(s, X)` with the cache valid: from byte 15 down to byte 0 (R115). -/
def Cache.mul (c : Cache) (x : Block) : Block :=
  [14, 13, 12, 11, 10, 9, 8, 7, 6, 5, 4, 3, 2, 1, 0].foldl
    (fun z k => c.mulX8 z ^^^ c.mAt (Block.byte x k)) (c.mAt (Block.byte x 15))

/-- M at the free values numbered `k`. Irreducible, as is `freeTableR`, only so that no unification lists the 256 entries. -/
@[irreducible] def freeTableM (k : Nat) : Vector Block 256 := Vector.ofFn (fun i => Config.freeBlock k i.val)

/-- R at the free values numbered `k`. -/
@[irreducible] def freeTableR (k : Nat) : Vector Half 256 := Vector.ofFn (fun i => Config.freeHalf k i.val)

/-- Both tables at the free values numbered `k`: what a reset or an invalidation leaves in M[1..255] and R[1..255], which
93_implementation_defined.md P7 leaves at any value (10_state.md R29). Entries 0 are hardwired: `mAt` and `rAt` do not read them. Log 6. -/
def Cache.withFreeTables (k : Nat) (c : Cache) : Cache := { c with m := freeTableM k, r := freeTableR k }

/-- SETKEY's invalidation, numbered `k`: CACHE_VALID cleared when CACHE_TAG = s (10_state.md R30, 41_key_iv.md R140), and the tables then
free values (93_implementation_defined.md P7, log 6). CACHE_TAG is kept. -/
def Cache.invalidate (k : Nat) (c : Cache) (s : Nat) : Cache :=
  if c.validFor s then { c.withFreeTables k with valid := false } else c

end Sys2Proof.Machine
end

