-- ==== Sys2Proof/Machine/Ops.lean ====
section
/-!
DEFINITION. The named operations over the state: BUF (20_memory.md R70), the context slots (10_state.md R22), the shared cache
(40_field_algebra.md R112, R115), the fault entry (60_exceptions.md R193) and the two resets that leave the fault state
(70_reset_and_hazards.md R221 to R223).
-/

namespace Sys2Proof.Machine

/-- The canonical form of `Memory`: addresses strictly rising (log 4). -/
abbrev Memory.wf (m : Memory) : Prop := m.Pairwise (fun x y => x.1 < y.1)

/-- Every listed address is below `n`. -/
abbrev Memory.within (m : Memory) (n : Nat) : Prop := ∀ c ∈ m, c.1 < n

/-- The value an address holds, if something has written it. -/
def Memory.lookup : Memory → Nat → Option Byte
  | [], _ => none
  | (b, v) :: m, a => if a = b then some v else Memory.lookup m a

/-- One byte written. -/
def Memory.write : Memory → Nat → Byte → Memory
  | [], a, v => [(a, v)]
  | (b, w) :: m, a, v =>
    if a < b then (a, v) :: (b, w) :: m
    else if a = b then (a, v) :: m
    else (b, w) :: Memory.write m a v

/-- `MemWrite(a, n, v)` with n the length of v: the bytes in order (R70). -/
def Memory.writeBytes : Memory → Nat → List Byte → Memory
  | m, _, [] => m
  | m, a, v :: vs => Memory.writeBytes (m.write a v) (a + 1) vs

/-- BUF[a]: the byte last written there, or, where nothing has written it, a free value (R221, log 4). -/
def State.bufByte (s : State) (a : Nat) : Byte := (s.buf.lookup a).getD (Config.freeByte s.bufEpoch a)

/-- `MemRead(a, n)` (R70). -/
def State.memRead (s : State) (a n : Nat) : List Byte := (List.range n).map (fun i => s.bufByte (a + i))

/-- `MemWrite(a, n, v)` (R70). -/
def State.memWrite (s : State) (a : Nat) (v : List Byte) : State := { s with buf := s.buf.writeBytes a v }

/-- Context slot `n`, n = 0..NCTX−1 (10_state.md R22). -/
def State.slot (s : State) (n : Nat) : Slot := (s.ctx[n]?).getD Slot.reset

def State.setSlot (s : State) (n : Nat) (v : Slot) : State := { s with ctx := s.ctx.setIfInBounds n v }

/-- `PHASE[n] <- p`. -/
def State.setPhase (s : State) (n : Nat) (p : Phase) : State := s.setSlot n { s.slot n with phase := p }

/-- `Rebuild(n)` (R112): the cache built for the key of slot n, REBUILDS counted modulo 2^32. -/
def State.rebuild (s : State) (n : Nat) : State :=
  { s with cache := s.cache.build (s.slot n).key n, rebuilds := s.rebuilds + 1 }

/-- The first line of `MulH(n, ·)`: rebuild unless the cache is valid for slot n (R115). -/
def State.ensureCache (s : State) (n : Nat) : State := if s.cache.validFor n then s else s.rebuild n

/-- The value of `MulH(n, X)`; the state it leaves is `ensureCache n` (R115). -/
def State.mulH (s : State) (n : Nat) (x : Block) : Block := (s.ensureCache n).cache.mul x

/-- The operands of the command being performed: those PEND latched (30_encoding.md R91). With PEND empty no command is performed;
the record a CMD write of LASTCMD would latch stands there, log 10. -/
def State.operands (s : State) : Pending :=
  s.pend.getD { word := s.lastcmd, src := s.src, dst := s.dst, len := s.len }

/-- `raise Fault(c)`, the fault entry: FAULT, CAUSE and FAULTCMD record it, and nothing else changes (60_exceptions.md R193). -/
def State.raiseFault (s : State) (c : Cause) : State :=
  { s with fault := true, cause := c, faultcmd := s.operands.word }

/-- What ends every sequencer step: PEND emptied, DONE set (20_memory.md R67). -/
def State.finish (s : State) : State := { s with pend := none, done := true }

/-- The number of bytes in `[dst, dst + len) ∩ [0, BUF_SIZE)`, the range of R223. -/
def abandonedCount (bufSize dst len : Nat) : Nat := min (dst + len) bufSize - dst

/-- `AbandonPending(P)`: the output range of a pending ENCRYPT or DECRYPT takes free values (R223, log 15). -/
def State.abandonPending (s : State) (p : Pending) : State :=
  if p.word.extractLsb' 0 4 = 0x4#4 ∨ p.word.extractLsb' 0 4 = 0x5#4 then
    s.memWrite p.dst.toNat
      ((List.range (abandonedCount s.cfg.bufSize p.dst.toNat p.len.toNat)).map
        (fun i => Config.freeByte s.freeCtr (p.dst.toNat + i)))
  else s

/-- A slot after a reset in a run: every CTX byte 0, UNINIT, CIPHST unspecified (R221, log 5). -/
def Slot.afterReset (k n : Nat) : Slot := { Slot.reset with ciphst := Config.freeCipherState k n }

/-- The cache after a reset in a run: not valid, tag 0, the tables unspecified (R221, log 6). -/
def Cache.afterReset (k : Nat) : Cache :=
  Cache.reset.withFreeTables k

/-- Every state of R221 except BUF at its hardware-reset value. The parameters are not state, and the host's side (what it will do,
what it has been answered) is not the core's. -/
def State.resetCore (s : State) : State :=
  { s with
    ie := false, done := false, fault := false, keyerr := false, cause := .none, lastcmd := 0,
    src := 0, dst := 0, len := 0, kstat := 0, faultcmd := 0, tagreg := 0, pend := none,
    ctx := Vector.ofFn (fun i : Fin 8 => Slot.afterReset s.freeCtr i.val),
    cache := Cache.afterReset s.freeCtr, rebuilds := 0, freeCtr := s.freeCtr + 1 }

/-- The hardware reset, the rst input: as `resetCore`, and BUF unspecified, any value per byte (R221). -/
def State.hardReset (s : State) : State := { s.resetCore with buf := [], bufEpoch := s.freeCtr }

/-- `SoftReset()`: BUF keeps its contents, except an abandoned command's output range (R222, R223). -/
def State.softReset (s : State) : State :=
  match s.pend with
  | none => s.resetCore
  | some p => (s.abandonPending p).resetCore

end Sys2Proof.Machine
end

