-- ==== Sys2Proof/Machine/Flags.lean ====
section
/-!
DEFINITION. The codes and the register words the host reads: STATUS and the other read-only views of 10_state.md R36 to R50, and the
interrupt output (60_exceptions.md R198).
-/

namespace Sys2Proof.Machine

/-- The value of PHASE[s] (10_state.md R28). -/
def Phase.code : Phase → BitVec 3
  | .uninit => 0
  | .keyed => 1
  | .ivready => 2
  | .aad => 3
  | .data => 4
  | .tagged => 5

/-- The code of STATUS.CAUSE (60_exceptions.md R191). -/
def Cause.code : Cause → BitVec 4
  | .none => 0
  | .illegalOp => 1
  | .reservedField => 2
  | .badSlot => 3
  | .sequence => 4
  | .bounds => 5
  | .overlap => 6

/-- STATUS.BUSY = 1 exactly when PEND is not empty (10_state.md R33). -/
def State.busy (s : State) : Bool := s.pend.isSome

/-- ID (R36): the ASCII bytes "GCM1". -/
def idWord : Word := 0x47434D31

/-- CFG (R37): NCTX in 3:0, LOG2BUF in 12:8. -/
def cfgWord (p : Params) : Word := 0#19 ++ BitVec.ofNat 5 p.log2Buf ++ 0#4 ++ BitVec.ofNat 4 p.nctx

/-- CTRL (R38): IE in bit 0; SRST reads 0. -/
def State.ctrlWord (s : State) : Word := 0#31 ++ BitVec.ofBool s.ie

/-- STATUS (R39). -/
def State.statusWord (s : State) : Word :=
  0#20 ++ s.cause.code ++ 0#4 ++ BitVec.ofBool s.keyerr ++ BitVec.ofBool s.fault ++
    BitVec.ofBool s.done ++ BitVec.ofBool s.busy

/-- KSTAT (R44). -/
def State.kstatWord (s : State) : Word := 0#24 ++ s.kstat

/-- The nibble of slot `n` in the PHASE register: PHASE[n] and a zero bit, 0 where the slot does not exist (R45). -/
def State.phaseNibble (s : State) (n : Nat) : BitVec 4 :=
  if n < s.cfg.nctx then 0#1 ++ (s.slot n).phase.code else 0

/-- PHASE (R45): slot n in bits 4n+2 : 4n. -/
def State.phaseWord (s : State) : Word :=
  s.phaseNibble 7 ++ s.phaseNibble 6 ++ s.phaseNibble 5 ++ s.phaseNibble 4 ++
    s.phaseNibble 3 ++ s.phaseNibble 2 ++ s.phaseNibble 1 ++ s.phaseNibble 0

/-- CACHE (R46): CACHE_TAG in 2:0, CACHE_VALID in bit 8. -/
def State.cacheWord (s : State) : Word := 0#23 ++ BitVec.ofBool s.cache.valid ++ 0#5 ++ s.cache.tag

/-- Word `w`, 0 to 15, of the 64 bytes of a slot in the layout of R22: HASH, LENS, CTR, KEY, four big-endian words each (R50). -/
def Slot.word (v : Slot) (w : Nat) : Word :=
  if w < 4 then Block.word v.hash w
  else if w < 8 then Block.word v.lens (w - 4)
  else if w < 12 then Block.word v.ctr (w - 8)
  else Block.word v.key (w - 12)

/-- The interrupt output, a level: CTRL.IE ∧ STATUS.DONE (60_exceptions.md R198). -/
def State.irq (s : State) : Bool := s.ie && s.done

end Sys2Proof.Machine
end

