-- ==== Sys2Proof/Machine/Bus.lean ====
section
/-!
DEFINITION. The host's transactions (20_memory.md R61 to R69): the address map (R65), the busy lockout (R67), the value of every read and
the effect of every write (R68; 10_state.md R36 to R51).
-/

namespace Sys2Proof.Machine

/-- What an offset of the host window names (R65). -/
inductive Target where
  | id
  | cfg
  | ctrl
  | status
  | cmd
  | src
  | dst
  | len
  | kstat
  | phase
  | cache
  | rebuilds
  | faultcmd
  /-- TAGw. -/
  | tag (w : Nat)
  /-- Word `w` of slot `n` in the context window. -/
  | ctx (n w : Nat)
  /-- BUF[a .. a+3] in the buffer window. -/
  | buf (a : Nat)
  deriving DecidableEq, Repr

/-- The rows of R65 below the tag registers: the control and status registers. -/
def registerMap : List (Nat × Target) :=
  [(0x000, .id), (0x004, .cfg), (0x008, .ctrl), (0x00C, .status), (0x010, .cmd), (0x014, .src), (0x018, .dst), (0x01C, .len),
    (0x020, .kstat), (0x024, .phase), (0x028, .cache), (0x02C, .rebuilds), (0x030, .faultcmd)]

/-- The address map of R65 on aligned offsets, from the top window down; `none` is unmapped. -/
def mapped (p : Params) (a : Nat) : Option Target :=
  if 0x10000 ≤ a then
    if a < 0x10000 + p.bufSize then some (.buf (a - 0x10000)) else none
  else if 0x200 ≤ a then
    if a < 0x200 + 64 * p.nctx then some (.ctx ((a - 0x200) / 64) ((a - 0x200) % 64 / 4)) else none
  else if 0x040 ≤ a ∧ a ≤ 0x04C then some (.tag ((a - 0x040) / 4))
  else registerMap.lookup a

/-- The reads the bus accepts while BUSY = 1 (R67). -/
def Target.readableWhileBusy : Target → Bool
  | .id => true
  | .cfg => true
  | .ctrl => true
  | .status => true
  | _ => false

/-- The writes the bus accepts while BUSY = 1 (R67). -/
def Target.writableWhileBusy : Target → Bool
  | .ctrl => true
  | .status => true
  | _ => false

/-- Where an accepted transaction goes; `none` is BusError: misaligned (R62), unmapped (R66), or refused while BUSY (R67). -/
def State.accepts (s : State) (whileBusy : Target → Bool) (a : BitVec 17) : Option Target :=
  if a.toNat % 4 ≠ 0 then none
  else match mapped s.cfg a.toNat with
    | none => none
    | some t => if s.busy && !whileBusy t then none else some t

/-- The value a Read32 returns (10_state.md R36 to R51). -/
def State.readTarget (s : State) : Target → Word
  | .id => idWord
  | .cfg => cfgWord s.cfg
  | .ctrl => s.ctrlWord
  | .status => s.statusWord
  | .cmd => s.lastcmd
  | .src => s.src
  | .dst => s.dst
  | .len => s.len
  | .kstat => s.kstatWord
  | .phase => s.phaseWord
  | .cache => s.cacheWord
  | .rebuilds => s.rebuilds
  | .faultcmd => s.faultcmd
  | .tag w => Block.word s.tagreg w
  | .ctx n w => (s.slot n).word w
  | .buf a => bytesToWord (s.bufByte a) (s.bufByte (a + 1)) (s.bufByte (a + 2)) (s.bufByte (a + 3))

/-- An accepted write of CMD: LASTCMD, DONE cleared, PEND latched (R68). -/
def State.issue (s : State) (v : Word) : State :=
  { s with lastcmd := v, done := false, pend := some { word := v, src := s.src, dst := s.dst, len := s.len } }

/-- A write of CTRL: a soft reset if SRST = 1, else IE (R68, 10_state.md R38). -/
def State.writeCtrl (s : State) (v : Word) : State :=
  if v.getLsbD 1 then s.softReset else { s with ie := v.getLsbD 0 }

/-- A write of STATUS: bit 1 = 1 clears DONE, every other bit is ignored (R68, 10_state.md R39). -/
def State.writeStatus (s : State) (v : Word) : State :=
  if v.getLsbD 1 then { s with done := false } else s

/-- The effect of an accepted Write32; the read-only registers ignore it (R66, R68; 10_state.md R51). -/
def State.writeTarget (s : State) (v : Word) : Target → State
  | .id => s
  | .cfg => s
  | .ctrl => s.writeCtrl v
  | .status => s.writeStatus v
  | .cmd => s.issue v
  | .src => { s with src := v }
  | .dst => { s with dst := v }
  | .len => { s with len := v }
  | .kstat => s
  | .phase => s
  | .cache => s
  | .rebuilds => s
  | .faultcmd => s
  | .tag _ => s
  | .ctx _ _ => s
  | .buf a => s.memWrite a (wordToBytes v)

/-- The host is answered. -/
def State.respond (s : State) (r : Response) : State := { s with responses := r :: s.responses }

/-- `Read32(a)` (R61): no side effect (R69). -/
def State.read32 (s : State) (a : BitVec 17) : State :=
  match s.accepts Target.readableWhileBusy a with
  | none => s.respond .busError
  | some t => s.respond (.data (s.readTarget t))

/-- `Write32(a, v)` (R61). -/
def State.write32 (s : State) (a : BitVec 17) (v : Word) : State :=
  match s.accepts Target.writableWhileBusy a with
  | none => s.respond .busError
  | some t => (s.writeTarget v t).respond .ok

end Sys2Proof.Machine
end

