-- ==== Sys2Proof/WellFormed.lean ====
section
/-!
DEFINITION. Which terms of `Instr` are commands a word can spell: the CTX field has 3 bits, so the slot number is 0 to 7
(30_encoding.md R90). A slot number at or above NCTX is well formed ("Such a word is well formed but names a slot this
configuration lacks", R93) and faults BAD_SLOT when it runs.
-/

namespace Sys2Proof

/-- The check, one arm per constructor. -/
def Instr.wellFormed : Instr → Bool
  | .setkey c _ => c < 8
  | .setiv c => c < 8
  | .aad c => c < 8
  | .encrypt c => c < 8
  | .decrypt c => c < 8
  | .tag c => c < 8

end Sys2Proof
end

