-- ==== Sys2Proof/Decode.lean ====
section
/-!
DEFINITION. Decoding and encoding of command words: the format CMD32 (30_encoding.md R90), the opcode map (R92) and the words that
are no command (R93). A command is exactly one 32-bit word (R94).
-/

namespace Sys2Proof

/-- Why a word is no command (R93). -/
inductive DecodeError where
  /-- OP = 0x0 or OP in 0x7..0xF. -/
  | illegalOp
  /-- A valid OP with bit 7 or any of bits 31:12 set, or CIPH ≠ 0 with an OP other than SETKEY. -/
  | reservedField
  deriving DecidableEq, Repr

/-- The fields of a command word (R90, R91). -/
def opField (w : Word) : BitVec 4 := w.extractLsb' 0 4

def ctxField (w : Word) : BitVec 3 := w.extractLsb' 4 3

def reservedBit7 (w : Word) : BitVec 1 := w.extractLsb' 7 1

def ciphField (w : Word) : BitVec 4 := w.extractLsb' 8 4

def reservedHigh (w : Word) : BitVec 20 := w.extractLsb' 12 20

/-- OP is one of the six opcodes (R92). -/
def validOp (w : Word) : Bool := 1 ≤ (opField w).toNat && (opField w).toNat ≤ 6

/-- The command a word spells, or why it spells none. The order of the two errors is that of 60_exceptions.md R192. -/
def decode (w : Word) : Except DecodeError Instr :=
  if validOp w = false then .error .illegalOp
  else if reservedBit7 w ≠ 0 ∨ reservedHigh w ≠ 0 then .error .reservedField
  else if opField w ≠ 1 ∧ ciphField w ≠ 0 then .error .reservedField
  else if opField w = 1 then .ok (.setkey (ctxField w).toNat (ciphField w))
  else if opField w = 2 then .ok (.setiv (ctxField w).toNat)
  else if opField w = 3 then .ok (.aad (ctxField w).toNat)
  else if opField w = 4 then .ok (.encrypt (ctxField w).toNat)
  else if opField w = 5 then .ok (.decrypt (ctxField w).toNat)
  else .ok (.tag (ctxField w).toNat)

/-- The bit pattern `0000 0000 0000 0000 0000 kkkk 0ccc oooo` (R90). -/
def commandWord (ciph : BitVec 4) (ctx : Nat) (op : BitVec 4) : Word :=
  0#20 ++ ciph ++ 0#1 ++ BitVec.ofNat 3 ctx ++ op

/-- The word of a well-formed command (R90, R92). -/
def encode : Instr → Word
  | .setkey c k => commandWord k c 0x1
  | .setiv c => commandWord 0 c 0x2
  | .aad c => commandWord 0 c 0x3
  | .encrypt c => commandWord 0 c 0x4
  | .decrypt c => commandWord 0 c 0x5
  | .tag c => commandWord 0 c 0x6

/-- The decoder read through opcode_table.json's numbering: bit 0 of `w` is the least significant bit of the one 32-bit word; the
bits above `nbits` are 0. No instruction is longer than 32 bits (R94). -/
def decodeTableWord (nbits w : Nat) : Option Instr :=
  if nbits ≤ 32 then (decode (BitVec.ofNat 32 (w % 2 ^ nbits))).toOption else none

end Sys2Proof
end

