-- ==== Sys2Proof/Machine/Operands.lean ====
section
/-!
DEFINITION. The checks of a command's operands and of the phase of its slot: the table and the order of 60_exceptions.md R192, after
the two checks that `decode` makes of the word (30_encoding.md R93).
-/

namespace Sys2Proof.Machine

/-- Which of the six commands; the opcode map of 30_encoding.md R92 without the operands. -/
inductive Command where
  | setkey
  | setiv
  | aad
  | encrypt
  | decrypt
  | tag
  deriving DecidableEq, Repr

/-- `PHASE[s] ∈ Legal(op)` (R192). -/
def Command.legal : Command → Phase → Bool
  | .setkey, _ => true
  | .setiv, p => p != .uninit
  | .aad, p => p == .ivready || p == .aad
  | .encrypt, p => p == .ivready || p == .aad || p == .data
  | .decrypt, p => p == .ivready || p == .aad || p == .data
  | .tag, p => p == .ivready || p == .aad || p == .data || p == .tagged

/-- The command reads BUF[src .. src+len−1]: every one but TAG (R192). -/
def Command.readsBuf : Command → Bool
  | .tag => false
  | _ => true

/-- The command writes BUF[dst .. dst+len−1] (R192). -/
def Command.writesBuf : Command → Bool
  | .encrypt => true
  | .decrypt => true
  | _ => false

/-- `a + len > BUF_SIZE`, an exact sum (R192; 30_encoding.md R91: it does not wrap at 2^32). -/
def outOfBounds (p : Params) (a len : Word) : Bool := p.bufSize < a.toNat + len.toNat

/-- `len > 0`, `src ≠ dst`, and the two ranges intersect (R192). -/
def overlaps (p : Pending) : Bool :=
  0 < p.len.toNat && p.src != p.dst &&
    p.src.toNat < p.dst.toNat + p.len.toNat && p.dst.toNat < p.src.toNat + p.len.toNat

/-- The first failing check of a decoded command on slot `n`, in the order BAD_SLOT, SEQUENCE, BOUNDS, OVERLAP (R192). -/
def State.check (s : State) (c : Command) (n : Nat) : Option Cause :=
  if s.cfg.nctx ≤ n then some .badSlot
  else if c.legal (s.slot n).phase = false then some .sequence
  else if c.readsBuf && outOfBounds s.cfg s.operands.src s.operands.len then some .bounds
  else if c.writesBuf && outOfBounds s.cfg s.operands.dst s.operands.len then some .bounds
  else if c.writesBuf && overlaps s.operands then some .overlap
  else none

/-- A command around its body: rejected without effect while FAULT = 1 (R194), else the fault entry for the first failing check
(R193), else the body (30_encoding.md R97). -/
def State.runCommand (s : State) (check : Option Cause) (body : State → State) : State :=
  if s.fault then s
  else match check with
    | some c => s.raiseFault c
    | none => body s

end Sys2Proof.Machine
end

