-- ==== Sys2Proof/Machine/Process.lean ====
section
/-!
DEFINITION. The fused keystream and GHASH engine (40_field_algebra.md R117), the final hash fold (R118) and the reconstructed initial
counter (R119).
-/

namespace Sys2Proof.Machine

/-- The modes of `ProcessCore` (R117). -/
inductive Mode where
  | aadm
  | enc
  | dec
  | ivd
  deriving DecidableEq, Repr

/-- LENS with 8·len added to AADBITS (AADM) or DATABITS (ENC, DEC, IVD), modulo 2^64 (R117, R120). -/
def countBits (mode : Mode) (len : Nat) (lens : Block) : Block :=
  match mode with
  | .aadm => Block.ofLengths (Block.aadbits lens + BitVec.ofNat 64 (8 * len)) (Block.databits lens)
  | .enc => Block.ofLengths (Block.aadbits lens) (Block.databits lens + BitVec.ofNat 64 (8 * len))
  | .dec => Block.ofLengths (Block.aadbits lens) (Block.databits lens + BitVec.ofNat 64 (8 * len))
  | .ivd => Block.ofLengths (Block.aadbits lens) (Block.databits lens + BitVec.ofNat 64 (8 * len))

def State.countBits (s : State) (n : Nat) (mode : Mode) (len : Nat) : State :=
  s.setSlot n { s.slot n with lens := Machine.countBits mode len (s.slot n).lens }

/-- HASH ← MulH(n, XorPrefix(HASH, G, |G|)): the last two lines of a fragment (R117, R115). -/
def State.absorb (s : State) (n : Nat) (g : List Byte) : State :=
  (s.ensureCache n).setSlot n { s.slot n with hash := s.mulH n (xorPrefix (s.slot n).hash g) }

/-- CTR ← Inc32(CTR) (R116, R117). -/
def State.stepCounter (s : State) (n : Nat) : State :=
  s.setSlot n { s.slot n with ctr := inc32 (s.slot n).ctr }

/-- One payload fragment: the counter stepped, O = KsXor(F, E(n, CTR), |F|) written at dst, G absorbed (R117). `pick F O` is G. -/
def State.payloadFragment (s : State) (E : Block → Block) (n dst : Nat) (f : List Byte)
    (pick : List Byte → List Byte → List Byte) : State :=
  let o := ksXor f (E (inc32 (s.slot n).ctr))
  ((s.stepCounter n).memWrite dst o).absorb n (pick f o)

/-- One fragment of `ProcessCore`, of `k` bytes at `src`, read before any write (R117). ENC hashes what it wrote, DEC what it read. -/
def State.fragment (s : State) (E : Block → Block) (n : Nat) (mode : Mode) (src dst k : Nat) : State :=
  let f := s.memRead src k
  match mode with
  | .aadm => s.absorb n f
  | .ivd => s.absorb n f
  | .enc => s.payloadFragment E n dst f (fun _ o => o)
  | .dec => s.payloadFragment E n dst f (fun f _ => f)

/-- The loop of `ProcessCore`: `count` fragments of 16 bytes, the last one shorter (R117, R70). -/
def State.fragments (E : Block → Block) (n : Nat) (mode : Mode) :
    (count src dst len : Nat) → State → State
  | 0, _, _, _, s => s
  | c + 1, src, dst, len, s =>
    State.fragments E n mode c (src + 16) (dst + 16) (len - 16) (s.fragment E n mode src dst (min 16 len))

/-- The number of fragments, ceil(len/16). -/
def fragmentCount (len : Nat) : Nat := (len + 15) / 16

/-- `ProcessCore(n, mode, src, dst, len)` (R117). `E` is E(n, ·): no fragment changes CIPHST. -/
def State.processCore (s : State) (E : Block → Block) (n : Nat) (mode : Mode) (src dst len : Nat) : State :=
  State.fragments E n mode (fragmentCount len) src dst len (s.countBits n mode len)

/-- `HashFold(n)`: MulH(n, HASH ⊕ LENS); the state it leaves is `ensureCache n` (R118). -/
def State.hashFold (s : State) (n : Nat) : Block :=
  s.mulH n ((s.slot n).hash ^^^ Block.ofLengths (Block.aadbits (s.slot n).lens) (Block.databits (s.slot n).lens))

/-- `PayloadBlocks`: ceil(DATABITS/128) mod 2^32 (R119). -/
def payloadBlocks (dataBits : BitVec 64) : Word := BitVec.ofNat 32 ((dataBits.toNat + 127) / 128)

/-- `InitialCounter`: the suffix offset by −PayloadBlocks (R119, 90_conflicts.md C1). -/
def initialCounter (v : Slot) : Block :=
  Block.ofCounter (Block.ivpart v.ctr) (Block.suffix v.ctr - payloadBlocks (Block.databits v.lens))

/-- `E(n, X) = CipherEnc(CIPHST[n], X)` (00_scope.md R14). -/
def State.cipherE (s : State) (C : Cipher) (n : Nat) : Block → Block := C.enc (s.slot n).ciphst

end Sys2Proof.Machine
end

