-- ==== Sys2Proof/Machine/KeyIv.lean ====
section
/-!
DEFINITION. The context lifecycle commands SETKEY and SETIV (41_key_iv.md R140, R141).
-/

namespace Sys2Proof.Machine

/-- SETKEY up to the adapter's answer: the slot zeroed and UNINIT, a cache tagged with it invalidated (R140). The
tables of an invalidated cache take the number of the next free value; a success rebuilds them, a failure uses the number up. -/
def State.clearSlot (s : State) (n : Nat) : State :=
  { s.setSlot n { Slot.reset with ciphst := (s.slot n).ciphst } with cache := s.cache.invalidate s.freeCtr n }

/-- SETKEY after a non-zero status: KSTAT, KEYERR, CIPHST unspecified (R140, 60_exceptions.md R196, log 5). -/
def State.keyFailed (s : State) (n : Nat) (st : Byte) : State :=
  { s.setSlot n { s.slot n with ciphst := Config.freeCipherState s.freeCtr n } with
    kstat := st, keyerr := true, freeCtr := s.freeCtr + 1 }

/-- SETKEY after status 0: CIPHST, KEY = E(n, 0^16), CTR = 0^12 ‖ be32(1), the cache built, KEYED (R140). -/
def State.keyReady (s : State) (C : Cipher) (n : Nat) (st : Byte) (cs : CipherState) : State :=
  (({ s with kstat := st, keyerr := false }.setSlot n
    { s.slot n with ciphst := cs, key := C.enc cs 0, ctr := counterOne }).rebuild n).setPhase n .keyed

/-- SETKEY (R140). The key bytes are read before anything changes. -/
def State.setkey (s : State) (C : Cipher) (n : Nat) (ciph : BitVec 4) : State :=
  let key := s.memRead s.operands.src.toNat s.operands.len.toNat
  let answer := C.setKey ciph key
  if answer.1 ≠ 0 then (s.clearSlot n).keyFailed n answer.1
  else (s.clearSlot n).keyReady C n answer.1 answer.2

/-- SETIV's reset of the per-message bytes 0..47: HASH, LENS and CTR zero, then the suffix 1 (R141). -/
def State.startMessage (s : State) (n : Nat) : State :=
  s.setSlot n { s.slot n with hash := 0, lens := 0, ctr := counterOne }

/-- SETIV with 12 bytes: they are the IV subfield of CTR (R141). -/
def State.copyIv (s : State) (n src : Nat) : State :=
  s.setSlot n { s.slot n with
    ctr := Block.ofCounter (Block.ivpart (Block.ofBytes (s.memRead src 12))) (Block.suffix (s.slot n).ctr) }

/-- SETIV with any other length: CTR = GHASH(H, ∅, IV), HASH and LENS zeroed again (R141, 90_conflicts.md C2). -/
def State.hashIv (s : State) (E : Block → Block) (n src len : Nat) : State :=
  let h := s.processCore E n .ivd src 0 len
  (h.ensureCache n).setSlot n { h.slot n with hash := 0, lens := 0, ctr := h.hashFold n }

/-- SETIV (R141). -/
def State.setiv (s : State) (C : Cipher) (n : Nat) : State :=
  let src := s.operands.src.toNat
  let len := s.operands.len.toNat
  let t := s.startMessage n
  (if len = 12 then t.copyIv n src else t.hashIv (s.cipherE C n) n src len).setPhase n .ivready

def execSetkey (ctx : Nat) (ciph : BitVec 4) (s : State) : Host.Outcome State Fault Refusal :=
  .next (s.runCommand (s.check .setkey ctx) (fun s => s.setkey Config.cipher ctx ciph))

def execSetiv (ctx : Nat) (s : State) : Host.Outcome State Fault Refusal :=
  .next (s.runCommand (s.check .setiv ctx) (fun s => s.setiv Config.cipher ctx))

end Sys2Proof.Machine
end

