-- ==== Sys2Proof/Machine/Stream.lean ====
section
/-!
DEFINITION. The streaming commands AAD, ENCRYPT and DECRYPT (42_process.md R160 to R162).
-/

namespace Sys2Proof.Machine

/-- AAD (R160). -/
def State.aad (s : State) (C : Cipher) (n : Nat) : State :=
  (s.processCore (s.cipherE C n) n .aadm s.operands.src.toNat 0 s.operands.len.toNat).setPhase n .aad

/-- ENCRYPT (R161). -/
def State.encrypt (s : State) (C : Cipher) (n : Nat) : State :=
  (s.processCore (s.cipherE C n) n .enc s.operands.src.toNat s.operands.dst.toNat s.operands.len.toNat).setPhase n .data

/-- DECRYPT (R162). -/
def State.decrypt (s : State) (C : Cipher) (n : Nat) : State :=
  (s.processCore (s.cipherE C n) n .dec s.operands.src.toNat s.operands.dst.toNat s.operands.len.toNat).setPhase n .data

def execAad (ctx : Nat) (s : State) : Host.Outcome State Fault Refusal :=
  .next (s.runCommand (s.check .aad ctx) (fun s => s.aad Config.cipher ctx))

def execEncrypt (ctx : Nat) (s : State) : Host.Outcome State Fault Refusal :=
  .next (s.runCommand (s.check .encrypt ctx) (fun s => s.encrypt Config.cipher ctx))

def execDecrypt (ctx : Nat) (s : State) : Host.Outcome State Fault Refusal :=
  .next (s.runCommand (s.check .decrypt ctx) (fun s => s.decrypt Config.cipher ctx))

end Sys2Proof.Machine
end

