-- ==== Sys2Proof/Machine/Tag.lean ====
section
/-!
DEFINITION. The tag finalization command TAG (43_tag.md R180).
-/

namespace Sys2Proof.Machine

/-- TAG: TAGREG = HashFold ⊕ E(n, InitialCounter), no context field written (R180, 90_conflicts.md C8). -/
def State.tag (s : State) (C : Cipher) (n : Nat) : State :=
  { s.ensureCache n with tagreg := s.hashFold n ^^^ s.cipherE C n (initialCounter (s.slot n)) }.setPhase n .tagged

def execTag (ctx : Nat) (s : State) : Host.Outcome State Fault Refusal :=
  .next (s.runCommand (s.check .tag ctx) (fun s => s.tag Config.cipher ctx))

end Sys2Proof.Machine
end

