-- ==== Sys2Proof/Machine/Dispatch.lean ====
section
/-!
DEFINITION. The dispatch on OP (30_encoding.md R97), one arm per command.
-/

namespace Sys2Proof.Machine

def exec (i : Instr) (s : State) : Host.Outcome State Fault Refusal :=
  match i with
  | .setkey ctx ciph => Sys2Proof.Machine.execSetkey ctx ciph s
  | .setiv ctx => Sys2Proof.Machine.execSetiv ctx s
  | .aad ctx => Sys2Proof.Machine.execAad ctx s
  | .encrypt ctx => Sys2Proof.Machine.execEncrypt ctx s
  | .decrypt ctx => Sys2Proof.Machine.execDecrypt ctx s
  | .tag ctx => Sys2Proof.Machine.execTag ctx s

end Sys2Proof.Machine
end

