-- ==== Sys2Proof/Machine/Sequencer.lean ====
section
/-!
DEFINITION. The command sequencer's step (20_memory.md R67) and `Execute` (30_encoding.md R97).
-/

namespace Sys2Proof.Machine

/-- The cause of the fault a word raises that is no command (R93). -/
def causeOf : DecodeError → Cause
  | .illegalOp => .illegalOp
  | .reservedField => .reservedField

/-- `Execute(PEND)` (R97): the decoded command, or the fault of a word that is none; both are rejected while FAULT = 1. -/
def State.execute (s : State) : Host.Outcome State Fault Refusal :=
  match decode s.operands.word with
  | .ok i => exec i s
  | .error e => .next (s.runCommand (some (causeOf e)) id)

/-- The sequencer's step, enabled exactly when PEND is not empty: Execute, then PEND emptied and DONE set (R67). -/
def State.sequencerStep (s : State) : Host.Outcome State Fault Refusal :=
  match s.pend with
  | none => .next s
  | some _ =>
    match s.execute with
    | .next t => .next t.finish
    | .fault r => .fault r
    | .refused r => .refused r

end Sys2Proof.Machine
end

