-- ==== Sys2Proof/Machine/Step.lean ====
section
/-!
DEFINITION. One step: the next turn of the total order of 20_memory.md R71. With no turn scheduled the host is silent, and the sequencer
performs the command in PEND, or, with PEND empty, the core stays idle (70_reset_and_hazards.md R232). Log 1.
-/

namespace Sys2Proof.Machine

def step (s : State) : Host.Outcome State Fault Refusal :=
  match s.schedule with
  | [] => s.sequencerStep
  | .sequencer :: rest => { s with schedule := rest }.sequencerStep
  | .read32 a :: rest => .next ({ s with schedule := rest }.read32 a)
  | .write32 a v :: rest => .next ({ s with schedule := rest }.write32 a v)
  | .rst :: rest => .next ({ s with schedule := rest }.hardReset)

/-- `s` with the command word `w`, numbered as opcode_table.json numbers it, in PEND, with the operands SRC, DST and LEN as a CMD write
latches them (R68), and the sequencer's turn next: the core fetches from PEND (10_state.md R33, R35). Log 9. -/
def State.withFetchWord (s : State) (nbits w : Nat) : State :=
  { s with
    pend := some { word := BitVec.ofNat 32 (w % 2 ^ nbits), src := s.src, dst := s.dst, len := s.len }
    schedule := .sequencer :: s.schedule }

end Sys2Proof.Machine
end

