-- ==== Sys2Proof/Safety.lean ====
section
/-!
DEFINITION. The terms claims are stated in: the field and its product (00_scope.md R12, 40_field_algebra.md R110), GHASH over byte
strings, the keystream, when a command is accepted, the checking function as 60_exceptions.md R192 writes it, and the invariant of
the machine. What counts as a safe run: every state meets `Machine.Inv`, and no step ends in a fault or a refusal. No definition of
the machine uses one of these.
-/

namespace Sys2Proof.Machine

open Polynomial

/-- `p8(b) = Σ_j bit_j(b)·x^(7−j)` (00_scope.md R12). -/
noncomputable def p8 (b : Byte) : (ZMod 2)[X] :=
  ∑ j ∈ Finset.range 8, if b.getLsbD j then X ^ (7 - j) else 0

/-- `poly(B) = Σ_k Σ_j bit_j(B[k])·x^(8k + 7 − j)` (R12). -/
noncomputable def poly (b : Block) : (ZMod 2)[X] :=
  ∑ k ∈ Finset.range 16, ∑ j ∈ Finset.range 8,
    if (Block.byte b k).getLsbD j then X ^ (8 * k + 7 - j) else 0

/-- The field polynomial `P(x) = x^128 + x^7 + x^2 + x + 1` (40_field_algebra.md R110). -/
noncomputable def fieldPoly : (ZMod 2)[X] := X ^ 128 + X ^ 7 + X ^ 2 + X + 1

/-- `z = x • y`: z is the Block of `poly(x)·poly(y) mod P` (R110). -/
def IsProduct (x y z : Block) : Prop := poly z = (poly x * poly y) %ₘ fieldPoly

/-- `x^i • v`, by i multiplications by x. -/
def xTimes : Nat → Block → Block
  | 0, v => v
  | i + 1, v => mulX (xTimes i v)

/-- The product by shift and add, one coefficient of `x` at a time: an evaluable form of `x • y`, which the obligations relate to
`IsProduct`. No part of the machine computes it. -/
def gmul (x y : Block) : Block :=
  (List.range 128).foldl (fun z i => if x.getMsbD i then z ^^^ xTimes i y else z) 0

/-- The Block whose byte 0 is `b` and whose other bytes are 0: it stands for `p8(b)`. -/
def byteBlock (b : Byte) : Block := b ++ 0#120

/-- A byte string as Blocks, 16 bytes each, the last one zero-padded. -/
def blocksOf (bs : List Byte) : List Block :=
  (List.range (fragmentCount bs.length)).map (fun k => Block.ofBytes (bs.drop (16 * k)))

/-- The running hash over Blocks: `a ← (a ⊕ b) • h` for each. -/
def ghashFold (h a : Block) (bs : List Block) : Block := bs.foldl (fun a b => gmul (a ^^^ b) h) a

/-- `GHASH(H, A, C)` of the standard: A and C zero-padded to whole Blocks, then the length block `be64(8|A|) ‖ be64(8|C|)`
(43_tag.md R181, 41_key_iv.md R141; 93_implementation_defined.md K4). -/
def ghash (h : Block) (a c : List Byte) : Block :=
  gmul (ghashFold h (ghashFold h 0 (blocksOf a)) (blocksOf c) ^^^
    Block.ofLengths (BitVec.ofNat 64 (8 * a.length)) (BitVec.ofNat 64 (8 * c.length))) h

/-- The counter block `k` steps after `ctr`. -/
def counterAt (ctr : Block) (k : Nat) : Block :=
  Block.ofCounter (Block.ivpart ctr) (Block.suffix ctr + BitVec.ofNat 32 k)

/-- A byte string under the keystream that starts one step after `ctr`: byte j meets byte j mod 16 of `E(ctr + j/16 + 1)`. -/
def ctrXor (E : Block → Block) (ctr : Block) (bs : List Byte) : List Byte :=
  (List.range bs.length).map
    (fun j => bs.getD j 0 ^^^ Block.byte (E (counterAt ctr (j / 16 + 1))) (j % 16))

/-- The conditions under which a command of kind `c` on slot `n` runs its body, each in the words of 60_exceptions.md R192 and R194:
FAULT = 0, the slot exists, its phase is legal, the ranges lie in BUF, and the ranges of ENCRYPT and DECRYPT do not partly overlap. -/
def Accepted (s : State) (p : Pending) (c : Command) (n : Nat) : Prop :=
  s.pend = some p ∧ s.fault = false ∧ n < s.cfg.nctx ∧ c.legal (s.slot n).phase = true ∧
  (c.readsBuf = true → p.src.toNat + p.len.toNat ≤ s.cfg.bufSize) ∧
  (c.writesBuf = true → p.dst.toNat + p.len.toNat ≤ s.cfg.bufSize ∧
    (p.len.toNat = 0 ∨ p.src = p.dst ∨ p.src.toNat + p.len.toNat ≤ p.dst.toNat ∨ p.dst.toNat + p.len.toNat ≤ p.src.toNat))

/-- The columns Y of the table of R192, by opcode. -/
def legalPhases : Nat → List Phase
  | 1 => [.uninit, .keyed, .ivready, .aad, .data, .tagged]
  | 2 => [.keyed, .ivready, .aad, .data, .tagged]
  | 3 => [.ivready, .aad]
  | 4 => [.ivready, .aad, .data]
  | 5 => [.ivready, .aad, .data]
  | 6 => [.ivready, .aad, .data, .tagged]
  | _ => []

/-- `Check(P)` line by line as R192 writes it, on the numeric value of the command word. -/
def checkR192 (s : State) (p : Pending) : Option Cause :=
  let w := p.word.toNat
  let op := w % 16
  let n := w / 16 % 8
  if op = 0 ∨ 6 < op then some .illegalOp
  else if w / 128 % 2 = 1 ∨ w / 4096 ≠ 0 then some .reservedField
  else if op ≠ 1 ∧ w / 256 % 16 ≠ 0 then some .reservedField
  else if s.cfg.nctx ≤ n then some .badSlot
  else if (s.slot n).phase ∉ legalPhases op then some .sequence
  else if op ≠ 6 ∧ s.cfg.bufSize < p.src.toNat + p.len.toNat then some .bounds
  else if op = 4 ∨ op = 5 then
    if s.cfg.bufSize < p.dst.toNat + p.len.toNat then some .bounds
    else if 0 < p.len.toNat ∧ p.src ≠ p.dst ∧ p.src.toNat < p.dst.toNat + p.len.toNat ∧
        p.dst.toNat < p.src.toNat + p.len.toNat then some .overlap
    else none
  else none

/-- The value of R[b] (40_field_algebra.md R112): the coefficients x^0..x^15 of `p8(b)·x^128 mod P`, coefficient x^m at bit 15−m. -/
def reductionEntry (b : Byte) : Half := (gmul (byteBlock b) fieldByte).extractLsb' 112 16

/-- 10_state.md R32: whenever CACHE_VALID = 1 the tables are those of the tagged slot's key, which exists. -/
def CacheOk (s : State) : Prop :=
  s.cache.valid = true → s.cache.tag.toNat < s.cfg.nctx ∧
    ∀ b : Byte, s.cache.mAt b = gmul (byteBlock b) (s.slot s.cache.tag.toNat).key ∧ s.cache.rAt b = reductionEntry b

/-- What every step keeps. -/
structure Inv (s : State) : Prop where
  /-- BUF is in canonical form (log 4). -/
  bufSorted : Memory.wf s.buf
  /-- BUF holds no byte at or above BUF_SIZE (20_memory.md R60). -/
  bufInside : Memory.within s.buf s.cfg.bufSize
  /-- The cache holds the tagged key's tables (10_state.md R32). -/
  cacheOk : CacheOk s
  /-- A slot without a key is all zero (70_reset_and_hazards.md R221, 60_exceptions.md R196). -/
  unkeyed : ∀ n, n < s.cfg.nctx → (s.slot n).phase = .uninit →
    (s.slot n).hash = 0 ∧ (s.slot n).lens = 0 ∧ (s.slot n).ctr = 0 ∧ (s.slot n).key = 0
  /-- KEY is E(s, 0^16) in every keyed slot (10_state.md R26). -/
  keyed : ∀ n, n < s.cfg.nctx → (s.slot n).phase ≠ .uninit →
    (s.slot n).key = Config.cipher.enc (s.slot n).ciphst 0
  /-- No data has been hashed or counted before the message starts (41_key_iv.md R142). -/
  fresh : ∀ n, n < s.cfg.nctx → (s.slot n).phase = .keyed ∨ (s.slot n).phase = .ivready →
    (s.slot n).hash = 0 ∧ (s.slot n).lens = 0
  /-- CAUSE and FAULTCMD hold what the first fault recorded, or their reset values (60_exceptions.md R191, R193). -/
  noFault : s.fault = false → s.cause = .none ∧ s.faultcmd = 0
  faulted : s.fault = true → s.cause ≠ .none
  /-- KEYERR says whether KSTAT is a failure (10_state.md R39, R44). -/
  keyStatus : s.keyerr = true ↔ s.kstat ≠ 0
  /-- PEND holds the registers as they stand: they cannot change while BUSY = 1 (20_memory.md R67, R68), and DONE is clear. -/
  pending : ∀ p, s.pend = some p →
    p = { word := s.lastcmd, src := s.src, dst := s.dst, len := s.len } ∧ s.done = false

/-- The command an instruction is, without its operands. -/
def commandOf : Instr → Command
  | .setkey _ _ => .setkey
  | .setiv _ => .setiv
  | .aad _ => .aad
  | .encrypt _ => .encrypt
  | .decrypt _ => .decrypt
  | .tag _ => .tag

/-- The last column of the table of 60_exceptions.md R192: PHASE[s] after the command succeeds. -/
def nextPhase : Command → Phase
  | .setkey => .keyed
  | .setiv => .ivready
  | .aad => .aad
  | .encrypt => .data
  | .decrypt => .data
  | .tag => .tagged

/-- The sequencer moves next, and `rest` is what is scheduled after it (log 1). -/
def SequencerTurn (s : State) (rest : List Turn) : Prop :=
  s.schedule = .sequencer :: rest ∨ (s.schedule = [] ∧ rest = [])

/-- The next turn resets the core: rst, or a CTRL write with SRST = 1 (70_reset_and_hazards.md R220). -/
def ResetTurn (s : State) : Prop :=
  ∃ rest, s.schedule = .rst :: rest ∨ ∃ v : Word, v.getLsbD 1 = true ∧ s.schedule = .write32 0x008 v :: rest

/-- What no command writes: the parameters, CTRL.IE, DONE, LASTCMD, SRC, DST, LEN, PEND (10_state.md R34, R38 to R43, R52), and the
host's side of the model. -/
structure SameHostSide (s t : State) : Prop where
  cfg : t.cfg = s.cfg
  ie : t.ie = s.ie
  done : t.done = s.done
  lastcmd : t.lastcmd = s.lastcmd
  src : t.src = s.src
  dst : t.dst = s.dst
  len : t.len = s.len
  pend : t.pend = s.pend
  bufEpoch : t.bufEpoch = s.bufEpoch
  schedule : t.schedule = s.schedule
  responses : t.responses = s.responses

/-- FAULT, CAUSE and FAULTCMD are as before, or FAULT was 0 and the fault entry has recorded this command (60_exceptions.md R193). -/
def FaultRecordKept (s t : State) : Prop :=
  (t.fault = s.fault ∧ t.cause = s.cause ∧ t.faultcmd = s.faultcmd) ∨
    (s.fault = false ∧ t.fault = true ∧ t.faultcmd = s.operands.word)

/-- The cache and REBUILDS are as before, or rebuilt once for slot `n` (40_field_algebra.md R112, R115). -/
def CacheKeptOrRebuilt (s t : State) (n : Nat) : Prop :=
  (t.cache = s.cache ∧ t.rebuilds = s.rebuilds) ∨ (t.cache = (s.rebuild n).cache ∧ t.rebuilds = s.rebuilds + 1)

/-- The offsets 20_memory.md R65 maps, among the multiples of 4. -/
abbrev MappedOffset (p : Params) (a : Nat) : Prop :=
  a ≤ 0x030 ∨ (0x040 ≤ a ∧ a ≤ 0x04C) ∨ (0x200 ≤ a ∧ a ≤ 0x200 + 64 * p.nctx - 4) ∨
    (0x10000 ≤ a ∧ a ≤ 0x10000 + p.bufSize - 4)

/-- A Read32 at `a` is answered with `v` and changes nothing else. -/
def ReadsAs (s : State) (a : BitVec 17) (v : Word) : Prop :=
  ∀ rest, step { s with schedule := .read32 a :: rest } =
    .next { s with schedule := rest, responses := .data v :: s.responses }

/-- The 64 bytes of a slot in the layout of 10_state.md R22. -/
def Slot.bytes (v : Slot) : List Byte :=
  Block.toBytes v.hash ++ Block.toBytes v.lens ++ Block.toBytes v.ctr ++ Block.toBytes v.key

/-- The values of the table of 70_reset_and_hazards.md R221, for every state it gives a value. -/
structure ResetValues (s : State) : Prop where
  ie : s.ie = false
  pend : s.pend = none
  done : s.done = false
  fault : s.fault = false
  keyerr : s.keyerr = false
  cause : s.cause = .none
  lastcmd : s.lastcmd = 0
  src : s.src = 0
  dst : s.dst = 0
  len : s.len = 0
  kstat : s.kstat = 0
  faultcmd : s.faultcmd = 0
  tagreg : s.tagreg = 0
  slots : ∀ n, n < s.cfg.nctx → (s.slot n).phase = .uninit ∧ (s.slot n).hash = 0 ∧ (s.slot n).lens = 0 ∧
    (s.slot n).ctr = 0 ∧ (s.slot n).key = 0
  cacheValid : s.cache.valid = false
  cacheTag : s.cache.tag = 0
  hardwired : s.cache.mAt 0 = 0 ∧ s.cache.rAt 0 = 0
  rebuilds : s.rebuilds = 0
  irq : s.irq = false

/-- `exec` of a command with the given operands in PEND. -/
def perform (i : Instr) (src dst len : Word) (s : State) : Host.Outcome State Fault Refusal :=
  exec i { s with pend := some { word := encode i, src := src, dst := dst, len := len } }

end Sys2Proof.Machine
end

