-- ==== Sys2Proof/Certificates/Slice0/Obligations.lean ====
section
/-!
DEFINITION. The statements for the provers. Each docstring names the rule of the spec it rests on and says where it rests on a choice of
the model. A statement that assumes `CacheOk` assumes the invariant of 10_state.md R32, which `Obligations.StepKeepsInvariant` keeps.
-/

open Sys2Proof Sys2Proof.Machine

/-! ### Encoding -/

/-- Words written out from the bit patterns of 30_encoding.md R90 decode to the commands they spell. -/
def Obligations.SpelledWordsDecode : Prop :=
  decode 0b00000000000000000000001100000001#32 = .ok (.setkey 0 3) ∧
  decode 0b00000000000000000000111101110001#32 = .ok (.setkey 7 15) ∧
  decode 0b00000000000000000000000000010010#32 = .ok (.setiv 1) ∧
  decode 0b00000000000000000000000001110011#32 = .ok (.aad 7) ∧
  decode 0b00000000000000000000000000010100#32 = .ok (.encrypt 1) ∧
  decode 0b00000000000000000000000000000101#32 = .ok (.decrypt 0) ∧
  decode 0b00000000000000000000000000100110#32 = .ok (.tag 2)

/-- 30_encoding.md R90, R92, R94: decoding and encoding agree in both directions, so each command has exactly one word. -/
def Obligations.DecodeAndEncodeAgree : Prop :=
  ∀ (w : Word) (i : Instr), decode w = .ok i ↔ i.wellFormed = true ∧ encode i = w

/-- 30_encoding.md R93: which words are no command, by the bits of the word, and which fault each names. -/
def Obligations.NonCommandWordsAreNamed : Prop :=
  ∀ w : Word,
    (decode w = .error .illegalOp ↔ w.toNat % 16 = 0 ∨ 7 ≤ w.toNat % 16) ∧
    (decode w = .error .reservedField ↔
      (1 ≤ w.toNat % 16 ∧ w.toNat % 16 ≤ 6) ∧
      (w.getLsbD 7 = true ∨ w.toNat / 4096 ≠ 0 ∨ (w.toNat % 16 ≠ 1 ∧ w.toNat / 256 % 16 ≠ 0)))

/-! ### The step -/

/-- 20_memory.md R67, 30_encoding.md R97: when the sequencer moves and the word in PEND decodes, the step is `exec` of the decoded
command, and then PEND is emptied and DONE set. -/
def Obligations.StepRunsTheDecodedCommand : Prop :=
  ∀ (s t : State) (p : Pending) (i : Instr) (rest : List Turn),
    s.pend = some p → SequencerTurn s rest → decode p.word = .ok i → exec i { s with schedule := rest } = .next t →
    step s = .next { t with pend := none, done := true }

/-- 60_exceptions.md R192 and R193: `Check(P)`, written as R192 writes it (`checkR192`), decides the step of a command while FAULT = 0.
A failing check records FAULT, CAUSE and FAULTCMD and changes nothing else but PEND and DONE; with none failing the word is a command
and the phase of its slot becomes the one in the table. -/
def Obligations.ChecksDecideTheStep : Prop :=
  ∀ (s : State) (p : Pending) (rest : List Turn), s.pend = some p → SequencerTurn s rest → s.fault = false →
    (∀ c, checkR192 s p = some c →
      step s = .next { s with fault := true, cause := c, faultcmd := p.word, pend := none, done := true, schedule := rest }) ∧
    (checkR192 s p = none →
      ∃ i t, decode p.word = .ok i ∧ step s = .next t ∧ t.fault = false ∧
        (t.slot i.ctx).phase =
          if commandOf i = .setkey ∧ t.keyerr = true then .uninit else nextPhase (commandOf i))

/-- 60_exceptions.md R194: while FAULT = 1 a command, whatever its word, has no effect but that the step empties PEND and sets DONE. -/
def Obligations.RejectedCommandHasNoEffect : Prop :=
  ∀ (s : State) (p : Pending) (rest : List Turn), s.pend = some p → SequencerTurn s rest → s.fault = true →
    step s = .next { s with pend := none, done := true, schedule := rest }

/-- 20_memory.md R67, 60_exceptions.md R198: every sequencer step empties PEND and sets DONE, and irq is then CTRL.IE. -/
def Obligations.SequencerStepCompletes : Prop :=
  ∀ (s : State) (p : Pending) (rest : List Turn), s.pend = some p → SequencerTurn s rest →
    ∃ t, step s = .next t ∧ t.pend = none ∧ t.done = true ∧ t.irq = s.ie ∧ t.schedule = rest

/-- 20_memory.md R79, 70_reset_and_hazards.md R232: the machine never stops; every step has a next state. -/
def Obligations.EveryStepHasANextState : Prop :=
  ∀ s : State, ∃ t, step s = .next t

/-- 60_exceptions.md R205, 70_reset_and_hazards.md R232: with PEND empty and the host silent the core is idle and all state persists.
That the model then answers the same state is its own choice (log 1). -/
def Obligations.IdleCoreKeepsItsState : Prop :=
  ∀ s : State, s.pend = none → s.schedule = [] → step s = .next s

/-! ### The commands -/

/-- 60_exceptions.md R192: a command whose conditions hold runs and moves the phase of its slot; no fault is recorded. -/
def Obligations.AcceptedCommandRuns : Prop :=
  ∀ (i : Instr) (s : State) (p : Pending), Accepted s p (commandOf i) i.ctx →
    ∃ t, exec i s = .next t ∧ t.fault = false ∧
      (t.slot i.ctx).phase =
        if commandOf i = .setkey ∧ t.keyerr = true then .uninit else nextPhase (commandOf i)

/-- 60_exceptions.md R190, R193: a command that fails a check has no effect but the record of the fault. -/
def Obligations.FaultedCommandIsPrecise : Prop :=
  ∀ (i : Instr) (s : State) (c : Cause), s.fault = false → s.check (commandOf i) i.ctx = some c →
    exec i s = .next { s with fault := true, cause := c, faultcmd := s.operands.word }

/-- 41_key_iv.md R140, 60_exceptions.md R196: SETKEY, by the status the cipher adapter returns for the key bytes. A failure invalidates
a cache that was valid for the slot, whose tables are then unspecified (93_implementation_defined.md P7, log 6), and keeps any other. -/
def Obligations.SetkeyLoadsTheKeyOrReportsFailure : Prop :=
  ∀ (s : State) (p : Pending) (n : Nat) (ciph : BitVec 4), Accepted s p .setkey n →
    ∃ t, exec (.setkey n ciph) s = .next t ∧
      t.kstat = (Config.cipher.setKey ciph (s.memRead p.src.toNat p.len.toNat)).1 ∧
      (t.kstat ≠ 0 → t.keyerr = true ∧ t.rebuilds = s.rebuilds ∧
        t.slot n = { hash := 0, lens := 0, ctr := 0, key := 0, phase := .uninit, ciphst := (t.slot n).ciphst } ∧
        t.cache.tag = s.cache.tag ∧
        if s.cache.valid = true ∧ s.cache.tag.toNat = n then t.cache.valid = false else t.cache = s.cache) ∧
      (t.kstat = 0 → t.keyerr = false ∧ t.rebuilds = s.rebuilds + 1 ∧ t.cache.valid = true ∧ t.cache.tag.toNat = n ∧
        ∃ cs, cs = (Config.cipher.setKey ciph (s.memRead p.src.toNat p.len.toNat)).2 ∧
          t.slot n = { hash := 0, lens := 0, ctr := 1#128, key := Config.cipher.enc cs 0, phase := .keyed, ciphst := cs })

/-- 41_key_iv.md R141, R142: SETIV leaves HASH and LENS zero and CTR = J0: `IV ‖ be32(1)` for 12 bytes, else `GHASH(H, ∅, IV)`. -/
def Obligations.SetivDerivesTheInitialCounter : Prop :=
  ∀ (s : State) (p : Pending) (n : Nat), CacheOk s → Accepted s p .setiv n →
    ∃ t, exec (.setiv n) s = .next t ∧
      t.slot n = { s.slot n with
        hash := 0, lens := 0, phase := .ivready,
        ctr := if p.len = 12 then Block.ofBytes (s.memRead p.src.toNat 12 ++ [0, 0, 0, 1])
          else ghash (s.slot n).key [] (s.memRead p.src.toNat p.len.toNat) }

/-- 42_process.md R160: AAD counts 8·len in AADBITS and hashes the data, the last fragment zero-padded; the rest of the slot is kept. -/
def Obligations.AadCountsAndHashesItsData : Prop :=
  ∀ (s : State) (p : Pending) (n : Nat), CacheOk s → Accepted s p .aad n →
    ∃ t, exec (.aad n) s = .next t ∧
      t.slot n = { s.slot n with
        phase := .aad,
        lens := Block.ofLengths (Block.aadbits (s.slot n).lens + BitVec.ofNat 64 (8 * p.len.toNat))
          (Block.databits (s.slot n).lens),
        hash := ghashFold (s.slot n).key (s.slot n).hash (blocksOf (s.memRead p.src.toNat p.len.toNat)) }

/-- 42_process.md R161: ENCRYPT writes the plaintext under the keystream at dst, hashes that ciphertext, counts 8·len in DATABITS and
steps the counter once per fragment; the rest of the slot is kept. In place (dst = src) included. -/
def Obligations.EncryptWritesAndHashesTheCiphertext : Prop :=
  ∀ (s : State) (p : Pending) (n : Nat), CacheOk s → Accepted s p .encrypt n →
    ∃ t, exec (.encrypt n) s = .next t ∧
      t.memRead p.dst.toNat p.len.toNat =
        ctrXor (Config.cipher.enc (s.slot n).ciphst) (s.slot n).ctr (s.memRead p.src.toNat p.len.toNat) ∧
      t.slot n = { s.slot n with
        phase := .data,
        lens := Block.ofLengths (Block.aadbits (s.slot n).lens)
          (Block.databits (s.slot n).lens + BitVec.ofNat 64 (8 * p.len.toNat)),
        ctr := counterAt (s.slot n).ctr ((p.len.toNat + 15) / 16),
        hash := ghashFold (s.slot n).key (s.slot n).hash (blocksOf (t.memRead p.dst.toNat p.len.toNat)) }

/-- 42_process.md R162: DECRYPT writes the plaintext at dst and hashes the ciphertext as it was read, in place included. -/
def Obligations.DecryptWritesThePlaintextAndHashesTheCiphertext : Prop :=
  ∀ (s : State) (p : Pending) (n : Nat), CacheOk s → Accepted s p .decrypt n →
    ∃ t, exec (.decrypt n) s = .next t ∧
      t.memRead p.dst.toNat p.len.toNat =
        ctrXor (Config.cipher.enc (s.slot n).ciphst) (s.slot n).ctr (s.memRead p.src.toNat p.len.toNat) ∧
      t.slot n = { s.slot n with
        phase := .data,
        lens := Block.ofLengths (Block.aadbits (s.slot n).lens)
          (Block.databits (s.slot n).lens + BitVec.ofNat 64 (8 * p.len.toNat)),
        ctr := counterAt (s.slot n).ctr ((p.len.toNat + 15) / 16),
        hash := ghashFold (s.slot n).key (s.slot n).hash (blocksOf (s.memRead p.src.toNat p.len.toNat)) }

/-- 43_tag.md R180, 40_field_algebra.md R118, R119: TAGREG is `(HASH ⊕ LENS) • H ⊕ E(n, J)`, J the counter block with its suffix
offset by −ceil(DATABITS/128); of the slot only the phase changes. -/
def Obligations.TagFoldsTheHashUnderTheRewoundCounter : Prop :=
  ∀ (s : State) (p : Pending) (n : Nat), CacheOk s → Accepted s p .tag n →
    ∃ t, exec (.tag n) s = .next t ∧ t.slot n = { s.slot n with phase := .tagged } ∧
      t.tagreg = gmul ((s.slot n).hash ^^^ (s.slot n).lens) (s.slot n).key ^^^
        Config.cipher.enc (s.slot n).ciphst
          (Block.ofCounter (Block.ivpart (s.slot n).ctr)
            (Block.suffix (s.slot n).ctr - BitVec.ofNat 32 (((Block.databits (s.slot n).lens).toNat + 127) / 128)))

/-- 42_process.md R160 to R162, the corner case len = 0: AAD, ENCRYPT and DECRYPT then only move the phase. -/
def Obligations.EmptyDataOnlyMovesThePhase : Prop :=
  ∀ (i : Instr) (s : State) (p : Pending),
    commandOf i = .aad ∨ commandOf i = .encrypt ∨ commandOf i = .decrypt →
    Accepted s p (commandOf i) i.ctx → p.len = 0 →
    exec i s = .next (s.setPhase i.ctx (nextPhase (commandOf i)))

/-- 41_key_iv.md R142 item 3: a SETIV with the 12-byte all-zero IV on a slot as SETKEY leaves it changes nothing except PHASE[n]. -/
def Obligations.ZeroIvAfterSetkeyOnlyMovesThePhase : Prop :=
  ∀ (s : State) (p : Pending) (n : Nat), Accepted s p .setiv n → p.len = 12 →
    s.memRead p.src.toNat 12 = List.replicate 12 0 →
    (s.slot n).hash = 0 → (s.slot n).lens = 0 → (s.slot n).ctr = 1#128 → (s.slot n).phase = .keyed →
    exec (.setiv n) s = .next (s.setPhase n .ivready)

/-! ### Frames -/

/-- The frame of SETKEY, SETIV, AAD and TAG (41_key_iv.md R140 to R142, 42_process.md R160, 43_tag.md R180, 10_state.md R26, R52): they
store nothing in BUF and touch no other slot; only SETKEY writes KSTAT, KEYERR, KEY and CIPHST (and takes a free value, log 7); only
TAG writes TAGREG; AAD keeps CTR and DATABITS; TAG keeps every context field; a command other than SETKEY leaves the cache and REBUILDS as
they were or rebuilds once for its slot. -/
def Obligations.FrameOfCommandsThatStoreNothing : Prop :=
  ∀ (i : Instr) (s t : State), (commandOf i).writesBuf = false → exec i s = .next t →
    SameHostSide s t ∧ FaultRecordKept s t ∧
    (∀ m, m ≠ i.ctx → t.slot m = s.slot m) ∧
    (∀ a, t.bufByte a = s.bufByte a) ∧
    (commandOf i ≠ .setkey → CacheKeptOrRebuilt s t i.ctx ∧ t.kstat = s.kstat ∧ t.keyerr = s.keyerr ∧ t.freeCtr = s.freeCtr ∧
      (t.slot i.ctx).key = (s.slot i.ctx).key ∧ (t.slot i.ctx).ciphst = (s.slot i.ctx).ciphst) ∧
    (commandOf i ≠ .tag → t.tagreg = s.tagreg) ∧
    (commandOf i = .aad → (t.slot i.ctx).ctr = (s.slot i.ctx).ctr ∧
      Block.databits (t.slot i.ctx).lens = Block.databits (s.slot i.ctx).lens) ∧
    (commandOf i = .tag → (t.slot i.ctx).hash = (s.slot i.ctx).hash ∧ (t.slot i.ctx).lens = (s.slot i.ctx).lens ∧
      (t.slot i.ctx).ctr = (s.slot i.ctx).ctr)

/-- The frame of ENCRYPT and DECRYPT (42_process.md R161, R162): every byte of BUF outside BUF[dst .. dst+len−1] reads as before; no
other slot, no register and no flag changes but those of a recorded fault, and the cache and REBUILDS, which are as they were or rebuilt
once for the slot (40_field_algebra.md R115); of the slot KEY, CIPHST, AADBITS and the IV part are kept. -/
def Obligations.FrameOfEncryptAndDecrypt : Prop :=
  ∀ (i : Instr) (s t : State), (commandOf i).writesBuf = true → exec i s = .next t →
    SameHostSide s t ∧ FaultRecordKept s t ∧
    (∀ m, m ≠ i.ctx → t.slot m = s.slot m) ∧
    (∀ a, ¬(s.operands.dst.toNat ≤ a ∧ a < s.operands.dst.toNat + s.operands.len.toNat) → t.bufByte a = s.bufByte a) ∧
    CacheKeptOrRebuilt s t i.ctx ∧ t.kstat = s.kstat ∧ t.keyerr = s.keyerr ∧ t.freeCtr = s.freeCtr ∧ t.tagreg = s.tagreg ∧
    (t.slot i.ctx).key = (s.slot i.ctx).key ∧ (t.slot i.ctx).ciphst = (s.slot i.ctx).ciphst ∧
    Block.aadbits (t.slot i.ctx).lens = Block.aadbits (s.slot i.ctx).lens ∧
    Block.ivpart (t.slot i.ctx).ctr = Block.ivpart (s.slot i.ctx).ctr

/-- 70_reset_and_hazards.md R231, 40_field_algebra.md R115, 20_memory.md R75: when a command rebuilds the cache. A successful SETKEY always
does, a failed one never. A SETIV of 12 bytes and an empty AAD, ENCRYPT or DECRYPT never do; every other command rebuilds, once and for
its slot, exactly when the cache was not valid for the slot. Without a rebuild a command other than SETKEY keeps the cache. -/
def Obligations.CommandRebuildsAtMostOnce : Prop :=
  ∀ (i : Instr) (s t : State) (p : Pending), Accepted s p (commandOf i) i.ctx → exec i s = .next t →
    (commandOf i = .setkey →
      if t.keyerr = true then t.rebuilds = s.rebuilds
      else t.rebuilds = s.rebuilds + 1 ∧ t.cache.valid = true ∧ t.cache.tag.toNat = i.ctx) ∧
    (commandOf i ≠ .setkey →
      if (commandOf i = .setiv ∧ p.len = 12) ∨
          ((commandOf i = .aad ∨ commandOf i = .encrypt ∨ commandOf i = .decrypt) ∧ p.len = 0) ∨
          (s.cache.valid = true ∧ s.cache.tag.toNat = i.ctx)
      then t.rebuilds = s.rebuilds ∧ t.cache = s.cache
      else t.rebuilds = s.rebuilds + 1 ∧ t.cache = (s.rebuild i.ctx).cache ∧ t.cache.valid = true ∧ t.cache.tag.toNat = i.ctx)

/-! ### The host's transactions -/

/-- 60_exceptions.md R197, 20_memory.md R62, R66, R67: a transaction is answered BusError, with no effect, exactly when it is misaligned,
unmapped, or refused while BUSY; every other is accepted (R61, R68). That a CTRL write which resets the core is answered `ok` and keeps
`schedule` and the answers given is the model's reading, log 14. -/
def Obligations.BusErrorExactlyWhenRefused : Prop :=
  ∀ (s : State) (a : BitVec 17) (v : Word) (rest : List Turn),
    (s.schedule = .read32 a :: rest →
      if a.toNat % 4 ≠ 0 ∨ ¬ MappedOffset s.cfg a.toNat ∨ (s.pend ≠ none ∧ a.toNat ∉ [0x000, 0x004, 0x008, 0x00C])
      then step s = .next { s with schedule := rest, responses := .busError :: s.responses }
      else ∃ x, step s = .next { s with schedule := rest, responses := .data x :: s.responses }) ∧
    (s.schedule = .write32 a v :: rest →
      if a.toNat % 4 ≠ 0 ∨ ¬ MappedOffset s.cfg a.toNat ∨ (s.pend ≠ none ∧ a.toNat ∉ [0x008, 0x00C])
      then step s = .next { s with schedule := rest, responses := .busError :: s.responses }
      else ∃ t, step s = .next t ∧ t.schedule = rest ∧ t.responses = .ok :: s.responses)

/-- 20_memory.md R69: a Read32 changes no state of the core, and no other step changes any unless it is a host write, a sequencer step
with a command pending, or a reset. `schedule` and `responses` are the host's side (logs 1 and 8). -/
def Obligations.OnlyWritesStepsAndResetsChangeTheCore : Prop :=
  (∀ (s : State) (a : BitVec 17) (rest : List Turn), s.schedule = .read32 a :: rest →
    ∃ r, step s = .next { s with schedule := rest, responses := r :: s.responses }) ∧
  ∀ s t : State, step s = .next t → (∀ a v rest, s.schedule ≠ .write32 a v :: rest) → (∀ rest, s.schedule ≠ .rst :: rest) →
    (s.pend = none ∨ ∀ rest, ¬ SequencerTurn s rest) →
    t = { s with schedule := t.schedule, responses := t.responses }

/-- 20_memory.md R68: an accepted CMD write sets LASTCMD, clears DONE and latches the word and SRC, DST and LEN in PEND, whatever the
word. -/
def Obligations.CmdWriteLatchesTheCommand : Prop :=
  ∀ (s : State) (v : Word) (rest : List Turn), s.schedule = .write32 0x010 v :: rest → s.pend = none →
    step s = .next { s with
      schedule := rest, responses := .ok :: s.responses, lastcmd := v, done := false,
      pend := some { word := v, src := s.src, dst := s.dst, len := s.len } }

/-- 20_memory.md R68, 10_state.md R38, R39, 60_exceptions.md R198: a CTRL write with SRST = 0 sets IE to bit 0; a STATUS write clears DONE
when bit 1 is 1 and does nothing else; both also while BUSY = 1. irq is IE and DONE in every state, so it follows at once: it is low after
a STATUS write with bit 1 = 1. -/
def Obligations.ControlWritesSetEnableAndClearDone : Prop :=
  (∀ s : State, s.irq = (s.ie && s.done)) ∧
  ∀ (s : State) (v : Word) (rest : List Turn),
    (s.schedule = .write32 0x008 v :: rest → v.getLsbD 1 = false →
      step s = .next { s with schedule := rest, responses := .ok :: s.responses, ie := v.getLsbD 0 }) ∧
    (s.schedule = .write32 0x00C v :: rest →
      ∃ t, step s = .next t ∧
        t = { s with schedule := rest, responses := .ok :: s.responses, done := s.done && !v.getLsbD 1 } ∧
        (v.getLsbD 1 = true → t.irq = false))

/-- 10_state.md R41 to R43: SRC, DST and LEN take every 32-bit value written and read it back, while BUSY = 0. -/
def Obligations.OperandRegistersHoldWhatIsWritten : Prop :=
  ∀ (s : State) (v : Word) (rest : List Turn), s.pend = none →
    step { s with schedule := .write32 0x014 v :: rest } =
      .next { s with schedule := rest, responses := .ok :: s.responses, src := v } ∧
    step { s with schedule := .write32 0x018 v :: rest } =
      .next { s with schedule := rest, responses := .ok :: s.responses, dst := v } ∧
    step { s with schedule := .write32 0x01C v :: rest } =
      .next { s with schedule := rest, responses := .ok :: s.responses, len := v } ∧
    ReadsAs s 0x014 s.src ∧ ReadsAs s 0x018 s.dst ∧ ReadsAs s 0x01C s.len

/-- 20_memory.md R66: a write to a read-only register is accepted and ignored while BUSY = 0. -/
def Obligations.ReadOnlyRegistersIgnoreWrites : Prop :=
  ∀ (s : State) (a : BitVec 17) (v : Word) (rest : List Turn), s.schedule = .write32 a v :: rest → s.pend = none →
    a.toNat ∈ [0x000, 0x004, 0x020, 0x024, 0x028, 0x02C, 0x030, 0x040, 0x044, 0x048, 0x04C] ∨
      (a.toNat % 4 = 0 ∧ 0x200 ≤ a.toNat ∧ a.toNat ≤ 0x200 + 64 * s.cfg.nctx - 4) →
    step s = .next { s with schedule := rest, responses := .ok :: s.responses }

/-- 10_state.md R36 to R39, R45, R46: the registers a read returns field by field: ID, CFG, CTRL and STATUS in every state; PHASE and
CACHE while BUSY = 0. The codes of CAUSE are those of 60_exceptions.md R191, the codes of PHASE those of 10_state.md R28. -/
def Obligations.StatusRegistersReadTheirFields : Prop :=
  ∀ s : State,
    ReadsAs s 0x000 0x47434D31 ∧
    (∃ v, ReadsAs s 0x004 v ∧ v.toNat = s.cfg.nctx + 256 * s.cfg.log2Buf) ∧
    (∃ v, ReadsAs s 0x008 v ∧ v.toNat = s.ie.toNat) ∧
    (∃ v code, ReadsAs s 0x00C v ∧
      (s.cause, code) ∈ [(Cause.none, 0), (Cause.illegalOp, 1), (Cause.reservedField, 2), (Cause.badSlot, 3), (Cause.sequence, 4),
        (Cause.bounds, 5), (Cause.overlap, 6)] ∧
      v.toNat = s.pend.isSome.toNat + 2 * s.done.toNat + 4 * s.fault.toNat + 8 * s.keyerr.toNat + 256 * code) ∧
    (s.pend = none →
      (∃ v, ReadsAs s 0x024 v ∧ ∀ n, n < 8 →
        if n < s.cfg.nctx then
          ((s.slot n).phase, (v.extractLsb' (4 * n) 4).toNat) ∈ [(Phase.uninit, 0), (Phase.keyed, 1), (Phase.ivready, 2), (Phase.aad, 3),
            (Phase.data, 4), (Phase.tagged, 5)]
        else v.extractLsb' (4 * n) 4 = 0) ∧
      (∃ v, ReadsAs s 0x028 v ∧ v.toNat = s.cache.tag.toNat + 256 * s.cache.valid.toNat))

/-- 10_state.md R40, R44, R47 to R49: LASTCMD, KSTAT, REBUILDS, FAULTCMD and TAG0 to TAG3 as read while BUSY = 0; TAGw is word w of
TAGREG, big-endian. -/
def Obligations.ResultRegistersReadTheirValues : Prop :=
  ∀ s : State, s.pend = none →
    ReadsAs s 0x010 s.lastcmd ∧ ReadsAs s 0x020 (BitVec.setWidth 32 s.kstat) ∧ ReadsAs s 0x02C s.rebuilds ∧
    ReadsAs s 0x030 s.faultcmd ∧
    ∀ w, w < 4 → ReadsAs s (BitVec.ofNat 17 (0x040 + 4 * w))
      (Block.byte s.tagreg (4 * w) ++ Block.byte s.tagreg (4 * w + 1) ++
        Block.byte s.tagreg (4 * w + 2) ++ Block.byte s.tagreg (4 * w + 3))

/-- 10_state.md R50: word w of slot n in the context window reads bytes 4w to 4w+3 of CTX[n], big-endian, and ignores writes; with the
layout of R22, HASH, LENS, CTR and KEY are words 0 to 3, 4 to 7, 8 to 11 and 12 to 15. -/
def Obligations.ContextWindowReadsTheSlotBytes : Prop :=
  ∀ (s : State) (n w : Nat), s.pend = none → n < s.cfg.nctx → w < 16 →
    ReadsAs s (BitVec.ofNat 17 (0x200 + 64 * n + 4 * w))
      ((s.slot n).bytes.getD (4 * w) 0 ++ (s.slot n).bytes.getD (4 * w + 1) 0 ++
        (s.slot n).bytes.getD (4 * w + 2) 0 ++ (s.slot n).bytes.getD (4 * w + 3) 0) ∧
    ∀ v rest, step { s with schedule := .write32 (BitVec.ofNat 17 (0x200 + 64 * n + 4 * w)) v :: rest } =
      .next { s with schedule := rest, responses := .ok :: s.responses }

/-- 10_state.md R51: a write of v to the buffer window sets the four bytes, bits 31:24 at the lowest offset, and nothing else; a read
returns the four bytes in the same order. -/
def Obligations.BufferWindowIsBigEndian : Prop :=
  ∀ (s : State) (a : Nat) (v : Word) (rest : List Turn), s.pend = none → a % 4 = 0 → a < s.cfg.bufSize →
    ReadsAs s (BitVec.ofNat 17 (0x10000 + a)) (s.bufByte a ++ s.bufByte (a + 1) ++ s.bufByte (a + 2) ++ s.bufByte (a + 3)) ∧
    ∃ t, step { s with schedule := .write32 (BitVec.ofNat 17 (0x10000 + a)) v :: rest } = .next t ∧
      t = { s with schedule := rest, responses := .ok :: s.responses, buf := t.buf } ∧
      t.bufByte a = v.extractLsb' 24 8 ∧ t.bufByte (a + 1) = v.extractLsb' 16 8 ∧
      t.bufByte (a + 2) = v.extractLsb' 8 8 ∧ t.bufByte (a + 3) = v.extractLsb' 0 8 ∧
      ∀ x, ¬(a ≤ x ∧ x < a + 4) → t.bufByte x = s.bufByte x

/-! ### Resets -/

/-- 70_reset_and_hazards.md R220, R221: the state after power-on, for every configuration. -/
def Obligations.PowerOnStateIsTheResetState : Prop :=
  ∀ p : Params, ResetValues (State.powerOn p)

/-- 70_reset_and_hazards.md R220, R221: rst resets the core in every state; the parameters are not state (10_state.md R21). That it keeps
`schedule` and `responses`, the host's side, is the model's reading, log 14. -/
def Obligations.HardwareResetSetsTheResetValues : Prop :=
  ∀ (s : State) (rest : List Turn), s.schedule = .rst :: rest →
    ∃ t, step s = .next t ∧ ResetValues t ∧ t.cfg = s.cfg ∧ t.schedule = rest ∧ t.responses = s.responses

/-- 70_reset_and_hazards.md R222, R223: a soft reset, in every state, sets the reset values and keeps every byte of BUF outside the output
range of a pending ENCRYPT or DECRYPT. That the write is answered `ok` and that `schedule` and the answers given are kept is the model's
reading, log 14. -/
def Obligations.SoftResetKeepsTheBuffer : Prop :=
  ∀ (s : State) (v : Word) (rest : List Turn), s.schedule = .write32 0x008 v :: rest → v.getLsbD 1 = true →
    ∃ t, step s = .next t ∧ ResetValues t ∧ t.cfg = s.cfg ∧ t.schedule = rest ∧ t.responses = .ok :: s.responses ∧
      ∀ a, (∀ p, s.pend = some p → (p.word.toNat % 16 = 4 ∨ p.word.toNat % 16 = 5) →
          ¬(p.dst.toNat ≤ a ∧ a < p.dst.toNat + p.len.toNat ∧ a < s.cfg.bufSize)) →
        t.bufByte a = s.bufByte a

/-! ### Invariants and whole-machine rules -/

/-- Every step keeps the invariant: BUF in canonical form and inside BUF_SIZE, the cache that of the tagged key (10_state.md R32), keyed
slots with KEY = E(n, 0^16), unkeyed ones zero, the fault record, KEYERR and KSTAT, and PEND in step with the registers. -/
def Obligations.StepKeepsInvariant : Prop :=
  ∀ s t : State, Inv s → step s = .next t → Inv t

/-- The invariant holds after reset. -/
def Obligations.ResetMeetsInvariant : Prop := Inv State.reset

/-- 10_state.md R26: only SETKEY writes KEY, apart from a reset. -/
def Obligations.OnlySetkeyWritesTheHashKey : Prop :=
  ∀ (s t : State) (n : Nat), step s = .next t → (t.slot n).key ≠ (s.slot n).key →
    ResetTurn s ∨ ∃ p rest ciph, s.pend = some p ∧ SequencerTurn s rest ∧ decode p.word = .ok (.setkey n ciph)

/-- 60_exceptions.md R194: only a reset clears FAULT, and until then CAUSE, FAULTCMD, TAGREG and every slot keep their values. -/
def Obligations.OnlyAResetLeavesTheFaultState : Prop :=
  ∀ s t : State, s.fault = true → step s = .next t → ¬ ResetTurn s →
    t.fault = true ∧ t.cause = s.cause ∧ t.faultcmd = s.faultcmd ∧ t.tagreg = s.tagreg ∧ ∀ n, t.slot n = s.slot n

/-- 60_exceptions.md R199: DONE and irq change only at step ends, at host writes and at resets. -/
def Obligations.DoneAndIrqChangeOnlyAtStepsWritesAndResets : Prop :=
  ∀ s t : State, step s = .next t → t.done ≠ s.done ∨ t.irq ≠ s.irq →
    (∃ p rest, s.pend = some p ∧ SequencerTurn s rest) ∨ (∃ a v rest, s.schedule = .write32 a v :: rest) ∨
      ∃ rest, s.schedule = .rst :: rest

/-- 43_tag.md R181 item 4, 41_key_iv.md R142 item 4: the tag depends on the slot only through its context fields and its cipher state,
not on the slot's number, any other slot or what the cache holds. -/
def Obligations.TagDependsOnlyOnItsSlot : Prop :=
  ∀ (s s' t t' : State) (p p' : Pending) (n n' : Nat), CacheOk s → CacheOk s' →
    Accepted s p .tag n → Accepted s' p' .tag n' →
    (s'.slot n').hash = (s.slot n).hash → (s'.slot n').lens = (s.slot n).lens → (s'.slot n').ctr = (s.slot n).ctr →
    (s'.slot n').key = (s.slot n).key → (s'.slot n').ciphst = (s.slot n).ciphst →
    exec (.tag n) s = .next t → exec (.tag n') s' = .next t' → t'.tagreg = t.tagreg

/-- 43_tag.md R181 item 1: a TAG repeated on a slot that has not changed since the first one gives the same tag, whatever the cache has
held in between. -/
def Obligations.RepeatedTagGivesTheSameTag : Prop :=
  ∀ (s t u v : State) (p p' : Pending) (n : Nat), CacheOk s → CacheOk u → Accepted s p .tag n → exec (.tag n) s = .next t →
    u.slot n = t.slot n → Accepted u p' .tag n → exec (.tag n) u = .next v → v.tagreg = t.tagreg ∧ v.slot n = t.slot n

/-- 42_process.md R164 items 1 and 2: DECRYPT of an ENCRYPT's output from an equal slot recovers the plaintext and leaves the same slot,
so the tag that follows is the same. -/
def Obligations.DecryptUndoesEncrypt : Prop :=
  ∀ (s s' t t' : State) (p p' : Pending) (n n' : Nat), CacheOk s → CacheOk s' →
    Accepted s p .encrypt n → Accepted s' p' .decrypt n' → s'.slot n' = s.slot n → p'.len = p.len →
    exec (.encrypt n) s = .next t →
    s'.memRead p'.src.toNat p.len.toNat = t.memRead p.dst.toNat p.len.toNat →
    exec (.decrypt n') s' = .next t' →
    t'.memRead p'.dst.toNat p.len.toNat = s.memRead p.src.toNat p.len.toNat ∧ t'.slot n' = t.slot n

/-- 42_process.md R163: an AAD, ENCRYPT or DECRYPT split in two, the first part a multiple of 16 bytes long, ends in the same state as the
one command, but for PEND. -/
def Obligations.SplitAtAMultipleOfSixteenChangesNothing : Prop :=
  ∀ (i : Instr) (s : State) (p : Pending) (a b : Nat),
    commandOf i = .aad ∨ commandOf i = .encrypt ∨ commandOf i = .decrypt →
    Accepted s p (commandOf i) i.ctx → p.len.toNat = a + b → a % 16 = 0 →
    ∃ t t₁ t₂, exec i s = .next t ∧
      exec i { s with pend := some { p with len := BitVec.ofNat 32 a } } = .next t₁ ∧
      exec i { t₁ with pend := some { p with
        src := p.src + BitVec.ofNat 32 a, dst := p.dst + BitVec.ofNat 32 a, len := BitVec.ofNat 32 b } } = .next t₂ ∧
      { t₂ with pend := t.pend } = t

/-- 70_reset_and_hazards.md R227: a payload command on a message whose DATABITS is a multiple of 128 leaves the rewound counter of TAG
where it was. -/
def Obligations.PayloadKeepsTheRewoundCounter : Prop :=
  ∀ (i : Instr) (s t : State) (p : Pending), commandOf i = .encrypt ∨ commandOf i = .decrypt →
    Accepted s p (commandOf i) i.ctx → (Block.databits (s.slot i.ctx).lens).toNat % 128 = 0 → exec i s = .next t →
    initialCounter (t.slot i.ctx) = initialCounter (s.slot i.ctx)

/-- 43_tag.md R181 item 2, for one AAD and one ENCRYPT command: from a slot at the start of a message with counter J0, AAD over A, ENCRYPT
and TAG give the standard's tag `GHASH(H, A, C) ⊕ E(J0)`, C the ciphertext in BUF. -/
def Obligations.MessageTagIsTheStandardTag : Prop :=
  ∀ (s : State) (n : Nat) (srcA lenA src dst len : Word), CacheOk s → s.fault = false → n < s.cfg.nctx →
    (s.slot n).phase = .ivready → (s.slot n).hash = 0 → (s.slot n).lens = 0 →
    srcA.toNat + lenA.toNat ≤ s.cfg.bufSize → src.toNat + len.toNat ≤ s.cfg.bufSize →
    dst.toNat + len.toNat ≤ s.cfg.bufSize →
    (src = dst ∨ src.toNat + len.toNat ≤ dst.toNat ∨ dst.toNat + len.toNat ≤ src.toNat) →
    ∃ t₁ t₂ t₃, perform (.aad n) srcA 0 lenA s = .next t₁ ∧ perform (.encrypt n) src dst len t₁ = .next t₂ ∧
      perform (.tag n) 0 0 0 t₂ = .next t₃ ∧
      t₃.tagreg = ghash (s.slot n).key (s.memRead srcA.toNat lenA.toNat) (t₂.memRead dst.toNat len.toNat) ^^^
        Config.cipher.enc (s.slot n).ciphst (s.slot n).ctr

/-! ### The field datapath -/

/-- 40_field_algebra.md R111: byte k of MulX(V) is `(V[k] >> 1) | (V[k-1] & 1) << 7`, byte 0 also XORed with 0xE1 when the bit shifted
out of byte 15 is 1; the result is V multiplied by x modulo the field polynomial. -/
def Obligations.MulXMultipliesByX : Prop :=
  ∀ v : Block,
    Block.byte (mulX v) 0 = (Block.byte v 0 >>> 1) ^^^ (if (Block.byte v 15).getLsbD 0 then 0xE1 else 0) ∧
    (∀ k, 1 ≤ k → k < 16 → Block.byte (mulX v) k = (Block.byte v k >>> 1) ||| ((Block.byte v (k - 1) &&& 1) <<< 7)) ∧
    poly (mulX v) = (poly v * Polynomial.X) %ₘ fieldPoly

/-- 40_field_algebra.md R110: the shift-and-add product is the product of the field. -/
def Obligations.ShiftAndAddIsTheFieldProduct : Prop :=
  ∀ x y : Block, IsProduct x y (gmul x y)

/-- 40_field_algebra.md R112, R122: Rebuild leaves `M[b] = p8(b)•KEY` for every b and in R[b] the coefficients x^0 to x^15 of
`p8(b)·x^128 mod P`, coefficient x^m at bit 15−m, the one of x^15 always 0, whatever the tables held and whatever the key (for R). It
tags the cache with the slot, sets it valid, counts the rebuild, and writes nothing else. -/
def Obligations.RebuildBuildsBothTables : Prop :=
  ∀ (s : State) (n : Nat), n < 8 →
    (∀ b : Byte, poly ((s.rebuild n).cache.mAt b) = (p8 b * poly (s.slot n).key) %ₘ fieldPoly ∧
      poly ((s.rebuild n).cache.rAt b ++ 0#112) = (p8 b * Polynomial.X ^ 128) %ₘ fieldPoly ∧
      ((s.rebuild n).cache.rAt b).getLsbD 0 = false) ∧
    (s.rebuild n).cache.valid = true ∧ (s.rebuild n).cache.tag.toNat = n ∧
    s.rebuild n = { s with cache := (s.rebuild n).cache, rebuilds := s.rebuilds + 1 }

/-- 40_field_algebra.md R113: MulX8 shifts the Block right by one byte and XORs R of the byte shifted out into bytes 0 and 1, whatever R
holds; with the tables built, that is the product with x^8 and equals eight applications of MulX. -/
def Obligations.MulX8IsEightMulX : Prop :=
  (∀ (c : Cache) (v : Block),
    Block.byte (c.mulX8 v) 0 = (c.rAt (Block.byte v 15)).extractLsb' 8 8 ∧
    Block.byte (c.mulX8 v) 1 = Block.byte v 0 ^^^ (c.rAt (Block.byte v 15)).extractLsb' 0 8 ∧
    ∀ k, 2 ≤ k → k < 16 → Block.byte (c.mulX8 v) k = Block.byte v (k - 1)) ∧
  ∀ (hk : Block) (n : Nat) (c : Cache) (v : Block),
    (Cache.build hk n c).mulX8 v = xTimes 8 v ∧
    poly ((Cache.build hk n c).mulX8 v) = (poly v * Polynomial.X ^ 8) %ₘ fieldPoly

/-- 40_field_algebra.md R121: MulH(n, X) is the field product of X and the slot's hash key, whatever slot the cache was built for. -/
def Obligations.MulHIsTheFieldProduct : Prop :=
  ∀ (s : State) (n : Nat) (x : Block), CacheOk s → n < s.cfg.nctx → IsProduct x (s.slot n).key (s.mulH n x)

/-- 40_field_algebra.md R118: HashFold is the product of HASH ⊕ Lb, Lb the length block `be64(AADBITS) ‖ be64(DATABITS)`, which is LENS,
with the hash key; it is 0^16 for a zero HASH and zero counts, and it writes no slot. -/
def Obligations.HashFoldIsOneMoreProduct : Prop :=
  ∀ (s : State) (n : Nat), CacheOk s → n < s.cfg.nctx →
    IsProduct ((s.slot n).hash ^^^ Block.ofLengths (Block.aadbits (s.slot n).lens) (Block.databits (s.slot n).lens))
      (s.slot n).key (s.hashFold n) ∧
    Block.ofLengths (Block.aadbits (s.slot n).lens) (Block.databits (s.slot n).lens) = (s.slot n).lens ∧
    ((s.slot n).hash = 0 → (s.slot n).lens = 0 → s.hashFold n = 0) ∧
    ∀ m, (s.ensureCache n).slot m = s.slot m

/-- 40_field_algebra.md R119: the suffix offset by −ceil(DATABITS/128) modulo 2^32, the IV part kept; the derived form of the block count;
and the rule's own examples. -/
def Obligations.InitialCounterRewindsThePayloadBlocks : Prop :=
  (∀ v : Slot, Block.ivpart (initialCounter v) = Block.ivpart v.ctr ∧
    ((Block.suffix (initialCounter v)).toNat + ((Block.databits v.lens).toNat + 127) / 128) % 2 ^ 32 =
      (Block.suffix v.ctr).toNat) ∧
  (∀ d : BitVec 64, payloadBlocks d = -BitVec.ofNat 32 ((2 ^ 64 - d.toNat) % 2 ^ 64 / 128)) ∧
  payloadBlocks 0 = 0 ∧ payloadBlocks 8 = 1 ∧ payloadBlocks 128 = 1 ∧ payloadBlocks 136 = 2 ∧
    payloadBlocks (BitVec.ofNat 64 (2 ^ 64 - 8)) = 0

/-- 40_field_algebra.md R116: Inc32 adds 1 to the suffix modulo 2^32 and leaves the IV part. -/
def Obligations.IncrementIsConfinedToTheSuffix : Prop :=
  ∀ c : Block, Block.suffix (inc32 c) = Block.suffix c + 1 ∧ Block.ivpart (inc32 c) = Block.ivpart c

/-- 40_field_algebra.md R114: lane i of XorPrefix is A[i] ⊕ F[i] below the length of F and A[i] above; KsXor has the length of F and its
lane i is F[i] ⊕ KS[i]. XorPrefix is the sum with F zero-padded. -/
def Obligations.ByteLanesAreIndependent : Prop :=
  ∀ (a ks : Block) (f : List Byte), f.length ≤ 16 →
    (∀ i, i < 16 → Block.byte (xorPrefix a f) i = if i < f.length then Block.byte a i ^^^ f.getD i 0 else Block.byte a i) ∧
    xorPrefix a f = a ^^^ Block.ofBytes (f ++ List.replicate (16 - f.length) 0) ∧
    (ksXor f ks).length = f.length ∧
    ∀ i, i < f.length → (ksXor f ks).getD i 0 = f.getD i 0 ^^^ Block.byte ks i
end

