-- ==== Sys2Proof/Laws/Blocks.lean ====
section
/-!
SUPPORT. Blocks and their views (00_scope.md R11, 40_field_algebra.md R114): bytes, counter view, length-pair view, words.
-/

namespace Sys2Proof.Machine

/-! ### Bytes -/

/-- Bit j of a Block made of lanes. -/
theorem getLsbD_ofLanes (f : Nat → Byte) (j : Nat) (hj : j < 128) :
    (Block.ofLanes f).getLsbD j = (f (15 - j / 8)).getLsbD (j % 8) := by
  have key : ∀ {w} (x : BitVec w) (y : Byte) (q r : Nat), r < 8 → (x ++ y).getLsbD (8 * q + r) =
      if q = 0 then y.getLsbD r else x.getLsbD (8 * (q - 1) + r) := by
    intro w x y q r hr
    rw [BitVec.getLsbD_append]
    by_cases hq : q = 0
    · subst hq; simp [hr]
    · rw [if_neg hq, if_neg (by omega)]; congr 1; omega
  obtain ⟨q, r, rfl, hr⟩ : ∃ q r, j = 8 * q + r ∧ r < 8 := ⟨j / 8, j % 8, by omega, by omega⟩
  rw [show (8 * q + r) / 8 = q by omega, show (8 * q + r) % 8 = r by omega]
  have hq : q < 16 := by omega
  unfold Block.ofLanes
  refine (key _ _ q r hr).trans ?_
  rw [key, key, key, key, key, key, key, key, key, key, key, key, key, key] <;> try exact hr
  interval_cases q <;> simp

/-- Lane k is byte k. -/
theorem byte_ofLanes (f : Nat → Byte) (k : Nat) (hk : k < 16) : Block.byte (Block.ofLanes f) k = f k := by
  apply BitVec.eq_of_getLsbD_eq
  intro i hi
  rw [Block.byte, BitVec.getLsbD_extractLsb', getLsbD_ofLanes _ _ (by omega), show 15 - (8 * (15 - k) + i) / 8 = k by omega,
    show (8 * (15 - k) + i) % 8 = i by omega]
  simp [hi]

/-- Two Blocks with the same bytes are equal. -/
theorem ext_byte {a b : Block} (h : ∀ k, k < 16 → Block.byte a k = Block.byte b k) : a = b := by
  apply BitVec.eq_of_getLsbD_eq
  intro i hi
  have := congrArg (fun x => x.getLsbD (i % 8)) (h (15 - i / 8) (by omega))
  simp only [Block.byte, BitVec.getLsbD_extractLsb', show i % 8 < 8 by omega, decide_true, Bool.true_and] at this
  rwa [show 8 * (15 - (15 - i / 8)) + i % 8 = i by omega] at this

/-- The bytes of a counter block with a new suffix. -/
theorem byte_ofCounter_ivpart (b : Block) (x : Word) (k : Nat) (hk : k < 16) :
    Block.byte (Block.ofCounter (Block.ivpart b) x) k =
      if k < 12 then Block.byte b k else x.extractLsb' (8 * (15 - k)) 8 := by
  apply BitVec.eq_of_getLsbD_eq
  intro i hi
  simp only [Block.byte, BitVec.getLsbD_extractLsb', Block.ofCounter]
  rw [show ∀ j, BitVec.getLsbD (w := 128) (Block.ivpart b ++ x) j = _ from fun j => BitVec.getLsbD_append]
  by_cases h : k < 12
  · rw [if_neg (by omega), if_pos h, Block.ivpart, BitVec.getLsbD_extractLsb', BitVec.getLsbD_extractLsb']
    simp [hi, show 32 + (8 * (15 - k) + i - 32) = 8 * (15 - k) + i by omega]; omega
  · rw [if_pos (by omega), if_neg h, BitVec.getLsbD_extractLsb']

/-- A 12-byte IV in the IV part beside the suffix 1 is `IV ‖ be32(1)` (41_key_iv.md R141). -/
theorem ofBytes_iv (L : List Byte) (h : L.length = 12) :
    Block.ofCounter (Block.ivpart (Block.ofBytes L)) 1 = Block.ofBytes (L ++ [0, 0, 0, 1]) := by
  apply ext_byte
  intro k hk
  rw [byte_ofCounter_ivpart _ _ _ hk, Block.ofBytes, Block.ofBytes, byte_ofLanes _ _ hk, byte_ofLanes _ _ hk]
  split
  · rw [List.getD_append _ _ _ _ (by omega)]
  · rw [List.getD_append_right _ _ _ _ (by omega), h]
    have : k = 12 ∨ k = 13 ∨ k = 14 ∨ k = 15 := by omega
    rcases this with rfl | rfl | rfl | rfl <;> decide

theorem getD_toBytes (b : Block) (i : Nat) (h : i < 16) : (Block.toBytes b).getD i 0 = Block.byte b i := by
  simp [Block.toBytes, List.getD, h]

theorem getD_ksXor (f : List Byte) (ks : Block) (i : Nat) (h : i < f.length) (h16 : i < 16) :
    (ksXor f ks).getD i 0 = f.getD i 0 ^^^ Block.byte ks i := by
  have h2 : i < (Block.toBytes ks).length := by simpa [Block.toBytes] using h16
  rw [← getD_toBytes ks i h16]
  simp [ksXor, List.getD, List.getElem?_zipWith, List.getElem?_eq_getElem h, List.getElem?_eq_getElem h2]

theorem ofBytes_congr {f g : List Byte} (h : ∀ i, i < 16 → f.getD i 0 = g.getD i 0) : Block.ofBytes f = Block.ofBytes g := by
  simp only [Block.ofBytes, Block.ofLanes]
  rw [h 0 (by omega), h 1 (by omega), h 2 (by omega), h 3 (by omega), h 4 (by omega), h 5 (by omega), h 6 (by omega),
    h 7 (by omega), h 8 (by omega), h 9 (by omega), h 10 (by omega), h 11 (by omega), h 12 (by omega), h 13 (by omega),
    h 14 (by omega), h 15 (by omega)]

/-! ### The counter -/

@[simp] theorem ivpart_ofCounter (iv : BitVec 96) (x : Word) : Block.ivpart (Block.ofCounter iv x) = iv := by
  ext i hi
  simp only [Block.ivpart, Block.ofCounter, BitVec.getElem_extractLsb']
  exact BitVec.getLsbD_append.trans (by simp [hi])

@[simp] theorem suffix_ofCounter (iv : BitVec 96) (x : Word) : Block.suffix (Block.ofCounter iv x) = x := by
  ext i hi
  simp only [Block.suffix, Block.ofCounter, BitVec.getElem_extractLsb']
  exact BitVec.getLsbD_append.trans (by simp [hi])

@[simp] theorem ofCounter_parts (b : Block) : Block.ofCounter (Block.ivpart b) (Block.suffix b) = b := by
  simp only [Block.ivpart, Block.suffix, Block.ofCounter]
  ext i hi
  simp only [BitVec.getElem_append, BitVec.getElem_extractLsb']
  split
  · simp [← BitVec.getLsbD_eq_getElem]
  · simp [← BitVec.getLsbD_eq_getElem]; congr 1; omega

theorem counterAt_zero (b : Block) : counterAt b 0 = b := by simp [counterAt]

theorem inc32_eq (b : Block) : inc32 b = counterAt b 1 := rfl

theorem counterAt_add (b : Block) (i j : Nat) : counterAt (counterAt b i) j = counterAt b (i + j) := by
  simp only [counterAt, ivpart_ofCounter, suffix_ofCounter, BitVec.ofNat_add, BitVec.add_assoc]

/-! ### The length-pair view -/

@[simp] theorem ofLengths_parts (b : Block) : Block.ofLengths (Block.aadbits b) (Block.databits b) = b := by
  simp only [Block.aadbits, Block.databits, Block.ofLengths]
  ext i hi
  simp only [BitVec.getElem_append, BitVec.getElem_extractLsb']
  split
  · simp [← BitVec.getLsbD_eq_getElem]
  · simp [← BitVec.getLsbD_eq_getElem]; congr 1; omega

@[simp] theorem aadbits_ofLengths (a d : BitVec 64) : Block.aadbits (Block.ofLengths a d) = a := by
  simp only [Block.aadbits, Block.ofLengths]
  ext i hi
  rw [BitVec.getElem_extractLsb']
  exact BitVec.getLsbD_append.trans (by simp [hi])

@[simp] theorem databits_ofLengths (a d : BitVec 64) : Block.databits (Block.ofLengths a d) = d := by
  simp only [Block.databits, Block.ofLengths]
  ext i hi
  rw [BitVec.getElem_extractLsb']
  exact BitVec.getLsbD_append.trans (by simp [hi])

/-! ### Words -/

/-- `word(B, w)` is bytes 4w to 4w+3, big-endian (00_scope.md R11). -/
theorem word_bytes (b : Block) (w : Nat) (hw : w < 4) :
    Block.word b w = Block.byte b (4 * w) ++ Block.byte b (4 * w + 1) ++ Block.byte b (4 * w + 2) ++ Block.byte b (4 * w + 3) := by
      simp only [Block.word, Block.byte]
      apply BitVec.eq_of_getLsbD_eq
      intro i hi
      rw [BitVec.getLsbD_extractLsb']
      refine Eq.symm (BitVec.getLsbD_append.trans ?_)
      rw [show ∀ (x : BitVec 16) (y : Byte) j, BitVec.getLsbD (w := 24) (x ++ y) j = _ from fun x y j => BitVec.getLsbD_append]
      rw [show ∀ (x : BitVec 8) (y : Byte) j, BitVec.getLsbD (w := 16) (x ++ y) j = _ from fun x y j => BitVec.getLsbD_append]
      simp only [BitVec.getLsbD_extractLsb']
      split
      · simp [hi, show i < 8 by omega]; congr 1; omega
      · split
        · simp [hi, show i - 8 < 8 by omega]; congr 1; omega
        · split
          · simp [hi, show i - 8 - 8 < 8 by omega]; congr 1; omega
          · simp [hi, show i - 8 - 8 - 8 < 8 by omega]; congr 1; omega

/-- Byte i of a slot in the layout of 10_state.md R22. -/
theorem slot_bytes (v : Slot) (i : Nat) (hi : i < 64) :
    v.bytes.getD i 0 =
      if i < 16 then Block.byte v.hash i else if i < 32 then Block.byte v.lens (i - 16)
      else if i < 48 then Block.byte v.ctr (i - 32) else Block.byte v.key (i - 48) := by
  have hl : ∀ b, (Block.toBytes b).length = 16 := by intro b; simp [Block.toBytes]
  unfold Slot.bytes
  split
  · rw [List.getD_append _ _ _ _ (by simp [hl]; omega), List.getD_append _ _ _ _ (by simp [hl]; omega),
      List.getD_append _ _ _ _ (by simp [hl]; omega), getD_toBytes _ _ (by omega)]
  · split
    · rw [List.getD_append _ _ _ _ (by simp [hl]; omega), List.getD_append _ _ _ _ (by simp [hl]; omega),
        List.getD_append_right _ _ _ _ (by simp [hl]; omega), hl, getD_toBytes _ _ (by omega)]
    · split
      · rw [List.getD_append _ _ _ _ (by simp [hl]; omega), List.getD_append_right _ _ _ _ (by simp [hl]; omega)]
        rw [show i - (Block.toBytes v.hash ++ Block.toBytes v.lens).length = i - 32 by simp [hl], getD_toBytes _ _ (by omega)]
      · rw [List.getD_append_right _ _ _ _ (by simp [hl]; omega),
          show i - (Block.toBytes v.hash ++ Block.toBytes v.lens ++ Block.toBytes v.ctr).length = i - 48 by simp [hl],
          getD_toBytes _ _ (by omega)]

end Sys2Proof.Machine
end

