-- ==== Sys2Proof/Laws/State.lean ====
section
/-!
SUPPORT. One lemma per field for each named update of the state,
    so that no proof unfolds a record update; and the slots read back
after a slot is written.
-/

namespace Sys2Proof.Machine

@[simp] theorem State.setSlot_cfg (s : State) (n : Nat) (v : Slot) : (s.setSlot n v).cfg = s.cfg := rfl
@[simp] theorem State.setSlot_ie (s : State) (n : Nat) (v : Slot) : (s.setSlot n v).ie = s.ie := rfl
@[simp] theorem State.setSlot_done (s : State) (n : Nat) (v : Slot) : (s.setSlot n v).done = s.done := rfl
@[simp] theorem State.setSlot_fault (s : State) (n : Nat) (v : Slot) : (s.setSlot n v).fault = s.fault := rfl
@[simp] theorem State.setSlot_keyerr (s : State) (n : Nat) (v : Slot) : (s.setSlot n v).keyerr = s.keyerr := rfl
@[simp] theorem State.setSlot_cause (s : State) (n : Nat) (v : Slot) : (s.setSlot n v).cause = s.cause := rfl
@[simp] theorem State.setSlot_lastcmd (s : State) (n : Nat) (v : Slot) : (s.setSlot n v).lastcmd = s.lastcmd := rfl
@[simp] theorem State.setSlot_src (s : State) (n : Nat) (v : Slot) : (s.setSlot n v).src = s.src := rfl
@[simp] theorem State.setSlot_dst (s : State) (n : Nat) (v : Slot) : (s.setSlot n v).dst = s.dst := rfl
@[simp] theorem State.setSlot_len (s : State) (n : Nat) (v : Slot) : (s.setSlot n v).len = s.len := rfl
@[simp] theorem State.setSlot_kstat (s : State) (n : Nat) (v : Slot) : (s.setSlot n v).kstat = s.kstat := rfl
@[simp] theorem State.setSlot_faultcmd (s : State) (n : Nat) (v : Slot) : (s.setSlot n v).faultcmd = s.faultcmd := rfl
@[simp] theorem State.setSlot_tagreg (s : State) (n : Nat) (v : Slot) : (s.setSlot n v).tagreg = s.tagreg := rfl
@[simp] theorem State.setSlot_pend (s : State) (n : Nat) (v : Slot) : (s.setSlot n v).pend = s.pend := rfl
@[simp] theorem State.setSlot_cache (s : State) (n : Nat) (v : Slot) : (s.setSlot n v).cache = s.cache := rfl
@[simp] theorem State.setSlot_rebuilds (s : State) (n : Nat) (v : Slot) : (s.setSlot n v).rebuilds = s.rebuilds := rfl
@[simp] theorem State.setSlot_buf (s : State) (n : Nat) (v : Slot) : (s.setSlot n v).buf = s.buf := rfl
@[simp] theorem State.setSlot_bufEpoch (s : State) (n : Nat) (v : Slot) : (s.setSlot n v).bufEpoch = s.bufEpoch := rfl
@[simp] theorem State.setSlot_freeCtr (s : State) (n : Nat) (v : Slot) : (s.setSlot n v).freeCtr = s.freeCtr := rfl
@[simp] theorem State.setSlot_schedule (s : State) (n : Nat) (v : Slot) : (s.setSlot n v).schedule = s.schedule := rfl
@[simp] theorem State.setSlot_responses (s : State) (n : Nat) (v : Slot) : (s.setSlot n v).responses = s.responses := rfl

@[simp] theorem State.setPhase_cfg (s : State) (n : Nat) (p : Phase) : (s.setPhase n p).cfg = s.cfg := rfl
@[simp] theorem State.setPhase_ie (s : State) (n : Nat) (p : Phase) : (s.setPhase n p).ie = s.ie := rfl
@[simp] theorem State.setPhase_done (s : State) (n : Nat) (p : Phase) : (s.setPhase n p).done = s.done := rfl
@[simp] theorem State.setPhase_fault (s : State) (n : Nat) (p : Phase) : (s.setPhase n p).fault = s.fault := rfl
@[simp] theorem State.setPhase_keyerr (s : State) (n : Nat) (p : Phase) : (s.setPhase n p).keyerr = s.keyerr := rfl
@[simp] theorem State.setPhase_cause (s : State) (n : Nat) (p : Phase) : (s.setPhase n p).cause = s.cause := rfl
@[simp] theorem State.setPhase_lastcmd (s : State) (n : Nat) (p : Phase) : (s.setPhase n p).lastcmd = s.lastcmd := rfl
@[simp] theorem State.setPhase_src (s : State) (n : Nat) (p : Phase) : (s.setPhase n p).src = s.src := rfl
@[simp] theorem State.setPhase_dst (s : State) (n : Nat) (p : Phase) : (s.setPhase n p).dst = s.dst := rfl
@[simp] theorem State.setPhase_len (s : State) (n : Nat) (p : Phase) : (s.setPhase n p).len = s.len := rfl
@[simp] theorem State.setPhase_kstat (s : State) (n : Nat) (p : Phase) : (s.setPhase n p).kstat = s.kstat := rfl
@[simp] theorem State.setPhase_faultcmd (s : State) (n : Nat) (p : Phase) : (s.setPhase n p).faultcmd = s.faultcmd := rfl
@[simp] theorem State.setPhase_tagreg (s : State) (n : Nat) (p : Phase) : (s.setPhase n p).tagreg = s.tagreg := rfl
@[simp] theorem State.setPhase_pend (s : State) (n : Nat) (p : Phase) : (s.setPhase n p).pend = s.pend := rfl
@[simp] theorem State.setPhase_cache (s : State) (n : Nat) (p : Phase) : (s.setPhase n p).cache = s.cache := rfl
@[simp] theorem State.setPhase_rebuilds (s : State) (n : Nat) (p : Phase) : (s.setPhase n p).rebuilds = s.rebuilds := rfl
@[simp] theorem State.setPhase_buf (s : State) (n : Nat) (p : Phase) : (s.setPhase n p).buf = s.buf := rfl
@[simp] theorem State.setPhase_bufEpoch (s : State) (n : Nat) (p : Phase) : (s.setPhase n p).bufEpoch = s.bufEpoch := rfl
@[simp] theorem State.setPhase_freeCtr (s : State) (n : Nat) (p : Phase) : (s.setPhase n p).freeCtr = s.freeCtr := rfl
@[simp] theorem State.setPhase_schedule (s : State) (n : Nat) (p : Phase) : (s.setPhase n p).schedule = s.schedule := rfl
@[simp] theorem State.setPhase_responses (s : State) (n : Nat) (p : Phase) : (s.setPhase n p).responses = s.responses := rfl

@[simp] theorem State.memWrite_cfg (s : State) (a : Nat) (v : List Byte) : (s.memWrite a v).cfg = s.cfg := rfl
@[simp] theorem State.memWrite_ie (s : State) (a : Nat) (v : List Byte) : (s.memWrite a v).ie = s.ie := rfl
@[simp] theorem State.memWrite_done (s : State) (a : Nat) (v : List Byte) : (s.memWrite a v).done = s.done := rfl
@[simp] theorem State.memWrite_fault (s : State) (a : Nat) (v : List Byte) : (s.memWrite a v).fault = s.fault := rfl
@[simp] theorem State.memWrite_keyerr (s : State) (a : Nat) (v : List Byte) : (s.memWrite a v).keyerr = s.keyerr := rfl
@[simp] theorem State.memWrite_cause (s : State) (a : Nat) (v : List Byte) : (s.memWrite a v).cause = s.cause := rfl
@[simp] theorem State.memWrite_lastcmd (s : State) (a : Nat) (v : List Byte) : (s.memWrite a v).lastcmd = s.lastcmd := rfl
@[simp] theorem State.memWrite_src (s : State) (a : Nat) (v : List Byte) : (s.memWrite a v).src = s.src := rfl
@[simp] theorem State.memWrite_dst (s : State) (a : Nat) (v : List Byte) : (s.memWrite a v).dst = s.dst := rfl
@[simp] theorem State.memWrite_len (s : State) (a : Nat) (v : List Byte) : (s.memWrite a v).len = s.len := rfl
@[simp] theorem State.memWrite_kstat (s : State) (a : Nat) (v : List Byte) : (s.memWrite a v).kstat = s.kstat := rfl
@[simp] theorem State.memWrite_faultcmd (s : State) (a : Nat) (v : List Byte) : (s.memWrite a v).faultcmd = s.faultcmd := rfl
@[simp] theorem State.memWrite_tagreg (s : State) (a : Nat) (v : List Byte) : (s.memWrite a v).tagreg = s.tagreg := rfl
@[simp] theorem State.memWrite_pend (s : State) (a : Nat) (v : List Byte) : (s.memWrite a v).pend = s.pend := rfl
@[simp] theorem State.memWrite_ctx (s : State) (a : Nat) (v : List Byte) : (s.memWrite a v).ctx = s.ctx := rfl
@[simp] theorem State.memWrite_cache (s : State) (a : Nat) (v : List Byte) : (s.memWrite a v).cache = s.cache := rfl
@[simp] theorem State.memWrite_rebuilds (s : State) (a : Nat) (v : List Byte) : (s.memWrite a v).rebuilds = s.rebuilds := rfl
@[simp] theorem State.memWrite_bufEpoch (s : State) (a : Nat) (v : List Byte) : (s.memWrite a v).bufEpoch = s.bufEpoch := rfl
@[simp] theorem State.memWrite_freeCtr (s : State) (a : Nat) (v : List Byte) : (s.memWrite a v).freeCtr = s.freeCtr := rfl
@[simp] theorem State.memWrite_schedule (s : State) (a : Nat) (v : List Byte) : (s.memWrite a v).schedule = s.schedule := rfl
@[simp] theorem State.memWrite_responses (s : State) (a : Nat) (v : List Byte) : (s.memWrite a v).responses = s.responses := rfl

@[simp] theorem State.rebuild_cfg (s : State) (n : Nat) : (s.rebuild n).cfg = s.cfg := rfl
@[simp] theorem State.rebuild_ie (s : State) (n : Nat) : (s.rebuild n).ie = s.ie := rfl
@[simp] theorem State.rebuild_done (s : State) (n : Nat) : (s.rebuild n).done = s.done := rfl
@[simp] theorem State.rebuild_fault (s : State) (n : Nat) : (s.rebuild n).fault = s.fault := rfl
@[simp] theorem State.rebuild_keyerr (s : State) (n : Nat) : (s.rebuild n).keyerr = s.keyerr := rfl
@[simp] theorem State.rebuild_cause (s : State) (n : Nat) : (s.rebuild n).cause = s.cause := rfl
@[simp] theorem State.rebuild_lastcmd (s : State) (n : Nat) : (s.rebuild n).lastcmd = s.lastcmd := rfl
@[simp] theorem State.rebuild_src (s : State) (n : Nat) : (s.rebuild n).src = s.src := rfl
@[simp] theorem State.rebuild_dst (s : State) (n : Nat) : (s.rebuild n).dst = s.dst := rfl
@[simp] theorem State.rebuild_len (s : State) (n : Nat) : (s.rebuild n).len = s.len := rfl
@[simp] theorem State.rebuild_kstat (s : State) (n : Nat) : (s.rebuild n).kstat = s.kstat := rfl
@[simp] theorem State.rebuild_faultcmd (s : State) (n : Nat) : (s.rebuild n).faultcmd = s.faultcmd := rfl
@[simp] theorem State.rebuild_tagreg (s : State) (n : Nat) : (s.rebuild n).tagreg = s.tagreg := rfl
@[simp] theorem State.rebuild_pend (s : State) (n : Nat) : (s.rebuild n).pend = s.pend := rfl
@[simp] theorem State.rebuild_ctx (s : State) (n : Nat) : (s.rebuild n).ctx = s.ctx := rfl
@[simp] theorem State.rebuild_buf (s : State) (n : Nat) : (s.rebuild n).buf = s.buf := rfl
@[simp] theorem State.rebuild_bufEpoch (s : State) (n : Nat) : (s.rebuild n).bufEpoch = s.bufEpoch := rfl
@[simp] theorem State.rebuild_freeCtr (s : State) (n : Nat) : (s.rebuild n).freeCtr = s.freeCtr := rfl
@[simp] theorem State.rebuild_schedule (s : State) (n : Nat) : (s.rebuild n).schedule = s.schedule := rfl
@[simp] theorem State.rebuild_responses (s : State) (n : Nat) : (s.rebuild n).responses = s.responses := rfl

@[simp] theorem State.ensureCache_cfg (s : State) (n : Nat) : (s.ensureCache n).cfg = s.cfg :=
    by unfold State.ensureCache; split <;> rfl
@[simp] theorem State.ensureCache_ie (s : State) (n : Nat) : (s.ensureCache n).ie = s.ie :=
    by unfold State.ensureCache; split <;> rfl
@[simp] theorem State.ensureCache_done (s : State) (n : Nat) : (s.ensureCache n).done = s.done :=
    by unfold State.ensureCache; split <;> rfl
@[simp] theorem State.ensureCache_fault (s : State) (n : Nat) : (s.ensureCache n).fault = s.fault :=
    by unfold State.ensureCache; split <;> rfl
@[simp] theorem State.ensureCache_keyerr (s : State) (n : Nat) : (s.ensureCache n).keyerr = s.keyerr :=
    by unfold State.ensureCache; split <;> rfl
@[simp] theorem State.ensureCache_cause (s : State) (n : Nat) : (s.ensureCache n).cause = s.cause :=
    by unfold State.ensureCache; split <;> rfl
@[simp] theorem State.ensureCache_lastcmd (s : State) (n : Nat) : (s.ensureCache n).lastcmd = s.lastcmd :=
    by unfold State.ensureCache; split <;> rfl
@[simp] theorem State.ensureCache_src (s : State) (n : Nat) : (s.ensureCache n).src = s.src :=
    by unfold State.ensureCache; split <;> rfl
@[simp] theorem State.ensureCache_dst (s : State) (n : Nat) : (s.ensureCache n).dst = s.dst :=
    by unfold State.ensureCache; split <;> rfl
@[simp] theorem State.ensureCache_len (s : State) (n : Nat) : (s.ensureCache n).len = s.len :=
    by unfold State.ensureCache; split <;> rfl
@[simp] theorem State.ensureCache_kstat (s : State) (n : Nat) : (s.ensureCache n).kstat = s.kstat :=
    by unfold State.ensureCache; split <;> rfl
@[simp] theorem State.ensureCache_faultcmd (s : State) (n : Nat) : (s.ensureCache n).faultcmd = s.faultcmd :=
    by unfold State.ensureCache; split <;> rfl
@[simp] theorem State.ensureCache_tagreg (s : State) (n : Nat) : (s.ensureCache n).tagreg = s.tagreg :=
    by unfold State.ensureCache; split <;> rfl
@[simp] theorem State.ensureCache_pend (s : State) (n : Nat) : (s.ensureCache n).pend = s.pend :=
    by unfold State.ensureCache; split <;> rfl
@[simp] theorem State.ensureCache_ctx (s : State) (n : Nat) : (s.ensureCache n).ctx = s.ctx :=
    by unfold State.ensureCache; split <;> rfl
@[simp] theorem State.ensureCache_buf (s : State) (n : Nat) : (s.ensureCache n).buf = s.buf :=
    by unfold State.ensureCache; split <;> rfl
@[simp] theorem State.ensureCache_bufEpoch (s : State) (n : Nat) : (s.ensureCache n).bufEpoch = s.bufEpoch :=
    by unfold State.ensureCache; split <;> rfl
@[simp] theorem State.ensureCache_freeCtr (s : State) (n : Nat) : (s.ensureCache n).freeCtr = s.freeCtr :=
    by unfold State.ensureCache; split <;> rfl
@[simp] theorem State.ensureCache_schedule (s : State) (n : Nat) : (s.ensureCache n).schedule = s.schedule :=
    by unfold State.ensureCache; split <;> rfl
@[simp] theorem State.ensureCache_responses (s : State) (n : Nat) : (s.ensureCache n).responses = s.responses :=
    by unfold State.ensureCache; split <;> rfl

@[simp] theorem State.raiseFault_cfg (s : State) (c : Cause) : (s.raiseFault c).cfg = s.cfg := rfl
@[simp] theorem State.raiseFault_ie (s : State) (c : Cause) : (s.raiseFault c).ie = s.ie := rfl
@[simp] theorem State.raiseFault_done (s : State) (c : Cause) : (s.raiseFault c).done = s.done := rfl
@[simp] theorem State.raiseFault_keyerr (s : State) (c : Cause) : (s.raiseFault c).keyerr = s.keyerr := rfl
@[simp] theorem State.raiseFault_lastcmd (s : State) (c : Cause) : (s.raiseFault c).lastcmd = s.lastcmd := rfl
@[simp] theorem State.raiseFault_src (s : State) (c : Cause) : (s.raiseFault c).src = s.src := rfl
@[simp] theorem State.raiseFault_dst (s : State) (c : Cause) : (s.raiseFault c).dst = s.dst := rfl
@[simp] theorem State.raiseFault_len (s : State) (c : Cause) : (s.raiseFault c).len = s.len := rfl
@[simp] theorem State.raiseFault_kstat (s : State) (c : Cause) : (s.raiseFault c).kstat = s.kstat := rfl
@[simp] theorem State.raiseFault_tagreg (s : State) (c : Cause) : (s.raiseFault c).tagreg = s.tagreg := rfl
@[simp] theorem State.raiseFault_pend (s : State) (c : Cause) : (s.raiseFault c).pend = s.pend := rfl
@[simp] theorem State.raiseFault_ctx (s : State) (c : Cause) : (s.raiseFault c).ctx = s.ctx := rfl
@[simp] theorem State.raiseFault_cache (s : State) (c : Cause) : (s.raiseFault c).cache = s.cache := rfl
@[simp] theorem State.raiseFault_rebuilds (s : State) (c : Cause) : (s.raiseFault c).rebuilds = s.rebuilds := rfl
@[simp] theorem State.raiseFault_buf (s : State) (c : Cause) : (s.raiseFault c).buf = s.buf := rfl
@[simp] theorem State.raiseFault_bufEpoch (s : State) (c : Cause) : (s.raiseFault c).bufEpoch = s.bufEpoch := rfl
@[simp] theorem State.raiseFault_freeCtr (s : State) (c : Cause) : (s.raiseFault c).freeCtr = s.freeCtr := rfl
@[simp] theorem State.raiseFault_schedule (s : State) (c : Cause) : (s.raiseFault c).schedule = s.schedule := rfl
@[simp] theorem State.raiseFault_responses (s : State) (c : Cause) : (s.raiseFault c).responses = s.responses := rfl

@[simp] theorem State.finish_cfg (s : State) : s.finish.cfg = s.cfg := rfl
@[simp] theorem State.finish_ie (s : State) : s.finish.ie = s.ie := rfl
@[simp] theorem State.finish_fault (s : State) : s.finish.fault = s.fault := rfl
@[simp] theorem State.finish_keyerr (s : State) : s.finish.keyerr = s.keyerr := rfl
@[simp] theorem State.finish_cause (s : State) : s.finish.cause = s.cause := rfl
@[simp] theorem State.finish_lastcmd (s : State) : s.finish.lastcmd = s.lastcmd := rfl
@[simp] theorem State.finish_src (s : State) : s.finish.src = s.src := rfl
@[simp] theorem State.finish_dst (s : State) : s.finish.dst = s.dst := rfl
@[simp] theorem State.finish_len (s : State) : s.finish.len = s.len := rfl
@[simp] theorem State.finish_kstat (s : State) : s.finish.kstat = s.kstat := rfl
@[simp] theorem State.finish_faultcmd (s : State) : s.finish.faultcmd = s.faultcmd := rfl
@[simp] theorem State.finish_tagreg (s : State) : s.finish.tagreg = s.tagreg := rfl
@[simp] theorem State.finish_ctx (s : State) : s.finish.ctx = s.ctx := rfl
@[simp] theorem State.finish_cache (s : State) : s.finish.cache = s.cache := rfl
@[simp] theorem State.finish_rebuilds (s : State) : s.finish.rebuilds = s.rebuilds := rfl
@[simp] theorem State.finish_buf (s : State) : s.finish.buf = s.buf := rfl
@[simp] theorem State.finish_bufEpoch (s : State) : s.finish.bufEpoch = s.bufEpoch := rfl
@[simp] theorem State.finish_freeCtr (s : State) : s.finish.freeCtr = s.freeCtr := rfl
@[simp] theorem State.finish_schedule (s : State) : s.finish.schedule = s.schedule := rfl
@[simp] theorem State.finish_responses (s : State) : s.finish.responses = s.responses := rfl

@[simp] theorem State.countBits_cfg (s : State) (n : Nat) (m : Mode) (k : Nat) : (s.countBits n m k).cfg = s.cfg := rfl
@[simp] theorem State.countBits_ie (s : State) (n : Nat) (m : Mode) (k : Nat) : (s.countBits n m k).ie = s.ie := rfl
@[simp] theorem State.countBits_done (s : State) (n : Nat) (m : Mode) (k : Nat) : (s.countBits n m k).done = s.done := rfl
@[simp] theorem State.countBits_fault (s : State) (n : Nat) (m : Mode) (k : Nat) : (s.countBits n m k).fault = s.fault := rfl
@[simp] theorem State.countBits_keyerr (s : State) (n : Nat) (m : Mode) (k : Nat) : (s.countBits n m k).keyerr = s.keyerr := rfl
@[simp] theorem State.countBits_cause (s : State) (n : Nat) (m : Mode) (k : Nat) : (s.countBits n m k).cause = s.cause := rfl
@[simp] theorem State.countBits_lastcmd (s : State) (n : Nat) (m : Mode) (k : Nat) :
    (s.countBits n m k).lastcmd = s.lastcmd := rfl
@[simp] theorem State.countBits_src (s : State) (n : Nat) (m : Mode) (k : Nat) : (s.countBits n m k).src = s.src := rfl
@[simp] theorem State.countBits_dst (s : State) (n : Nat) (m : Mode) (k : Nat) : (s.countBits n m k).dst = s.dst := rfl
@[simp] theorem State.countBits_len (s : State) (n : Nat) (m : Mode) (k : Nat) : (s.countBits n m k).len = s.len := rfl
@[simp] theorem State.countBits_kstat (s : State) (n : Nat) (m : Mode) (k : Nat) : (s.countBits n m k).kstat = s.kstat := rfl
@[simp] theorem State.countBits_faultcmd (s : State) (n : Nat) (m : Mode) (k : Nat) :
    (s.countBits n m k).faultcmd = s.faultcmd := rfl
@[simp] theorem State.countBits_tagreg (s : State) (n : Nat) (m : Mode) (k : Nat) : (s.countBits n m k).tagreg = s.tagreg := rfl
@[simp] theorem State.countBits_pend (s : State) (n : Nat) (m : Mode) (k : Nat) : (s.countBits n m k).pend = s.pend := rfl
@[simp] theorem State.countBits_cache (s : State) (n : Nat) (m : Mode) (k : Nat) : (s.countBits n m k).cache = s.cache := rfl
@[simp] theorem State.countBits_rebuilds (s : State) (n : Nat) (m : Mode) (k : Nat) :
    (s.countBits n m k).rebuilds = s.rebuilds := rfl
@[simp] theorem State.countBits_buf (s : State) (n : Nat) (m : Mode) (k : Nat) : (s.countBits n m k).buf = s.buf := rfl
@[simp] theorem State.countBits_bufEpoch (s : State) (n : Nat) (m : Mode) (k : Nat) :
    (s.countBits n m k).bufEpoch = s.bufEpoch := rfl
@[simp] theorem State.countBits_freeCtr (s : State) (n : Nat) (m : Mode) (k : Nat) :
    (s.countBits n m k).freeCtr = s.freeCtr := rfl
@[simp] theorem State.countBits_schedule (s : State) (n : Nat) (m : Mode) (k : Nat) :
    (s.countBits n m k).schedule = s.schedule := rfl
@[simp] theorem State.countBits_responses (s : State) (n : Nat) (m : Mode) (k : Nat) :
    (s.countBits n m k).responses = s.responses := rfl

@[simp] theorem State.stepCounter_cfg (s : State) (n : Nat) : (s.stepCounter n).cfg = s.cfg := rfl
@[simp] theorem State.stepCounter_ie (s : State) (n : Nat) : (s.stepCounter n).ie = s.ie := rfl
@[simp] theorem State.stepCounter_done (s : State) (n : Nat) : (s.stepCounter n).done = s.done := rfl
@[simp] theorem State.stepCounter_fault (s : State) (n : Nat) : (s.stepCounter n).fault = s.fault := rfl
@[simp] theorem State.stepCounter_keyerr (s : State) (n : Nat) : (s.stepCounter n).keyerr = s.keyerr := rfl
@[simp] theorem State.stepCounter_cause (s : State) (n : Nat) : (s.stepCounter n).cause = s.cause := rfl
@[simp] theorem State.stepCounter_lastcmd (s : State) (n : Nat) : (s.stepCounter n).lastcmd = s.lastcmd := rfl
@[simp] theorem State.stepCounter_src (s : State) (n : Nat) : (s.stepCounter n).src = s.src := rfl
@[simp] theorem State.stepCounter_dst (s : State) (n : Nat) : (s.stepCounter n).dst = s.dst := rfl
@[simp] theorem State.stepCounter_len (s : State) (n : Nat) : (s.stepCounter n).len = s.len := rfl
@[simp] theorem State.stepCounter_kstat (s : State) (n : Nat) : (s.stepCounter n).kstat = s.kstat := rfl
@[simp] theorem State.stepCounter_faultcmd (s : State) (n : Nat) : (s.stepCounter n).faultcmd = s.faultcmd := rfl
@[simp] theorem State.stepCounter_tagreg (s : State) (n : Nat) : (s.stepCounter n).tagreg = s.tagreg := rfl
@[simp] theorem State.stepCounter_pend (s : State) (n : Nat) : (s.stepCounter n).pend = s.pend := rfl
@[simp] theorem State.stepCounter_cache (s : State) (n : Nat) : (s.stepCounter n).cache = s.cache := rfl
@[simp] theorem State.stepCounter_rebuilds (s : State) (n : Nat) : (s.stepCounter n).rebuilds = s.rebuilds := rfl
@[simp] theorem State.stepCounter_buf (s : State) (n : Nat) : (s.stepCounter n).buf = s.buf := rfl
@[simp] theorem State.stepCounter_bufEpoch (s : State) (n : Nat) : (s.stepCounter n).bufEpoch = s.bufEpoch := rfl
@[simp] theorem State.stepCounter_freeCtr (s : State) (n : Nat) : (s.stepCounter n).freeCtr = s.freeCtr := rfl
@[simp] theorem State.stepCounter_schedule (s : State) (n : Nat) : (s.stepCounter n).schedule = s.schedule := rfl
@[simp] theorem State.stepCounter_responses (s : State) (n : Nat) : (s.stepCounter n).responses = s.responses := rfl

@[simp] theorem State.absorb_cfg (s : State) (n : Nat) (g : List Byte) : (s.absorb n g).cfg = s.cfg := by simp [State.absorb]
@[simp] theorem State.absorb_ie (s : State) (n : Nat) (g : List Byte) : (s.absorb n g).ie = s.ie := by simp [State.absorb]
@[simp] theorem State.absorb_done (s : State) (n : Nat) (g : List Byte) : (s.absorb n g).done = s.done := by simp [State.absorb]
@[simp] theorem State.absorb_fault (s : State) (n : Nat) (g : List Byte) : (s.absorb n g).fault = s.fault :=
    by simp [State.absorb]
@[simp] theorem State.absorb_keyerr (s : State) (n : Nat) (g : List Byte) : (s.absorb n g).keyerr = s.keyerr :=
    by simp [State.absorb]
@[simp] theorem State.absorb_cause (s : State) (n : Nat) (g : List Byte) : (s.absorb n g).cause = s.cause :=
    by simp [State.absorb]
@[simp] theorem State.absorb_lastcmd (s : State) (n : Nat) (g : List Byte) : (s.absorb n g).lastcmd = s.lastcmd :=
    by simp [State.absorb]
@[simp] theorem State.absorb_src (s : State) (n : Nat) (g : List Byte) : (s.absorb n g).src = s.src := by simp [State.absorb]
@[simp] theorem State.absorb_dst (s : State) (n : Nat) (g : List Byte) : (s.absorb n g).dst = s.dst := by simp [State.absorb]
@[simp] theorem State.absorb_len (s : State) (n : Nat) (g : List Byte) : (s.absorb n g).len = s.len := by simp [State.absorb]
@[simp] theorem State.absorb_kstat (s : State) (n : Nat) (g : List Byte) : (s.absorb n g).kstat = s.kstat :=
    by simp [State.absorb]
@[simp] theorem State.absorb_faultcmd (s : State) (n : Nat) (g : List Byte) : (s.absorb n g).faultcmd = s.faultcmd :=
    by simp [State.absorb]
@[simp] theorem State.absorb_tagreg (s : State) (n : Nat) (g : List Byte) : (s.absorb n g).tagreg = s.tagreg :=
    by simp [State.absorb]
@[simp] theorem State.absorb_pend (s : State) (n : Nat) (g : List Byte) : (s.absorb n g).pend = s.pend := by simp [State.absorb]
@[simp] theorem State.absorb_buf (s : State) (n : Nat) (g : List Byte) : (s.absorb n g).buf = s.buf := by simp [State.absorb]
@[simp] theorem State.absorb_bufEpoch (s : State) (n : Nat) (g : List Byte) : (s.absorb n g).bufEpoch = s.bufEpoch :=
    by simp [State.absorb]
@[simp] theorem State.absorb_freeCtr (s : State) (n : Nat) (g : List Byte) : (s.absorb n g).freeCtr = s.freeCtr :=
    by simp [State.absorb]
@[simp] theorem State.absorb_schedule (s : State) (n : Nat) (g : List Byte) : (s.absorb n g).schedule = s.schedule :=
    by simp [State.absorb]
@[simp] theorem State.absorb_responses (s : State) (n : Nat) (g : List Byte) : (s.absorb n g).responses = s.responses :=
    by simp [State.absorb]

@[simp] theorem State.respond_cfg (s : State) (r : Response) : (s.respond r).cfg = s.cfg := rfl
@[simp] theorem State.respond_ie (s : State) (r : Response) : (s.respond r).ie = s.ie := rfl
@[simp] theorem State.respond_done (s : State) (r : Response) : (s.respond r).done = s.done := rfl
@[simp] theorem State.respond_fault (s : State) (r : Response) : (s.respond r).fault = s.fault := rfl
@[simp] theorem State.respond_keyerr (s : State) (r : Response) : (s.respond r).keyerr = s.keyerr := rfl
@[simp] theorem State.respond_cause (s : State) (r : Response) : (s.respond r).cause = s.cause := rfl
@[simp] theorem State.respond_lastcmd (s : State) (r : Response) : (s.respond r).lastcmd = s.lastcmd := rfl
@[simp] theorem State.respond_src (s : State) (r : Response) : (s.respond r).src = s.src := rfl
@[simp] theorem State.respond_dst (s : State) (r : Response) : (s.respond r).dst = s.dst := rfl
@[simp] theorem State.respond_len (s : State) (r : Response) : (s.respond r).len = s.len := rfl
@[simp] theorem State.respond_kstat (s : State) (r : Response) : (s.respond r).kstat = s.kstat := rfl
@[simp] theorem State.respond_faultcmd (s : State) (r : Response) : (s.respond r).faultcmd = s.faultcmd := rfl
@[simp] theorem State.respond_tagreg (s : State) (r : Response) : (s.respond r).tagreg = s.tagreg := rfl
@[simp] theorem State.respond_pend (s : State) (r : Response) : (s.respond r).pend = s.pend := rfl
@[simp] theorem State.respond_ctx (s : State) (r : Response) : (s.respond r).ctx = s.ctx := rfl
@[simp] theorem State.respond_cache (s : State) (r : Response) : (s.respond r).cache = s.cache := rfl
@[simp] theorem State.respond_rebuilds (s : State) (r : Response) : (s.respond r).rebuilds = s.rebuilds := rfl
@[simp] theorem State.respond_buf (s : State) (r : Response) : (s.respond r).buf = s.buf := rfl
@[simp] theorem State.respond_bufEpoch (s : State) (r : Response) : (s.respond r).bufEpoch = s.bufEpoch := rfl
@[simp] theorem State.respond_freeCtr (s : State) (r : Response) : (s.respond r).freeCtr = s.freeCtr := rfl
@[simp] theorem State.respond_schedule (s : State) (r : Response) : (s.respond r).schedule = s.schedule := rfl

@[simp] theorem State.issue_cfg (s : State) (v : Word) : (s.issue v).cfg = s.cfg := rfl
@[simp] theorem State.issue_ie (s : State) (v : Word) : (s.issue v).ie = s.ie := rfl
@[simp] theorem State.issue_fault (s : State) (v : Word) : (s.issue v).fault = s.fault := rfl
@[simp] theorem State.issue_keyerr (s : State) (v : Word) : (s.issue v).keyerr = s.keyerr := rfl
@[simp] theorem State.issue_cause (s : State) (v : Word) : (s.issue v).cause = s.cause := rfl
@[simp] theorem State.issue_src (s : State) (v : Word) : (s.issue v).src = s.src := rfl
@[simp] theorem State.issue_dst (s : State) (v : Word) : (s.issue v).dst = s.dst := rfl
@[simp] theorem State.issue_len (s : State) (v : Word) : (s.issue v).len = s.len := rfl
@[simp] theorem State.issue_kstat (s : State) (v : Word) : (s.issue v).kstat = s.kstat := rfl
@[simp] theorem State.issue_faultcmd (s : State) (v : Word) : (s.issue v).faultcmd = s.faultcmd := rfl
@[simp] theorem State.issue_tagreg (s : State) (v : Word) : (s.issue v).tagreg = s.tagreg := rfl
@[simp] theorem State.issue_ctx (s : State) (v : Word) : (s.issue v).ctx = s.ctx := rfl
@[simp] theorem State.issue_cache (s : State) (v : Word) : (s.issue v).cache = s.cache := rfl
@[simp] theorem State.issue_rebuilds (s : State) (v : Word) : (s.issue v).rebuilds = s.rebuilds := rfl
@[simp] theorem State.issue_buf (s : State) (v : Word) : (s.issue v).buf = s.buf := rfl
@[simp] theorem State.issue_bufEpoch (s : State) (v : Word) : (s.issue v).bufEpoch = s.bufEpoch := rfl
@[simp] theorem State.issue_freeCtr (s : State) (v : Word) : (s.issue v).freeCtr = s.freeCtr := rfl
@[simp] theorem State.issue_schedule (s : State) (v : Word) : (s.issue v).schedule = s.schedule := rfl
@[simp] theorem State.issue_responses (s : State) (v : Word) : (s.issue v).responses = s.responses := rfl

@[simp] theorem State.rebuild_cache (s : State) (n : Nat) : (s.rebuild n).cache = s.cache.build (s.slot n).key n := rfl

@[simp] theorem State.rebuild_rebuilds (s : State) (n : Nat) : (s.rebuild n).rebuilds = s.rebuilds + 1 := rfl

@[simp] theorem State.raiseFault_fault (s : State) (c : Cause) : (s.raiseFault c).fault = true := rfl

@[simp] theorem State.raiseFault_cause (s : State) (c : Cause) : (s.raiseFault c).cause = c := rfl

@[simp] theorem State.raiseFault_faultcmd (s : State) (c : Cause) : (s.raiseFault c).faultcmd = s.operands.word := rfl

@[simp] theorem State.finish_pend (s : State) : s.finish.pend = none := rfl

@[simp] theorem State.finish_done (s : State) : s.finish.done = true := rfl

@[simp] theorem State.respond_responses (s : State) (r : Response) : (s.respond r).responses = r :: s.responses := rfl

@[simp] theorem State.memWrite_buf (s : State) (a : Nat) (v : List Byte) :
    (s.memWrite a v).buf = s.buf.writeBytes a v := rfl

/-- The slots depend on `ctx` alone. -/
theorem State.slot_congr {s t : State} (h : s.ctx = t.ctx) (n : Nat) : s.slot n = t.slot n := by
  simp [State.slot, h]

/-- A slot read after a write of a slot. -/
theorem State.slot_setSlot (s : State) (n m : Nat) (v : Slot) :
    (s.setSlot n v).slot m = if n = m ∧ n < 8 then v else s.slot m := by
  simp only [State.slot, State.setSlot, Vector.getElem?_setIfInBounds]
  split_ifs <;> simp_all
  omega

@[simp] theorem State.slot_setSlot_self (s : State) (n : Nat) (v : Slot) (h : n < 8) :
    (s.setSlot n v).slot n = v := by simp [State.slot_setSlot, h]

@[simp] theorem State.slot_setSlot_ne (s : State) (n m : Nat) (v : Slot) (h : m ≠ n) :
    (s.setSlot n v).slot m = s.slot m := by simp [State.slot_setSlot, Ne.symm h]

@[simp] theorem State.slot_memWrite (s : State) (a : Nat) (v : List Byte) (m : Nat) :
    (s.memWrite a v).slot m = s.slot m := rfl

@[simp] theorem State.slot_rebuild (s : State) (n m : Nat) : (s.rebuild n).slot m = s.slot m := rfl

@[simp] theorem State.slot_ensureCache (s : State) (n m : Nat) : (s.ensureCache n).slot m = s.slot m :=
  State.slot_congr (by simp) m

@[simp] theorem State.slot_raiseFault (s : State) (c : Cause) (m : Nat) : (s.raiseFault c).slot m = s.slot m := rfl

@[simp] theorem State.slot_finish (s : State) (m : Nat) : s.finish.slot m = s.slot m := rfl

@[simp] theorem State.operands_of_pend {s : State} {p : Pending} (h : s.pend = some p) : s.operands = p := by
  simp [State.operands, h]

end Sys2Proof.Machine
end

