-- ==== Sys2Proof/Laws/Memory.lean ====
section
/-!
SUPPORT. The data buffer: what a byte reads as after a write, and that every memory operation keeps the canonical form (log 4).
-/

namespace Sys2Proof.Machine

/-- Read after write: the address written gives the value, every other address what it gave before. -/
theorem Memory.lookup_write (m : Memory) (a x : Nat) (v : Byte) :
    (m.write a v).lookup x = if x = a then some v else m.lookup x := by
  induction m with
  | nil => simp [Memory.write, Memory.lookup]
  | cons c m ih =>
    obtain ⟨b, w⟩ := c
    simp only [Memory.write]
    split_ifs <;> simp_all [Memory.lookup]

/-- Every address a write leaves listed was listed or is the one written. -/
theorem Memory.mem_write {m : Memory} {a : Nat} {v : Byte} {c : Host.Cell} (h : c ∈ m.write a v) :
    c.1 = a ∨ c ∈ m := by
  induction m with
  | nil => simp_all [Memory.write]
  | cons d m ih =>
    obtain ⟨b, w⟩ := d
    simp only [Memory.write] at h
    split_ifs at h <;> simp only [List.mem_cons] at h ⊢
    · rcases h with rfl | h <;> simp_all
    · rcases h with rfl | h <;> simp_all
    · rcases h with rfl | h
      · simp
      · rcases ih h with h | h <;> simp [h]

theorem Memory.wf_write {m : Memory} (h : m.wf) (a : Nat) (v : Byte) : (m.write a v).wf := by
  induction m with
  | nil => simp [Memory.wf, Memory.write]
  | cons d m ih =>
    obtain ⟨b, w⟩ := d
    obtain ⟨hb, hm⟩ := List.pairwise_cons.mp h
    simp only [Memory.write]
    split_ifs with h1 h2
    · refine List.pairwise_cons.mpr ⟨fun c hc => ?_, h⟩
      rcases List.mem_cons.mp hc with rfl | hc
      · exact h1
      · exact h1.trans (hb c hc)
    · exact List.pairwise_cons.mpr ⟨fun c hc => h2 ▸ hb c hc, hm⟩
    · refine List.pairwise_cons.mpr ⟨fun c hc => ?_, ih hm⟩
      rcases Memory.mem_write hc with hc | hc
      · show b < c.1
        omega
      · exact hb c hc

theorem Memory.within_write {m : Memory} {n a : Nat} (h : m.within n) (ha : a < n) (v : Byte) :
    (m.write a v).within n := by
  intro c hc
  rcases Memory.mem_write hc with hc | hc
  · omega
  · exact h c hc

/-- Reset leaves BUF in canonical form. -/
theorem State.reset_wf : Memory.wf State.reset.buf := by simp [Memory.wf, State.reset, State.powerOn]

/-- Read after a write of several bytes. -/
theorem Memory.lookup_writeBytes (vs : List Byte) (m : Memory) (a x : Nat) :
    (m.writeBytes a vs).lookup x = if a ≤ x ∧ x < a + vs.length then vs[x - a]? else m.lookup x := by
  induction vs generalizing m a with
  | nil => simp [Memory.writeBytes]
  | cons v vs ih =>
    rw [Memory.writeBytes, ih, Memory.lookup_write]
    by_cases hx : x = a
    · subst hx; simp
    · by_cases h : a ≤ x ∧ x < a + (v :: vs).length
      · have h' : a + 1 ≤ x ∧ x < a + 1 + vs.length := by simp only [List.length_cons] at h; omega
        obtain ⟨k, rfl⟩ : ∃ k, x = a + (k + 1) := ⟨x - a - 1, by omega⟩
        rw [if_pos h', if_pos h]
        simp [show a + (k + 1) - (a + 1) = k by omega, show a + (k + 1) - a = k + 1 by omega]
      · have h' : ¬(a + 1 ≤ x ∧ x < a + 1 + vs.length) := by simp only [List.length_cons] at h; omega
        rw [if_neg h', if_neg h, if_neg hx]

theorem Memory.wf_writeBytes (vs : List Byte) {m : Memory} (h : m.wf) (a : Nat) : (m.writeBytes a vs).wf := by
  induction vs generalizing m a with
  | nil => exact h
  | cons v vs ih => exact ih (Memory.wf_write h a v) (a + 1)

theorem Memory.within_writeBytes (vs : List Byte) {m : Memory} {n a : Nat} (h : m.within n)
    (ha : a + vs.length ≤ n) : (m.writeBytes a vs).within n := by
  induction vs generalizing m a with
  | nil => exact h
  | cons v vs ih =>
    simp only [List.length_cons] at ha
    exact ih (Memory.within_write h (by omega) v) (by omega)

/-- BUF[x] after `MemWrite(a, n, v)`: the bytes written, every other byte as before. -/
theorem State.bufByte_memWrite (s : State) (a x : Nat) (v : List Byte) :
    (s.memWrite a v).bufByte x = if a ≤ x ∧ x < a + v.length then v.getD (x - a) 0 else s.bufByte x := by
  simp only [State.bufByte, State.memWrite_buf, State.memWrite_bufEpoch, Memory.lookup_writeBytes]
  split_ifs with h
  · have hl : x - a < v.length := by omega
    simp [List.getElem?_eq_getElem hl, List.getD]
  · rfl

/-- BUF depends on `buf` and `bufEpoch` alone. -/
theorem State.bufByte_congr {s t : State} (h : s.buf = t.buf) (he : s.bufEpoch = t.bufEpoch) (a : Nat) :
    s.bufByte a = t.bufByte a := by simp [State.bufByte, h, he]

@[simp] theorem State.length_memRead (s : State) (a n : Nat) : (s.memRead a n).length = n := by
  simp [State.memRead]

theorem State.getD_memRead (s : State) (a n i : Nat) (h : i < n) : (s.memRead a n).getD i 0 = s.bufByte (a + i) := by
  simp [State.memRead, h, List.getD]

/-- Two reads agree when their bytes do. -/
theorem State.memRead_congr {s t : State} {a b n : Nat} (h : ∀ i, i < n → s.bufByte (a + i) = t.bufByte (b + i)) :
    s.memRead a n = t.memRead b n := by
  simp only [State.memRead]
  exact List.map_congr_left (fun i hi => h i (List.mem_range.mp hi))

end Sys2Proof.Machine
end

