-- ==== Sys2Proof/Laws/Field.lean ====
section
/-!
SUPPORT. The field datapath: multiplication by x is linear, the bytes of a Block, and what the loop of `Rebuild` leaves in each entry
of the two tables (40_field_algebra.md R111, R112).
-/

namespace Sys2Proof.Machine

theorem mulX_eq (v : Block) : mulX v = (v >>> 1) ^^^ (if v.getLsbD 0 then fieldByte else 0) := by
  unfold mulX; split <;> simp

@[simp] theorem mulX_zero : mulX 0 = 0 := by decide

/-- Multiplication by x is linear. -/
theorem mulX_xor (a b : Block) : mulX (a ^^^ b) = mulX a ^^^ mulX b := by
  simp only [mulX_eq, BitVec.ushiftRight_xor_distrib, BitVec.getLsbD_xor]
  generalize a >>> 1 = a', b >>> 1 = b'
  cases a.getLsbD 0 <;> cases b.getLsbD 0 <;> ext i <;> simp <;> grind

@[simp] theorem xTimes_zero (i : Nat) : xTimes i 0 = 0 := by
  induction i with
  | zero => rfl
  | succ i ih => rw [xTimes, ih, mulX_zero]

theorem xTimes_xor (i : Nat) (a b : Block) : xTimes i (a ^^^ b) = xTimes i a ^^^ xTimes i b := by
  induction i with
  | zero => rfl
  | succ i ih => simp [xTimes, ih, mulX_xor]

theorem xTimes_add (i j : Nat) (v : Block) : xTimes (i + j) v = xTimes i (xTimes j v) := by
  induction i with
  | zero => simp [xTimes]
  | succ i ih => rw [Nat.succ_add, xTimes, ih, xTimes]

/-- Bit j of byte k is the coefficient of x^(8k+7−j) (00_scope.md R12). -/
theorem getLsbD_byte (b : Block) (k j : Nat) (hk : k < 16) (hj : j < 8) :
    (Block.byte b k).getLsbD j = b.getMsbD (8 * k + 7 - j) := by
  simp only [Block.byte, BitVec.getLsbD_extractLsb', BitVec.getMsbD]
  rw [show decide (j < 8) = true by simpa using hj, show decide (8 * k + 7 - j < 128) = true by simp; omega,
    Bool.true_and, Bool.true_and]
  congr 1
  omega

@[simp] theorem rev8_rev8 (b : Byte) : rev8 (rev8 b) = b := by simp [rev8]

theorem rev8_eq_zero {b : Byte} : rev8 b = 0 ↔ b = 0 :=
  ⟨fun h => by rw [← rev8_rev8 b, h]; decide, fun h => by rw [h]; decide⟩

/-- The exclusive-or of `f 0 .. f (n−1)`. -/
def xsum {w : Nat} : Nat → (Nat → BitVec w) → BitVec w
  | 0, _ => 0
  | n + 1, f => xsum n f ^^^ f n

theorem xsum_congr {w n : Nat} {f g : Nat → BitVec w} (h : ∀ i, i < n → f i = g i) : xsum n f = xsum n g := by
  induction n with
  | zero => rfl
  | succ n ih => rw [xsum, xsum, ih (fun i hi => h i (by omega)), h n (by omega)]

theorem xsum_zero {w n : Nat} {f : Nat → BitVec w} (h : ∀ i, i < n → f i = 0) : xsum n f = 0 := by
  induction n with
  | zero => rfl
  | succ n ih => rw [xsum, ih (fun i hi => h i (by omega)), h n (by omega)]; simp

theorem xsum_xor {w : Nat} (n : Nat) (f g : Nat → BitVec w) :
    xsum n (fun i => f i ^^^ g i) = xsum n f ^^^ xsum n g := by
  induction n with
  | zero => simp [xsum]
  | succ n ih => simp only [xsum, ih]; ac_rfl

theorem xsum_add {w : Nat} (n m : Nat) (f : Nat → BitVec w) :
    xsum (n + m) f = xsum n f ^^^ xsum m (fun i => f (n + i)) := by
  induction m with
  | zero => simp [xsum]
  | succ m ih => rw [← Nat.add_assoc, xsum, xsum, ih, BitVec.xor_assoc]

/-- A map that carries exclusive-or to exclusive-or carries an `xsum` to an `xsum`. -/
theorem map_xsum {w v : Nat} (φ : BitVec w → BitVec v) (h0 : φ 0 = 0) (hx : ∀ a b, φ (a ^^^ b) = φ a ^^^ φ b)
    (n : Nat) (f : Nat → BitVec w) : φ (xsum n f) = xsum n (fun i => φ (f i)) := by
  induction n with
  | zero => exact h0
  | succ n ih => rw [xsum, xsum, hx, ih]

/-- The product as a sum over the coefficients of its first operand. -/
theorem gmul_eq_xsum (x y : Block) : gmul x y = xsum 128 (fun i => if x.getMsbD i then xTimes i y else 0) := by
  have h : ∀ n (z : Block), (List.range n).foldl (fun z i => if x.getMsbD i then z ^^^ xTimes i y else z) z =
      z ^^^ xsum n (fun i => if x.getMsbD i then xTimes i y else 0) := by
    intro n z
    induction n with
    | zero => simp [xsum]
    | succ n ih =>
      rw [List.range_succ, List.foldl_append, ih, xsum]
      simp only [List.foldl]
      split <;> simp [BitVec.xor_assoc]
  rw [gmul, h]
  simp

/-- A sum of the entries `f 0 .. f 7` over the set bits of `i`. -/
def bitSum {w : Nat} (f : Nat → BitVec w) (i : Nat) : BitVec w :=
  xsum 8 (fun j => if i.testBit j then f j else 0)

@[simp] theorem bitSum_zero {w : Nat} (f : Nat → BitVec w) : bitSum f 0 = 0 := xsum_zero (by simp)

/-- The odd step of R112: entry i from entry i − 1. -/
theorem bitSum_odd {w : Nat} (f : Nat → BitVec w) (k : Nat) : bitSum f (2 * k + 1) = bitSum f (2 * k) ^^^ f 0 := by
  have hs : ∀ j, (2 * k + 1).testBit (1 + j) = (2 * k).testBit (1 + j) := by
    intro j; rw [Nat.add_comm 1 j]; simp only [Nat.testBit_succ]; congr 1; omega
  simp only [bitSum, show (8 : Nat) = 1 + 7 from rfl, xsum_add, hs]
  simp [xsum]
  ac_rfl

/-- The even step of R112: entry i from entry i/2. -/
theorem bitSum_even {w : Nat} (f : Nat → BitVec w) (k : Nat) :
    bitSum f (2 * k) = xsum 7 (fun j => if k.testBit j then f (j + 1) else 0) := by
  have hs : ∀ j, (2 * k).testBit (1 + j) = k.testBit j := by
    intro j; rw [Nat.add_comm 1 j]; simp only [Nat.testBit_succ]; congr 1; omega
  simp only [bitSum, show (8 : Nat) = 1 + 7 from rfl, xsum_add, hs]
  simp [xsum, Nat.add_comm]

theorem bitSum_half {w : Nat} (f : Nat → BitVec w) (k : Nat) (hk : k < 128) :
    bitSum f k = xsum 7 (fun j => if k.testBit j then f j else 0) := by
  have : k.testBit 7 = false := Nat.testBit_lt_two_pow (by omega)
  simp [bitSum, xsum, this]

/-- The index arithmetic of R112: t = rev8(i), and the entry t is built from. -/
theorem rev8_index : ∀ i, i < 256 → (rev8 (BitVec.ofNat 8 i)).msb = decide (i % 2 = 1) ∧
    (i % 2 = 1 → rev8 (BitVec.ofNat 8 i) &&& 0x7F#8 = rev8 (BitVec.ofNat 8 (i - 1))) ∧
    (i % 2 = 0 → rev8 (BitVec.ofNat 8 i) <<< 1 = rev8 (BitVec.ofNat 8 (i / 2))) := by
  decide +kernel

theorem rev8_ofNat_inj {i j : Nat} (hi : i < 256) (hj : j < 256)
    (h : rev8 (BitVec.ofNat 8 i) = rev8 (BitVec.ofNat 8 j)) : i = j := by
  have := congrArg rev8 h
  rw [rev8_rev8, rev8_rev8] at this
  have := congrArg BitVec.toNat this
  simp only [BitVec.toNat_ofNat] at this
  omega

/-- An entry of a table whose entry 0 is hardwired, after one entry is set. -/
theorem getElem_set_hardwired {α : Type} (v : Vector α 256) (t b : Byte) (x z : α) (ht : t ≠ 0) :
    (if b = 0 then z else (v.set t.toNat x t.isLt)[b.toNat]'b.isLt) =
      if b = t then x else if b = 0 then z else v[b.toNat]'b.isLt := by
  by_cases hb : b = t
  · subst hb; rw [if_neg ht]; simp
  · have : t.toNat ≠ b.toNat := fun h => hb (BitVec.eq_of_toNat_eq h.symm)
    simp [hb, this]

/-- One iteration of the loop of `Rebuild` sets entry rev8(i) of both tables and no other (R112). -/
theorem Cache.buildEntry_spec (hk : Block) (c : Cache) (i : Nat) (h0 : 0 < i) (hi : i < 256) (b : Byte) :
    (Cache.buildEntry hk c i).mAt b =
      (if b = rev8 (BitVec.ofNat 8 i) then
        if i % 2 = 1 then c.mAt (rev8 (BitVec.ofNat 8 (i - 1))) ^^^ hk else mulX (c.mAt (rev8 (BitVec.ofNat 8 (i / 2))))
      else c.mAt b) ∧
    (Cache.buildEntry hk c i).rAt b =
      (if b = rev8 (BitVec.ofNat 8 i) then
        if i % 2 = 1 then c.rAt (rev8 (BitVec.ofNat 8 (i - 1))) ^^^ 0xE100#16 else c.rAt (rev8 (BitVec.ofNat 8 (i / 2))) >>> 1
      else c.rAt b) := by
  obtain ⟨hm, ho, he⟩ := rev8_index i hi
  have ht : rev8 (BitVec.ofNat 8 i) ≠ 0 := by
    intro h
    have := congrArg BitVec.toNat (rev8_eq_zero.mp h)
    simp only [BitVec.toNat_ofNat] at this
    simp at this
    omega
  unfold Cache.buildEntry
  by_cases hodd : i % 2 = 1
  · simp only [hm, hodd, decide_true, if_true, ho hodd]
    exact ⟨getElem_set_hardwired _ _ _ _ _ ht, getElem_set_hardwired _ _ _ _ _ ht⟩
  · simp only [hm, hodd, decide_false, if_false, Bool.false_eq_true, he (by omega)]
    exact ⟨getElem_set_hardwired _ _ _ _ _ ht, getElem_set_hardwired _ _ _ _ _ ht⟩

/-- Entry rev8(i) of the built tables: `M` sums `x^j • Hk`, `R` sums `0xE100 >> j`, over the set bits j of i (R112). -/
theorem Cache.buildTables_spec (hk : Block) (c : Cache) (i : Nat) (hi : i < 256) :
    (Cache.buildTables hk c).mAt (rev8 (BitVec.ofNat 8 i)) = bitSum (fun j => xTimes j hk) i ∧
    (Cache.buildTables hk c).rAt (rev8 (BitVec.ofNat 8 i)) = bitSum (fun j => 0xE100#16 >>> j) i := by
  have loop : ∀ n, n < 256 → ∀ i, i ≤ n →
      ((List.range' 1 n).foldl (Cache.buildEntry hk) c).mAt (rev8 (BitVec.ofNat 8 i)) = bitSum (fun j => xTimes j hk) i ∧
      ((List.range' 1 n).foldl (Cache.buildEntry hk) c).rAt (rev8 (BitVec.ofNat 8 i)) =
        bitSum (fun j => 0xE100#16 >>> j) i := by
    intro n
    induction n with
    | zero =>
      intro _ i hi
      obtain rfl : i = 0 := by omega
      rw [bitSum_zero, bitSum_zero]
      exact ⟨by simp [Cache.mAt, rev8], by simp [Cache.rAt, rev8]⟩
    | succ n ih =>
      intro hn i hi
      rw [List.range'_1_concat, List.foldl_append]
      simp only [List.foldl]
      obtain ⟨hm, hr⟩ := Cache.buildEntry_spec hk ((List.range' 1 n).foldl (Cache.buildEntry hk) c) (1 + n)
        (by omega) (by omega) (rev8 (BitVec.ofNat 8 i))
      rw [hm, hr]
      by_cases hin : i = 1 + n
      · subst hin
        rw [if_pos rfl, if_pos rfl]
        by_cases hodd : (1 + n) % 2 = 1
        · obtain ⟨k, hk⟩ : ∃ k, 1 + n = 2 * k + 1 := ⟨(1 + n) / 2, by omega⟩
          obtain ⟨h1, h2⟩ := ih (by omega) n (by omega)
          rw [if_pos hodd, if_pos hodd, show 1 + n - 1 = n by omega, h1, h2, hk, bitSum_odd, bitSum_odd,
            show n = 2 * k by omega]
          exact ⟨rfl, rfl⟩
        · obtain ⟨k, hk⟩ : ∃ k, 1 + n = 2 * k := ⟨(1 + n) / 2, by omega⟩
          obtain ⟨h1, h2⟩ := ih (by omega) k (by omega)
          rw [if_neg hodd, if_neg hodd, show (1 + n) / 2 = k by omega, h1, h2, hk, bitSum_even, bitSum_even,
            bitSum_half _ k (by omega), bitSum_half _ k (by omega), map_xsum mulX mulX_zero mulX_xor,
            map_xsum (· >>> 1) (by simp) (by simp [BitVec.ushiftRight_xor_distrib])]
          constructor
          · exact xsum_congr (fun j _ => by split <;> [rfl; exact mulX_zero])
          · exact xsum_congr (fun j _ => by split <;> simp [BitVec.shiftRight_add])
      · have hne : rev8 (BitVec.ofNat 8 i) ≠ rev8 (BitVec.ofNat 8 (1 + n)) :=
          fun h => hin (rev8_ofNat_inj (by omega) (by omega) h)
        rw [if_neg hne, if_neg hne]
        exact ih (by omega) i (by omega)
  unfold Cache.buildTables
  exact loop 255 (by omega) i (by omega)

end Sys2Proof.Machine
end

