-- ==== Sys2Proof/Laws/Process.lean ====
section
/-!
SUPPORT. What the engine of 40_field_algebra.md R117 can change: `SameRest` says once that every field but the slots, the cache, REBUILDS
and BUF is kept; the lemmas below say what happens to those.
-/

namespace Sys2Proof.Machine

/-- `t` is `s` but for the slots, the cache, REBUILDS and BUF. -/
structure SameRest (s t : State) : Prop where
  cfg : t.cfg = s.cfg
  ie : t.ie = s.ie
  done : t.done = s.done
  fault : t.fault = s.fault
  keyerr : t.keyerr = s.keyerr
  cause : t.cause = s.cause
  lastcmd : t.lastcmd = s.lastcmd
  src : t.src = s.src
  dst : t.dst = s.dst
  len : t.len = s.len
  kstat : t.kstat = s.kstat
  faultcmd : t.faultcmd = s.faultcmd
  tagreg : t.tagreg = s.tagreg
  pend : t.pend = s.pend
  bufEpoch : t.bufEpoch = s.bufEpoch
  freeCtr : t.freeCtr = s.freeCtr
  schedule : t.schedule = s.schedule
  responses : t.responses = s.responses

theorem SameRest.refl (s : State) : SameRest s s := by constructor <;> rfl

theorem SameRest.trans {s t u : State} (h : SameRest s t) (k : SameRest t u) : SameRest s u where
  cfg := k.cfg.trans h.cfg
  ie := k.ie.trans h.ie
  done := k.done.trans h.done
  fault := k.fault.trans h.fault
  keyerr := k.keyerr.trans h.keyerr
  cause := k.cause.trans h.cause
  lastcmd := k.lastcmd.trans h.lastcmd
  src := k.src.trans h.src
  dst := k.dst.trans h.dst
  len := k.len.trans h.len
  kstat := k.kstat.trans h.kstat
  faultcmd := k.faultcmd.trans h.faultcmd
  tagreg := k.tagreg.trans h.tagreg
  pend := k.pend.trans h.pend
  bufEpoch := k.bufEpoch.trans h.bufEpoch
  freeCtr := k.freeCtr.trans h.freeCtr
  schedule := k.schedule.trans h.schedule
  responses := k.responses.trans h.responses

theorem sameRest_setSlot (s : State) (n : Nat) (v : Slot) : SameRest s (s.setSlot n v) := by constructor <;> rfl

theorem sameRest_setPhase (s : State) (n : Nat) (p : Phase) : SameRest s (s.setPhase n p) := sameRest_setSlot s n _

theorem sameRest_memWrite (s : State) (a : Nat) (v : List Byte) : SameRest s (s.memWrite a v) := by constructor <;> rfl

theorem sameRest_ensureCache (s : State) (n : Nat) : SameRest s (s.ensureCache n) := by constructor <;> simp

theorem sameRest_countBits (s : State) (n : Nat) (m : Mode) (k : Nat) : SameRest s (s.countBits n m k) :=
  sameRest_setSlot s n _

theorem sameRest_stepCounter (s : State) (n : Nat) : SameRest s (s.stepCounter n) := sameRest_setSlot s n _

theorem sameRest_absorb (s : State) (n : Nat) (g : List Byte) : SameRest s (s.absorb n g) :=
  (sameRest_ensureCache s n).trans (sameRest_setSlot _ n _)

theorem sameRest_payloadFragment (s : State) (E : Block → Block) (n dst : Nat) (f : List Byte)
    (pick : List Byte → List Byte → List Byte) : SameRest s (s.payloadFragment E n dst f pick) :=
  ((sameRest_stepCounter s n).trans (sameRest_memWrite _ _ _)).trans (sameRest_absorb _ n _)

theorem sameRest_fragment (s : State) (E : Block → Block) (n : Nat) (m : Mode) (src dst k : Nat) :
    SameRest s (s.fragment E n m src dst k) := by
  cases m <;> simp only [State.fragment]
  · exact sameRest_absorb s n _
  · exact sameRest_payloadFragment s E n dst _ _
  · exact sameRest_payloadFragment s E n dst _ _
  · exact sameRest_absorb s n _

theorem sameRest_fragments (E : Block → Block) (n : Nat) (m : Mode) (c src dst len : Nat) (s : State) :
    SameRest s (State.fragments E n m c src dst len s) := by
  induction c generalizing src dst len s with
  | zero => exact SameRest.refl s
  | succ c ih => exact (sameRest_fragment s E n m src dst _).trans (ih _ _ _ _)

theorem sameRest_processCore (s : State) (E : Block → Block) (n : Nat) (m : Mode) (src dst len : Nat) :
    SameRest s (s.processCore E n m src dst len) :=
  (sameRest_countBits s n m len).trans (sameRest_fragments _ _ _ _ _ _ _ _)

/-- What the cache and REBUILDS can be after multiplications for slot `n`: as before, or rebuilt once for n's key. -/
def CacheStep (s t : State) (n : Nat) : Prop :=
  (t.cache = s.cache ∧ t.rebuilds = s.rebuilds) ∨
    (s.cache.validFor n = false ∧ t.cache = s.cache.build (s.slot n).key n ∧ t.rebuilds = s.rebuilds + 1)

theorem cacheStep_ensureCache (s : State) (n : Nat) : CacheStep s (s.ensureCache n) n := by
  unfold State.ensureCache
  split
  · exact .inl ⟨rfl, rfl⟩
  · next h => exact .inr ⟨by simpa using h, rfl, rfl⟩

theorem validFor_build (c : Cache) (hk : Block) (n : Nat) : (c.build hk n).validFor n = true := by
  simp [Cache.build, Cache.validFor]

theorem validFor_ensureCache (s : State) (n : Nat) : (s.ensureCache n).cache.validFor n = true := by
  unfold State.ensureCache
  split
  · assumption
  · exact validFor_build _ _ _

theorem validFor_iff (c : Cache) {n : Nat} (hn : n < 8) : c.validFor n = true ↔ c.valid = true ∧ c.tag.toNat = n := by
  simp only [Cache.validFor, Bool.and_eq_true, beq_iff_eq, ← BitVec.toNat_inj, BitVec.toNat_ofNat]
  rw [Nat.mod_eq_of_lt (by omega)]

@[simp] theorem Cache.withFreeTables_valid (c : Cache) (k : Nat) : (c.withFreeTables k).valid = c.valid := rfl

@[simp] theorem Cache.withFreeTables_tag (c : Cache) (k : Nat) : (c.withFreeTables k).tag = c.tag := rfl

/-- What SETKEY's invalidation can do: keep a cache that is not valid for the slot, or clear CACHE_VALID and keep the tag (10_state.md R30). -/
theorem Cache.invalidate_cases (k : Nat) (c : Cache) (n : Nat) :
    (c.validFor n = false ∧ c.invalidate k n = c) ∨
      (c.validFor n = true ∧ (c.invalidate k n).valid = false ∧ (c.invalidate k n).tag = c.tag) := by
  unfold Cache.invalidate
  split
  · next h => exact .inr ⟨h, rfl, rfl⟩
  · next h => exact .inl ⟨by simpa using h, rfl⟩

/-- With the cache valid for the slot nothing is rebuilt. -/
theorem ensureCache_of_valid {s : State} {n : Nat} (h : s.cache.validFor n = true) : s.ensureCache n = s := by
  simp [State.ensureCache, h]

theorem ensureCache_idem (s : State) (n : Nat) : (s.ensureCache n).ensureCache n = s.ensureCache n :=
  ensureCache_of_valid (validFor_ensureCache s n)

/-- `ensureCache` and so `mulH` read the cache, and the slot's key when they rebuild. -/
theorem ensureCache_cache_congr {s t : State} {n : Nat} (h : t.cache = s.cache) (hk : (t.slot n).key = (s.slot n).key) :
    (t.ensureCache n).cache = (s.ensureCache n).cache := by
  unfold State.ensureCache
  rw [h]
  split
  · exact h
  · simp [h, hk]

theorem mulH_congr {s t : State} {n : Nat} (h : t.cache = s.cache) (hk : (t.slot n).key = (s.slot n).key) (x : Block) :
    t.mulH n x = s.mulH n x := by
  rw [State.mulH, State.mulH, ensureCache_cache_congr h hk]

/-- A fragment's last two lines: HASH of slot n, and nothing else of any slot (R117). -/
theorem slot_absorb (s : State) (n m : Nat) (g : List Byte) :
    (s.absorb n g).slot m =
      if n = m ∧ n < 8 then { s.slot n with hash := s.mulH n (xorPrefix (s.slot n).hash g) } else s.slot m := by
  simp [State.absorb, State.slot_setSlot]

theorem cache_absorb (s : State) (n : Nat) (g : List Byte) : (s.absorb n g).cache = (s.ensureCache n).cache := rfl

theorem rebuilds_absorb (s : State) (n : Nat) (g : List Byte) : (s.absorb n g).rebuilds = (s.ensureCache n).rebuilds := rfl

theorem slot_stepCounter (s : State) (n m : Nat) :
    (s.stepCounter n).slot m = if n = m ∧ n < 8 then { s.slot n with ctr := inc32 (s.slot n).ctr } else s.slot m :=
  State.slot_setSlot _ _ _ _

theorem slot_countBits (s : State) (n m : Nat) (mode : Mode) (k : Nat) :
    (s.countBits n mode k).slot m =
      if n = m ∧ n < 8 then { s.slot n with lens := countBits mode k (s.slot n).lens } else s.slot m :=
  State.slot_setSlot _ _ _ _

theorem slot_setPhase (s : State) (n m : Nat) (p : Phase) :
    (s.setPhase n p).slot m = if n = m ∧ n < 8 then { s.slot n with phase := p } else s.slot m :=
  State.slot_setSlot _ _ _ _

/-- What one payload fragment does to slot n (R117). -/
theorem slot_payloadFragment (s : State) (E : Block → Block) (n dst : Nat) (f : List Byte)
    (pick : List Byte → List Byte → List Byte) (hn : n < 8) :
    (s.payloadFragment E n dst f pick).slot n =
      { s.slot n with
        ctr := inc32 (s.slot n).ctr
        hash := s.mulH n (xorPrefix (s.slot n).hash (pick f (ksXor f (E (inc32 (s.slot n).ctr))))) } := by
  rw [State.payloadFragment, slot_absorb, if_pos ⟨rfl, hn⟩, mulH_congr (s := s)]
  · simp [slot_stepCounter, hn]
  · rfl
  · simp [slot_stepCounter, hn]

theorem slot_payloadFragment_ne (s : State) (E : Block → Block) (n m dst : Nat) (f : List Byte)
    (pick : List Byte → List Byte → List Byte) (h : m ≠ n) :
    (s.payloadFragment E n dst f pick).slot m = s.slot m := by
  simp [State.payloadFragment, slot_absorb, slot_stepCounter, Ne.symm h]

/-- No fragment touches another slot. -/
theorem slot_fragment_ne (s : State) (E : Block → Block) (n m : Nat) (mode : Mode) (src dst k : Nat) (h : m ≠ n) :
    (s.fragment E n mode src dst k).slot m = s.slot m := by
  cases mode <;> simp only [State.fragment]
  · simp [slot_absorb, Ne.symm h]
  · exact slot_payloadFragment_ne s E n m dst _ _ h
  · exact slot_payloadFragment_ne s E n m dst _ _ h
  · simp [slot_absorb, Ne.symm h]

/-- No fragment touches KEY, CIPHST, LENS, PHASE or the IV part of CTR (R117). -/
theorem slot_fragment_kept (s : State) (E : Block → Block) (n : Nat) (mode : Mode) (src dst k : Nat) (hn : n < 8) :
    (s.fragment E n mode src dst k).slot n =
      { s.slot n with
        hash := ((s.fragment E n mode src dst k).slot n).hash
        ctr := ((s.fragment E n mode src dst k).slot n).ctr } := by
  cases mode
  · simp [State.fragment, slot_absorb, hn]
  · simp [State.fragment, slot_payloadFragment, hn]
  · simp [State.fragment, slot_payloadFragment, hn]
  · simp [State.fragment, slot_absorb, hn]

/-- The cache after a fragment. -/
theorem cache_fragment (s : State) (E : Block → Block) (n : Nat) (mode : Mode) (src dst k : Nat) (hn : n < 8) :
    (s.fragment E n mode src dst k).cache = (s.ensureCache n).cache := by
  cases mode
  · rfl
  · exact ensureCache_cache_congr (s := s) rfl (by simp [slot_stepCounter, hn])
  · exact ensureCache_cache_congr (s := s) rfl (by simp [slot_stepCounter, hn])
  · rfl

theorem ensureCache_rebuilds (s : State) (n : Nat) :
    (s.ensureCache n).rebuilds = if s.cache.validFor n then s.rebuilds else s.rebuilds + 1 := by
  unfold State.ensureCache; split <;> simp_all

theorem rebuilds_fragment (s : State) (E : Block → Block) (n : Nat) (mode : Mode) (src dst k : Nat) :
    (s.fragment E n mode src dst k).rebuilds = (s.ensureCache n).rebuilds := by
  cases mode
  · rfl
  · simp only [ensureCache_rebuilds]; exact ensureCache_rebuilds _ _
  · simp only [ensureCache_rebuilds]; exact ensureCache_rebuilds _ _
  · rfl

@[simp] theorem length_ksXor (f : List Byte) (ks : Block) : (ksXor f ks).length = min f.length 16 := by
  simp [ksXor, Block.toBytes]

/-- A fragment writes BUF[dst .. dst+k−1] at most, and only ENC and DEC write (R117). -/
theorem bufByte_fragment (s : State) (E : Block → Block) (n : Nat) (mode : Mode) (src dst k x : Nat)
    (h : mode = .aadm ∨ mode = .ivd ∨ x < dst ∨ dst + k ≤ x) :
    (s.fragment E n mode src dst k).bufByte x = s.bufByte x := by
  have hw : x < dst ∨ dst + k ≤ x → ∀ (ks : Block) (t : State), t.buf = s.buf → t.bufEpoch = s.bufEpoch →
      (t.memWrite dst (ksXor (s.memRead src k) ks)).bufByte x = s.bufByte x := by
    intro hx ks t hb he
    rw [State.bufByte_memWrite, if_neg (by simp; omega)]
    exact State.bufByte_congr hb he x
  cases mode
  · exact State.bufByte_congr (by simp [State.fragment]) (by simp [State.fragment]) x
  · refine Eq.trans (State.bufByte_congr ?_ ?_ x) (hw (by simpa using h) (E (inc32 (s.slot n).ctr)) (s.stepCounter n) rfl rfl)
      <;> simp [State.fragment, State.payloadFragment]
  · refine Eq.trans (State.bufByte_congr ?_ ?_ x) (hw (by simpa using h) (E (inc32 (s.slot n).ctr)) (s.stepCounter n) rfl rfl)
      <;> simp [State.fragment, State.payloadFragment]
  · exact State.bufByte_congr (by simp [State.fragment]) (by simp [State.fragment]) x

/-- The loop: no other slot. -/
theorem slot_fragments_ne (E : Block → Block) (n m : Nat) (mode : Mode) (c src dst len : Nat) (s : State) (h : m ≠ n) :
    (State.fragments E n mode c src dst len s).slot m = s.slot m := by
  induction c generalizing src dst len s with
  | zero => rfl
  | succ c ih => rw [State.fragments, ih, slot_fragment_ne _ _ _ _ _ _ _ _ h]

/-- The loop: of slot n only HASH and CTR. -/
theorem slot_fragments_kept (E : Block → Block) (n : Nat) (mode : Mode) (c src dst len : Nat) (s : State) (hn : n < 8) :
    (State.fragments E n mode c src dst len s).slot n =
      { s.slot n with
        hash := ((State.fragments E n mode c src dst len s).slot n).hash
        ctr := ((State.fragments E n mode c src dst len s).slot n).ctr } := by
  induction c generalizing src dst len s with
  | zero => rfl
  | succ c ih =>
    rw [State.fragments, ih, slot_fragment_kept _ _ _ _ _ _ _ hn]

/-- The loop: BUF outside the output range, the count being at most that of `ProcessCore`. -/
theorem bufByte_fragments (E : Block → Block) (n : Nat) (mode : Mode) (c src dst len x : Nat) (s : State)
    (hc : 16 * c < len + 16) (h : mode = .aadm ∨ mode = .ivd ∨ x < dst ∨ dst + len ≤ x) :
    (State.fragments E n mode c src dst len s).bufByte x = s.bufByte x := by
  induction c generalizing src dst len s with
  | zero => rfl
  | succ c ih =>
    have hf : mode = .aadm ∨ mode = .ivd ∨ x < dst ∨ dst + min 16 len ≤ x := h.imp_right (Or.imp_right (by omega))
    rw [State.fragments, ← bufByte_fragment s E n mode src dst (min 16 len) x hf]
    by_cases hz : c = 0
    · subst hz; rfl
    · exact ih _ _ _ _ (by omega) (h.imp_right (Or.imp_right (by omega)))

theorem fragmentCount_bound (len : Nat) : 16 * fragmentCount len < len + 16 := by
  unfold fragmentCount; omega

end Sys2Proof.Machine
end

