-- ==== Sys2Proof/Laws/Bus.lean ====
section
/-!
SUPPORT. The address map of 20_memory.md R65 and the bus's answers: which offsets are mapped, which transactions are accepted while BUSY,
and what one accepted transaction is.
-/

namespace Sys2Proof.Machine

theorem mem_of_lookup {l : List (Nat × Target)} {a : Nat} {t : Target} (h : l.lookup a = some t) : (a, t) ∈ l := by
  induction l with
  | nil => cases h
  | cons p l ih =>
    simp only [List.lookup] at h
    split at h
    · next hb => cases h; rw [eq_of_beq hb]; exact List.mem_cons_self
    · exact List.mem_cons_of_mem _ (ih h)

/-- A register's offset is one of the thirteen multiples of 4 up to 0x030. -/
theorem lookup_registerMap (a : Nat) : (registerMap.lookup a).isSome = true ↔ a ≤ 0x030 ∧ a % 4 = 0 := by
  constructor
  · intro h
    obtain ⟨t, ht⟩ := Option.isSome_iff_exists.mp h
    have hm := mem_of_lookup ht
    have : ∀ q ∈ registerMap, q.1 ≤ 0x030 ∧ q.1 % 4 = 0 := by decide
    exact this _ hm
  · rintro ⟨h1, h2⟩
    have : ∀ a, a ≤ 0x030 → a % 4 = 0 → (registerMap.lookup a).isSome = true := by decide
    exact this a h1 h2

/-- What an offset can name, by the window it lies in. -/
theorem mapped_cases {p : Params} {a : Nat} {t : Target} (h : mapped p a = some t) :
    (t = .buf (a - 0x10000) ∧ 0x10000 ≤ a ∧ a < 0x10000 + p.bufSize) ∨
      (t = .ctx ((a - 0x200) / 64) ((a - 0x200) % 64 / 4) ∧ 0x200 ≤ a ∧ a < 0x200 + 64 * p.nctx) ∨
      (t = .tag ((a - 0x040) / 4) ∧ 0x040 ≤ a ∧ a ≤ 0x04C) ∨ (a, t) ∈ registerMap := by
  unfold mapped at h
  split at h
  · split at h
    · cases h; exact .inl ⟨rfl, by assumption, by assumption⟩
    · cases h
  · split at h
    · split at h
      · cases h; exact .inr (.inl ⟨rfl, by assumption, by assumption⟩)
      · cases h
    · split at h
      · next hh => cases h; exact .inr (.inr (.inl ⟨rfl, hh⟩))
      · exact .inr (.inr (.inr (mem_of_lookup h)))

/-- BUF_SIZE is a multiple of 4. -/
theorem bufSize_mod (p : Params) : p.bufSize % 4 = 0 := by
  have := p.log2Buf_ge
  rw [Params.bufSize, show p.log2Buf = 2 + (p.log2Buf - 2) by omega, pow_add]; omega

/-- An offset below 0x040 names what the register map says. -/
theorem mapped_register (p : Params) {a : Nat} (h : a < 0x040) : mapped p a = registerMap.lookup a := by
  unfold mapped
  rw [if_neg (by omega), if_neg (by omega), if_neg (by omega)]

theorem mapped_tag (p : Params) {a : Nat} (h1 : 0x040 ≤ a) (h2 : a ≤ 0x04C) : mapped p a = some (.tag ((a - 0x040) / 4)) := by
  unfold mapped
  rw [if_neg (by omega), if_neg (by omega), if_pos ⟨h1, h2⟩]

theorem mapped_ctx (p : Params) {a : Nat} (h1 : 0x200 ≤ a) (h2 : a < 0x200 + 64 * p.nctx) :
    mapped p a = some (.ctx ((a - 0x200) / 64) ((a - 0x200) % 64 / 4)) := by
  have := p.nctx_le
  unfold mapped
  rw [if_neg (by omega), if_pos h1, if_pos h2]

theorem mapped_buf (p : Params) {a : Nat} (h1 : 0x10000 ≤ a) (h2 : a < 0x10000 + p.bufSize) :
    mapped p a = some (.buf (a - 0x10000)) := by
  unfold mapped
  rw [if_pos h1, if_pos h2]

/-- An aligned transaction to a mapped offset is accepted unless the core is busy and the offset is not open then. -/
theorem accepts_of_mapped {s : State} {f : Target → Bool} {a : BitVec 17} {t : Target} (h4 : a.toNat % 4 = 0)
    (hm : mapped s.cfg a.toNat = some t) (hb : s.pend = none ∨ f t = true) : s.accepts f a = some t := by
  unfold State.accepts
  rw [if_neg (by omega)]
  simp only [hm, State.busy]
  rcases hb with h | h <;> simp [h]

/-- An accepted Read32 as a step. -/
theorem step_read32 {s : State} {a : BitVec 17} {rest : List Turn} {t : Target} (h : s.schedule = .read32 a :: rest)
    (ha : s.accepts Target.readableWhileBusy a = some t) :
    step s = .next { s with schedule := rest, responses := .data (s.readTarget t) :: s.responses } := by
  have ha' : ({ s with schedule := rest } : State).accepts Target.readableWhileBusy a = some t := ha
  simp only [step, h, State.read32, ha']
  cases t <;> rfl

/-- An accepted Write32 as a step. -/
theorem step_write32 {s : State} {a : BitVec 17} {v : Word} {rest : List Turn} {t : Target}
    (h : s.schedule = .write32 a v :: rest) (ha : s.accepts Target.writableWhileBusy a = some t) :
    step s = .next ((({ s with schedule := rest } : State).writeTarget v t).respond .ok) := by
  have ha' : ({ s with schedule := rest } : State).accepts Target.writableWhileBusy a = some t := ha
  simp only [step, h, State.write32, ha']

end Sys2Proof.Machine
end

