-- ==== Sys2Proof/Laws/Engine.lean ====
section
/-!
SUPPORT. What the loop of `ProcessCore` (40_field_algebra.md R117) leaves: the counter,
    the bytes written and the running hash, in closed
form. The multiplication stays `mulH`, so that no lemma here depends on what the cache holds.
-/

namespace Sys2Proof.Machine

/-! ### Multiplications by the same key -/

/-- A fragment leaves the multiplication of its slot as it was. -/
theorem mulH_fragment (s : State) (E : Block → Block) (n : Nat) (mode : Mode) (src dst k : Nat) (hn : n < 8) (x : Block) :
    (s.fragment E n mode src dst k).mulH n x = s.mulH n x := by
  have hk : ((s.fragment E n mode src dst k).slot n).key = (s.slot n).key := by rw [slot_fragment_kept _ _ _ _ _ _ _ hn]
  rw [mulH_congr (s := s.ensureCache n) (cache_fragment _ _ _ _ _ _ _ hn) (by simpa using hk)]
  simp only [State.mulH, ensureCache_idem]

theorem mulH_fragments (E : Block → Block) (n : Nat) (mode : Mode) (c src dst len : Nat) (s : State) (hn : n < 8) (x : Block) :
    (State.fragments E n mode c src dst len s).mulH n x = s.mulH n x := by
  induction c generalizing src dst len s with
  | zero => rfl
  | succ c ih => rw [State.fragments, ih, mulH_fragment _ _ _ _ _ _ _ hn]

/-! ### One fragment -/

/-- The modes that write. -/
def Mode.writes : Mode → Bool
  | .aadm => false
  | .ivd => false
  | .enc => true
  | .dec => true

theorem ctr_fragment (s : State) (E : Block → Block) (n : Nat) (mode : Mode) (src dst k : Nat) (hn : n < 8) :
    ((s.fragment E n mode src dst k).slot n).ctr =
      if mode.writes then counterAt (s.slot n).ctr 1 else (s.slot n).ctr := by
  cases mode <;> simp only [State.fragment, Mode.writes]
  · simp [slot_absorb, hn]
  · simp [slot_payloadFragment, hn, inc32_eq]
  · simp [slot_payloadFragment, hn, inc32_eq]
  · simp [slot_absorb, hn]

/-- The bytes a fragment of ENC or DEC writes. -/
theorem bufByte_fragment_written (s : State) (E : Block → Block) (n : Nat) (mode : Mode) (src dst k i : Nat)
    (hm : mode.writes = true) (hi : i < k) (h16 : k ≤ 16) :
    (s.fragment E n mode src dst k).bufByte (dst + i) =
      s.bufByte (src + i) ^^^ Block.byte (E (counterAt (s.slot n).ctr 1)) i := by
  have key : ∀ (f : List Byte) (pick : List Byte → List Byte → List Byte), f = s.memRead src k →
      (s.payloadFragment E n dst f pick).bufByte (dst + i) =
        s.bufByte (src + i) ^^^ Block.byte (E (counterAt (s.slot n).ctr 1)) i := by
    intro f pick hf
    have e : (s.payloadFragment E n dst f pick).bufByte (dst + i) =
        ((s.stepCounter n).memWrite dst (ksXor f (E (inc32 (s.slot n).ctr)))).bufByte (dst + i) :=
      State.bufByte_congr (by simp [State.payloadFragment]) (by simp [State.payloadFragment]) _
    rw [e, State.bufByte_memWrite, if_pos (by subst hf; simp; omega), Nat.add_sub_cancel_left,
      getD_ksXor _ _ _ (by subst hf; simpa using hi) (by omega), hf, State.getD_memRead _ _ _ _ hi, inc32_eq]
  cases mode <;> simp only [State.fragment, Mode.writes, Bool.false_eq_true] at hm ⊢
  · exact key _ _ rfl
  · exact key _ _ rfl

/-- What a fragment hashes: ENC what it wrote, the other modes what they read. -/
theorem hash_fragment (s : State) (E : Block → Block) (n : Nat) (mode : Mode) (src dst k : Nat) (hn : n < 8) (h16 : k ≤ 16) :
    ((s.fragment E n mode src dst k).slot n).hash =
      s.mulH n ((s.slot n).hash ^^^
        Block.ofBytes (if mode = .enc then (s.fragment E n mode src dst k).memRead dst k else s.memRead src k)) := by
  cases mode <;> simp only [reduceCtorEq, if_false, if_true]
  · simp [State.fragment, slot_absorb, hn, xorPrefix]
  · have hw := fun i (hi : i < k) => bufByte_fragment_written s E n .enc src dst k i rfl hi h16
    simp only [State.fragment] at hw ⊢
    rw [slot_payloadFragment _ _ _ _ _ _ hn]
    simp only [xorPrefix]
    congr 2
    apply ofBytes_congr
    intro i hi
    by_cases h : i < k
    · rw [getD_ksXor _ _ _ (by simpa using h) hi, State.getD_memRead _ _ _ _ h, State.getD_memRead _ _ _ _ h, hw i h, inc32_eq]
    · rw [List.getD_eq_default _ _ (by simp; omega), List.getD_eq_default _ _ (by simp; omega)]
  · simp only [State.fragment]
    rw [slot_payloadFragment _ _ _ _ _ _ hn]
    simp [xorPrefix]
  · simp [State.fragment, slot_absorb, hn, xorPrefix]

/-! ### The loop -/

theorem ctr_fragments (E : Block → Block) (n : Nat) (mode : Mode) (c src dst len : Nat) (s : State) (hn : n < 8) :
    ((State.fragments E n mode c src dst len s).slot n).ctr =
      if mode.writes then counterAt (s.slot n).ctr c else (s.slot n).ctr := by
  induction c generalizing src dst len s with
  | zero => simp [State.fragments, counterAt_zero]
  | succ c ih =>
    rw [State.fragments, ih, ctr_fragment _ _ _ _ _ _ _ hn]
    split
    · rw [counterAt_add, Nat.add_comm]
    · rfl

/-- Every byte of the output range, in terms of the state before: the ranges equal or disjoint. -/
theorem bufByte_fragments_written (E : Block → Block) (n : Nat) (mode : Mode) (c src dst len i : Nat) (s : State)
    (hn : n < 8) (hc : 16 * c < len + 16) (hm : mode.writes = true)
    (ho : src = dst ∨ src + len ≤ dst ∨ dst + len ≤ src) (hi : i < len) (hic : i < 16 * c) :
    (State.fragments E n mode c src dst len s).bufByte (dst + i) =
      s.bufByte (src + i) ^^^ Block.byte (E (counterAt (s.slot n).ctr (i / 16 + 1))) (i % 16) := by
  induction c generalizing src dst len s i with
  | zero => omega
  | succ c ih =>
    rw [State.fragments]
    by_cases h16 : i < 16
    · rw [bufByte_fragments _ _ _ _ _ _ _ _ _ (by omega) (.inr (.inr (by omega))),
        bufByte_fragment_written _ _ _ _ _ _ _ _ hm (by omega) (by omega)]
      rw [show i / 16 = 0 by omega, show i % 16 = i by omega]
    · have := ih (src + 16) (dst + 16) (len - 16) (i - 16) (s.fragment E n mode src dst (min 16 len)) (by omega) (by omega)
        (by omega) (by omega)
      rw [show dst + 16 + (i - 16) = dst + i by omega, show src + 16 + (i - 16) = src + i by omega] at this
      rw [this, ctr_fragment _ _ _ _ _ _ _ hn, if_pos hm, counterAt_add,
          bufByte_fragment _ _ _ _ _ _ _ _ (.inr (.inr (by omega))),
        show 1 + ((i - 16) / 16 + 1) = i / 16 + 1 by omega, show (i - 16) % 16 = i % 16 by omega]

/-- The fold of `mulH` over Blocks: the running hash. -/
def hashFoldl (s : State) (n : Nat) (a : Block) (bs : List Block) : Block := bs.foldl (fun a b => s.mulH n (a ^^^ b)) a

/-- The Blocks of BUF[a .. a+len−1], `c` of them. -/
def chunks (s : State) (c a len : Nat) : List Block :=
  (List.range c).map (fun k => Block.ofBytes (s.memRead (a + 16 * k) (min 16 (len - 16 * k))))

theorem chunks_succ (s : State) (c a len : Nat) :
    chunks s (c + 1) a len = Block.ofBytes (s.memRead a (min 16 len)) :: chunks s c (a + 16) (len - 16) := by
  have h : ∀ k, a + 16 * (k + 1) = a + 16 + 16 * k ∧ len - 16 * (k + 1) = len - 16 - 16 * k := by omega
  simp only [chunks, List.range_succ_eq_map, List.map_cons, List.map_map, Function.comp_def, Nat.succ_eq_add_one, h,
    Nat.mul_zero, Nat.add_zero, Nat.sub_zero]

theorem chunks_congr {s t : State} {c a len : Nat} (h : ∀ i, i < len → s.bufByte (a + i) = t.bufByte (a + i)) :
    chunks s c a len = chunks t c a len := by
  refine List.map_congr_left (fun k _ => congrArg _ (State.memRead_congr (fun i hi => ?_)))
  rw [Nat.add_assoc]
  exact h _ (by omega)

theorem blocksOf_memRead (s : State) (a len : Nat) : blocksOf (s.memRead a len) = chunks s (fragmentCount len) a len := by
  simp only [blocksOf, State.length_memRead, chunks]
  refine List.map_congr_left (fun k hk => ofBytes_congr (fun i hi => ?_))
  have hk := List.mem_range.mp hk
  rw [List.getD, List.getElem?_drop, ← List.getD]
  by_cases h : 16 * k + i < len
  · rw [State.getD_memRead _ _ _ _ h, State.getD_memRead _ _ _ _ (by omega), Nat.add_assoc]
  · rw [List.getD_eq_default _ _ (by simp; omega), List.getD_eq_default _ _ (by simp; omega)]

/-- The loop's running hash: over what ENC leaves in the output range, over what the other modes found in the input range. -/
theorem hash_fragments (E : Block → Block) (n : Nat) (mode : Mode) (c src dst len : Nat) (s : State)
    (hn : n < 8) (hc : 16 * c < len + 16)
    (ho : mode = .dec → src = dst ∨ src + len ≤ dst ∨ dst + len ≤ src) :
    ((State.fragments E n mode c src dst len s).slot n).hash =
      hashFoldl s n (s.slot n).hash
        (if mode = .enc then chunks (State.fragments E n mode c src dst len s) c dst len else chunks s c src len) := by
  induction c generalizing src dst len s with
  | zero => simp [State.fragments, chunks, hashFoldl]
  | succ c ih =>
    have hf : ∀ x, (s.fragment E n mode src dst (min 16 len)).mulH n x = s.mulH n x :=
      mulH_fragment s E n mode src dst (min 16 len) hn
    have hlast : c ≠ 0 → ∀ x, x < dst + 16 →
        (State.fragments E n mode (c + 1) src dst len s).bufByte x =
          (s.fragment E n mode src dst (min 16 len)).bufByte x := fun _ x hx =>
      bufByte_fragments _ _ _ _ _ _ _ _ _ (by omega) (.inr (.inr (.inl hx)))
    have hfirst : (State.fragments E n mode (c + 1) src dst len s).memRead dst (min 16 len) =
        (s.fragment E n mode src dst (min 16 len)).memRead dst (min 16 len) := by
      by_cases hz : c = 0
      · subst hz; rfl
      · exact State.memRead_congr (fun i hi => hlast hz _ (by omega))
    have hsrc : mode ≠ .enc → chunks (s.fragment E n mode src dst (min 16 len)) c (src + 16) (len - 16) =
        chunks s c (src + 16) (len - 16) := fun hm => chunks_congr (fun i hi => bufByte_fragment _ _ _ _ _ _ _ _ (by
          cases mode
          · exact .inl rfl
          · exact absurd rfl hm
          · have := ho rfl; right; right; omega
          · exact .inr (.inl rfl)))
    rw [State.fragments, ih _ _ _ _ (by omega) (by intro h; have := ho h; omega), ← State.fragments]
    simp only [hashFoldl, hf, chunks_succ, hfirst]
    by_cases hm : mode = .enc
    · simp only [hm, if_true, List.foldl_cons]
      rw [hash_fragment _ _ _ _ _ _ _ hn (by omega), if_pos rfl]
    · simp only [hm, if_false, List.foldl_cons]
      rw [hash_fragment _ _ _ _ _ _ _ hn (by omega), if_neg hm, hsrc hm]

end Sys2Proof.Machine
end

