-- ==== Sys2Proof/Laws/Command.lean ====
section
/-!
SUPPORT. The commands: when one runs its body (60_exceptions.md R192 to R194), and what a body leaves of the slots, BUF, the
cache and the registers (41_key_iv.md, 42_process.md, 43_tag.md).
-/

namespace Sys2Proof.Machine

/-! ### States and slots -/

/-- Equal but for the slots, the cache, REBUILDS and BUF, and equal there too. -/
theorem State.ext_of_sameRest {s t : State} (h : SameRest s t) (h1 : t.ctx = s.ctx) (h2 : t.cache = s.cache) (h3 :
    t.rebuilds = s.rebuilds) (h4 : t.buf = s.buf) : t = s := by
  obtain ⟨a1,a2,a3,a4,a5,a6,a7,a8,a9,a10,a11,a12,a13,a14,a15,a16,a17,a18⟩ := h
  cases s; cases t; simp_all

theorem ctx_ext {s t : State} (h : ∀ n, n < 8 → t.slot n = s.slot n) : t.ctx = s.ctx := by
  apply Vector.ext
  intro i hi
  have := h i hi
  simpa [State.slot, hi] using this

theorem SameRest.frame {s t : State} (h : SameRest s t) : SameHostSide s t ∧ FaultRecordKept s t ∧ t.kstat = s.kstat ∧
    t.keyerr = s.keyerr ∧ t.freeCtr = s.freeCtr ∧ t.tagreg = s.tagreg :=
  ⟨⟨h.cfg, h.ie, h.done, h.lastcmd, h.src, h.dst, h.len, h.pend, h.bufEpoch, h.schedule, h.responses⟩, .inl ⟨h.fault,
      h.cause, h.faultcmd⟩, h.kstat, h.keyerr, h.freeCtr, h.tagreg⟩

theorem setSlot_self (s : State) (n : Nat) : s.setSlot n (s.slot n) = s := by
  apply State.ext_of_sameRest (sameRest_setSlot s n _) _ rfl rfl rfl
  apply ctx_ext
  intro m hm
  rw [State.slot_setSlot]; split
  · next h => rw [h.1]
  · rfl

theorem setSlot_setSlot (s : State) (n : Nat) (a b : Slot) : (s.setSlot n a).setSlot n b = s.setSlot n b := by
  refine State.ext_of_sameRest (s := s.setSlot n b) (t := (s.setSlot n a).setSlot n b) ?_ ?_ rfl rfl rfl
  · constructor <;> rfl
  · apply ctx_ext
    intro m hm
    rw [State.slot_setSlot, State.slot_setSlot, State.slot_setSlot]; split <;> rfl

theorem slot_setPhase_self (s : State) (n p) (hn : n < 8) : (s.setPhase n p).slot n = { s.slot n with phase := p } :=
    by simp [slot_setPhase, hn]

/-! ### Checks -/

theorem Accepted.lt8 {s p c n} (h : Accepted s p c n) : n < 8 := lt_of_lt_of_le h.2.2.1 s.cfg.nctx_le

/-- The conditions of `Accepted` pass every check. -/
theorem check_of_accepted {s : State} {p : Pending} {c : Command} {n : Nat} (h : Accepted s p c n) : s.check c n = none := by
  obtain ⟨h1, h2, h3, h4, h5, h6⟩ := h
  have ho := State.operands_of_pend h1
  unfold State.check
  rw [if_neg (by omega), if_neg (by simp [h4]), ho]
  rw [if_neg, if_neg, if_neg]
  · intro hh
    simp only [overlaps, Bool.and_eq_true, decide_eq_true_eq, bne_iff_ne, ne_eq] at hh
    obtain ⟨hw, ⟨⟨ha, hb⟩, hc⟩, hd⟩ := hh
    have h6 := (h6 hw).2
    rcases h6 with h | h | h | h <;> first | omega | exact hb h
  · simp only [Bool.and_eq_true, outOfBounds, decide_eq_true_eq, not_and]
    intro hw
    have := (h6 hw).1
    omega
  · simp only [Bool.and_eq_true, outOfBounds, decide_eq_true_eq, not_and]
    intro hw
    have := (h5 hw)
    omega

/-- An accepted command runs its body. -/
theorem run_of_accepted {s : State} {p : Pending} {c : Command} {n : Nat} (h : Accepted s p c n) (body : State → State) :
    s.runCommand (s.check c n) body = body s := by
  simp [State.runCommand, h.2.1, check_of_accepted h]

/-- What a command can do: nothing (rejected), the fault entry, or its body. -/
theorem run_cases (s : State) (c : Command) (n : Nat) (body : State → State) :
   (s.runCommand (s.check c n) body = s) ∨ (s.fault = false ∧ ∃ k, s.runCommand (s.check c n) body = s.raiseFault k) ∨
   (s.fault = false ∧ n < s.cfg.nctx ∧ s.runCommand (s.check c n) body = body s) := by
  unfold State.runCommand
  split
  · exact .inl rfl
  · next hf =>
    have hf : s.fault = false := by simpa using hf
    split
    · next k _ => exact .inr (.inl ⟨hf, k, rfl⟩)
    · next hk =>
      refine .inr (.inr ⟨hf, ?_, rfl⟩)
      by_contra hh
      rw [State.check, if_pos (by omega)] at hk
      simp at hk

/-- What the passed checks say. -/
theorem check_none {s : State} {c n} (h : s.check c n = none) : n < s.cfg.nctx ∧ c.legal (s.slot n).phase = true ∧
    (c.writesBuf = true → s.operands.dst.toNat + s.operands.len.toNat ≤ s.cfg.bufSize) := by
  unfold State.check at h
  split at h
  · cases h
  · next h1 =>
    split at h
    · cases h
    · next h2 =>
      split at h
      · cases h
      · split at h
        · cases h
        · next h4 =>
          refine ⟨by omega, by simpa using h2, fun hw => ?_⟩
          simp only [hw, Bool.true_and, outOfBounds, decide_eq_true_eq] at h4
          omega

theorem check_some_ne {s : State} {c n k} (h : s.check c n = some k) : k ≠ .none := by
  unfold State.check at h
  split_ifs at h <;> (cases h; simp)

theorem Accepted.disj {s : State} {p : Pending} {c n} (h : Accepted s p c n) (hw : c.writesBuf = true) :
    p.src.toNat = p.dst.toNat ∨ p.src.toNat + p.len.toNat ≤ p.dst.toNat ∨ p.dst.toNat + p.len.toNat ≤ p.src.toNat := by
  have := (h.2.2.2.2.2 hw).2
  rcases this with h | h | h | h
  · right; omega
  · left; rw [h]
  · right; left; exact h
  · right; right; exact h

/-! ### ProcessCore -/

theorem mulH_countBits (s : State) (n : Nat) (m : Mode) (k : Nat) (hn : n < 8) (x) :
    (s.countBits n m k).mulH n x = s.mulH n x :=
  mulH_congr (s := s) (t := s.countBits n m k) rfl (by simp [slot_countBits, hn]) x

theorem hashFoldl_congr {s t : State} {n : Nat} (h : ∀ x, s.mulH n x = t.mulH n x) (a bs) :
    hashFoldl s n a bs = hashFoldl t n a bs := by
  simp [hashFoldl, h]

theorem hash_processCore (s : State) (E) (n) (mode) (src dst len) (hn : n < 8)
    (ho : mode = .dec → src = dst ∨ src + len ≤ dst ∨ dst + len ≤ src) :
    ((s.processCore E n mode src dst len).slot n).hash = hashFoldl s n (s.slot n).hash (blocksOf
       (if mode = .enc then (s.processCore E n mode src dst len).memRead dst len else s.memRead src len)) := by
  rw [State.processCore, hash_fragments _ _ _ _ _ _ _ _ hn (fragmentCount_bound len) ho,
      hashFoldl_congr (mulH_countBits s n mode len hn)]
  have : ((s.countBits n mode len).slot n).hash = (s.slot n).hash := by simp [slot_countBits, hn]
  rw [this]
  split
  · rw [blocksOf_memRead]
  · rw [blocksOf_memRead]; rfl

/-- The slot after `ProcessCore` (40_field_algebra.md R117). -/
theorem slot_processCore (s : State) (E) (n) (mode) (src dst len) (hn : n < 8)
    (ho : mode = .dec → src = dst ∨ src + len ≤ dst ∨ dst + len ≤ src) :
    (s.processCore E n mode src dst len).slot n = { s.slot n with
      lens := countBits mode len (s.slot n).lens
      ctr := if mode.writes then counterAt (s.slot n).ctr (fragmentCount len) else (s.slot n).ctr
      hash := hashFoldl s n (s.slot n).hash (blocksOf
       (if mode = .enc then (s.processCore E n mode src dst len).memRead dst len else s.memRead src len)) } := by
  rw [← hash_processCore s E n mode src dst len hn ho]
  have h := slot_fragments_kept E n mode (fragmentCount len) src dst len (s.countBits n mode len) hn
  rw [ctr_fragments _ _ _ _ _ _ _ _ hn] at h
  simp only [slot_countBits, hn, and_self, if_true] at h
  exact h

/-- The output range after `ProcessCore` (R117). -/
theorem memRead_processCore (s : State) (E) (n) (mode) (src dst len) (hn : n < 8) (hm : mode.writes = true)
    (ho : src = dst ∨ src + len ≤ dst ∨ dst + len ≤ src) :
    (s.processCore E n mode src dst len).memRead dst len = ctrXor E (s.slot n).ctr (s.memRead src len) := by
  simp only [ctrXor, State.length_memRead]
  refine List.map_congr_left (fun i hi => ?_)
  have hi := List.mem_range.mp hi
  rw [State.processCore, bufByte_fragments_written _ _ _ _ _ _ _ _ _ hn (fragmentCount_bound len) hm ho hi (by unfold fragmentCount; omega),
    State.getD_memRead _ _ _ _ hi]
  simp only [slot_countBits, hn, and_self, if_true]
  rfl

theorem bufByte_processCore (s : State) (E) (n : Nat) (mode : Mode) (src dst len x : Nat)
    (h : mode = .aadm ∨ mode = .ivd ∨ x < dst ∨ dst + len ≤ x) :
    (s.processCore E n mode src dst len).bufByte x = s.bufByte x := by
  rw [State.processCore, bufByte_fragments _ _ _ _ _ _ _ _ _ (fragmentCount_bound len) h]; rfl

theorem slot_processCore_ne (s : State) (E) (n m : Nat) (mode : Mode) (src dst len : Nat) (h : m ≠ n) :
    (s.processCore E n mode src dst len).slot m = s.slot m := by
  rw [State.processCore, slot_fragments_ne _ _ _ _ _ _ _ _ _ h, State.countBits, State.slot_setSlot_ne _ _ _ _ h]

theorem slot_processCore_kept (s : State) (E) (n : Nat) (mode : Mode) (src dst len : Nat) (hn : n < 8) :
    ((s.processCore E n mode src dst len).slot n) = { s.slot n with
      lens := countBits mode len (s.slot n).lens
      ctr := if mode.writes then counterAt (s.slot n).ctr (fragmentCount len) else (s.slot n).ctr
      hash := ((s.processCore E n mode src dst len).slot n).hash } := by
  have h := slot_fragments_kept E n mode (fragmentCount len) src dst len (s.countBits n mode len) hn
  rw [ctr_fragments _ _ _ _ _ _ _ _ hn] at h
  simp only [slot_countBits, hn, and_self, if_true] at h
  exact h

theorem countBits_zero (s : State) (n m) : s.countBits n m 0 = s := by
  have : countBits m 0 (s.slot n).lens = (s.slot n).lens := by cases m <;> simp [countBits]
  rw [State.countBits, this]
  exact setSlot_self s n

/-- With len = 0 nothing is processed (42_process.md R160 to R162). -/
theorem processCore_zero (s : State) (E n m a b) : s.processCore E n m a b 0 = s := by
  rw [State.processCore, countBits_zero]; rfl

theorem buf_fragments (E) (n : Nat) (mode : Mode) (c src dst len N : Nat) (s : State) (hc : 16 * c < len + 16)
   (hd : mode.writes = true → dst + len ≤ N) (h1 : Memory.wf s.buf) (h2 : Memory.within s.buf N) :
    Memory.wf (State.fragments E n mode c src dst len s).buf ∧
        Memory.within (State.fragments E n mode c src dst len s).buf N := by
  induction c generalizing src dst len s with
  | zero => exact ⟨h1, h2⟩
  | succ c ih =>
    rw [State.fragments]
    have hf : Memory.wf (s.fragment E n mode src dst (min 16 len)).buf ∧ Memory.within
        (s.fragment E n mode src dst (min 16 len)).buf N := by
      cases mode <;> simp only [State.fragment, State.payloadFragment, State.absorb_buf, State.memWrite_buf,
          State.stepCounter_buf]
      · exact ⟨h1, h2⟩
      · exact ⟨Memory.wf_writeBytes _ h1 _, Memory.within_writeBytes _ h2 (by have := hd rfl; simp; omega)⟩
      · exact ⟨Memory.wf_writeBytes _ h1 _, Memory.within_writeBytes _ h2 (by have := hd rfl; simp; omega)⟩
      · exact ⟨h1, h2⟩
    by_cases hz : c = 0
    · subst hz; exact hf
    · exact ih _ _ _ _ (by omega) (fun hm => by have := hd hm; omega) hf.1 hf.2

/-- BUF stays in canonical form and inside its bound. -/
theorem buf_processCore (s : State) (E n mode src dst len N) (hd : mode.writes = true → dst + len ≤ N) (h1 :
    Memory.wf s.buf) (h2 : Memory.within s.buf N) :
   Memory.wf (s.processCore E n mode src dst len).buf ∧ Memory.within (s.processCore E n mode src dst len).buf N :=
  buf_fragments _ _ _ _ _ _ _ _ _ (fragmentCount_bound len) hd h1 h2

/-! ### The cache -/

theorem cacheStep_of {s t : State} (n) (h : (t.cache = s.cache ∧ t.rebuilds = s.rebuilds) ∨ (t.cache =
    (s.ensureCache n).cache ∧ t.rebuilds = (s.ensureCache n).rebuilds)) : CacheStep s t n := by
  rcases h with ⟨h1, h2⟩ | ⟨h1, h2⟩
  · exact .inl ⟨h1, h2⟩
  · rcases cacheStep_ensureCache s n with ⟨k1, k2⟩ | ⟨k0, k1, k2⟩
    · exact .inl ⟨h1.trans k1, h2.trans k2⟩
    · exact .inr ⟨k0, h1.trans k1, h2.trans k2⟩

theorem cache_fragments (E) (n : Nat) (mode : Mode) (c src dst len : Nat) (s : State) (hn : n < 8) :
    (State.fragments E n mode c src dst len s).cache = (if c = 0 then s.cache else (s.ensureCache n).cache) ∧
    (State.fragments E n mode c src dst len s).rebuilds = (if c = 0 then s.rebuilds else (s.ensureCache n).rebuilds) := by
  induction c generalizing src dst len s with
  | zero => exact ⟨rfl, rfl⟩
  | succ c ih =>
    rw [State.fragments, (ih _ _ _ _).1, (ih _ _ _ _).2]
    have h1 := cache_fragment s E n mode src dst (min 16 len) hn
    have h2 := rebuilds_fragment s E n mode src dst (min 16 len)
    have hv : (s.fragment E n mode src dst (min 16 len)).cache.validFor n = true := by rw [h1]; exact validFor_ensureCache s n
    rw [ensureCache_of_valid hv, h1, h2]
    simp

theorem cacheStep_processCore (s : State) (E n mode src dst len) (hn : n < 8) : CacheStep s
    (s.processCore E n mode src dst len) n := by
  have h := cache_fragments E n mode (fragmentCount len) src dst len (s.countBits n mode len) hn
  apply cacheStep_of
  rw [State.processCore, h.1, h.2]
  split
  · exact .inl ⟨rfl, rfl⟩
  · refine .inr ⟨ensureCache_cache_congr (s := s) rfl (by simp [slot_countBits, hn]), ?_⟩
    rw [ensureCache_rebuilds, ensureCache_rebuilds]; rfl

/-! ### SETIV, AAD, TAG -/

theorem sameRest_hashIv (s : State) (E n src len) : SameRest s (s.hashIv E n src len) :=
  ((sameRest_processCore s E n .ivd src 0 len).trans (sameRest_ensureCache _ n)).trans (sameRest_setSlot _ n _)

theorem sameRest_setiv (s : State) (C n) : SameRest s (s.setiv C n) := by
  rw [State.setiv]
  refine ((sameRest_setSlot s n _).trans (?_ : SameRest (s.startMessage n) _)).trans (sameRest_setPhase _ _ _)
  split
  · exact sameRest_setSlot _ n _
  · exact sameRest_hashIv _ _ _ _ _

theorem slot_setiv_ne (s : State) (C n m) (h : m ≠ n) : (s.setiv C n).slot m = s.slot m := by
  rw [State.setiv]
  rw [State.setPhase, State.slot_setSlot_ne _ _ _ _ h]
  have h0 : (s.startMessage n).slot m = s.slot m := State.slot_setSlot_ne _ _ _ _ h
  split
  · rw [State.copyIv, State.slot_setSlot_ne _ _ _ _ h, h0]
  · rw [State.hashIv]; simp only [State.slot_setSlot_ne _ _ _ _ h, State.slot_ensureCache,
      slot_processCore_ne _ _ _ _ _ _ _ _ h, h0]

theorem bufByte_setiv (s : State) (C n a) : (s.setiv C n).bufByte a = s.bufByte a := by
  rw [State.setiv]
  split
  · rfl
  · have : ∀ (t : State) E src len, (t.hashIv E n src len).bufByte a = t.bufByte a := by
      intro t E src len
      refine Eq.trans (State.bufByte_congr ?_ ?_ a) (bufByte_processCore t E n .ivd src 0 len a (.inr (.inl rfl))) <;> simp [State.hashIv]
    exact this (s.startMessage n) _ _ _

theorem slot_setiv_kept (s : State) (C n) (hn : n < 8) : ((s.setiv C n).slot n).key = (s.slot n).key ∧
    ((s.setiv C n).slot n).ciphst = (s.slot n).ciphst ∧
   ((s.setiv C n).slot n).hash = 0 ∧ ((s.setiv C n).slot n).lens = 0 ∧ ((s.setiv C n).slot n).phase = .ivready := by
  rw [State.setiv]
  rw [slot_setPhase_self _ _ _ hn]
  have h0 : (s.startMessage n).slot n = { s.slot n with hash := 0, lens := 0, ctr := counterOne } :=
      State.slot_setSlot_self _ _ _ hn
  split
  · have : ∀ t : State, ∀ src, (t.copyIv n src).slot n = _ := fun t src => State.slot_setSlot_self _ _ _ hn
    rw [this, h0]; simp
  · have : ∀ t : State, ∀ E src len, (t.hashIv E n src len).slot n = _ := fun t E src len => State.slot_setSlot_self _ _ _ hn
    rw [this, slot_processCore_kept _ _ _ _ _ _ _ hn, h0]
    simp

theorem cacheStep_setiv (s : State) (C n) (hn : n < 8) : CacheStep s (s.setiv C n) n := by
  have hs : (s.startMessage n).slot n = { s.slot n with hash := 0, lens := 0, ctr := counterOne } :=
      State.slot_setSlot_self s n _ hn
  rw [State.setiv]
  by_cases h12 : s.operands.len.toNat = 12
  · rw [if_pos h12]; exact .inl ⟨rfl, rfl⟩
  · rw [if_neg h12]
    have hp := cache_fragments (s.cipherE C n) n .ivd (fragmentCount s.operands.len.toNat) s.operands.src.toNat 0 s.operands.len.toNat ((s.startMessage n).countBits n .ivd s.operands.len.toNat) hn
    have hk : (((s.startMessage n).processCore
        (s.cipherE C n) n .ivd s.operands.src.toNat 0 s.operands.len.toNat).slot n).key = (s.slot n).key := by
      rw [slot_processCore_kept _ _ _ _ _ _ _ hn, hs]
    have he : ∀ t : State, (t.slot n).key = (s.slot n).key → CacheStep s t n → CacheStep s (t.ensureCache n) n := by
      intro t htk ht
      rcases ht with ⟨h1, h2⟩ | ⟨h0, h1, h2⟩
      · apply cacheStep_of
        right
        refine ⟨ensureCache_cache_congr h1 htk, ?_⟩
        rw [ensureCache_rebuilds, ensureCache_rebuilds, h1, h2]
      · rw [ensureCache_of_valid (by rw [h1]; exact validFor_build _ _ _)]
        exact .inr ⟨h0, h1, h2⟩
    have h1 : CacheStep s ((s.startMessage n).processCore
        (s.cipherE C n) n .ivd s.operands.src.toNat 0 s.operands.len.toNat) n := by
      have := cacheStep_processCore (s.startMessage n) (s.cipherE C n) n .ivd s.operands.src.toNat 0 s.operands.len.toNat hn
      rcases this with ⟨h1, h2⟩ | ⟨h0, h1, h2⟩
      · exact .inl ⟨h1, h2⟩
      · rw [hs] at h1; exact .inr ⟨h0, h1, h2⟩
    exact he _ hk h1

theorem sameRest_aad (s : State) (C n) : SameRest s (s.aad C n) := (sameRest_processCore s _ n .aadm _ _ _).trans
    (sameRest_setPhase _ _ _)

theorem slot_tag (s : State) (C n) (hn : n < 8) : (s.tag C n).slot n = { s.slot n with phase := .tagged } := by
    rw [State.tag, slot_setPhase_self _ _ _ hn]
    have : ∀ v : Block, ({ s.ensureCache n with tagreg := v } : State).slot n = (s.ensureCache n).slot n := fun _ => rfl
    rw [this]; simp

/-! ### SETKEY -/

/-- SETKEY ends in one of two ways (41_key_iv.md R140). -/
theorem setkey_cases (s : State) (C : Cipher) (n ciph) : (∃ st, s.setkey C n ciph =
    (s.clearSlot n).keyFailed n st) ∨ ∃ st cs, s.setkey C n ciph = (s.clearSlot n).keyReady C n st cs := by
  rw [State.setkey]
  split
  · exact .inl ⟨_, rfl⟩
  · exact .inr ⟨_, _, rfl⟩

theorem sameHostSide_keyFailed (s : State) (n st) : SameHostSide s ((s.clearSlot n).keyFailed n st) :=
    by constructor <;> simp [State.keyFailed, State.clearSlot]

theorem sameHostSide_keyReady (s : State) (C : Cipher) (n st cs) : SameHostSide s ((s.clearSlot n).keyReady C n st cs)
    := by constructor <;> simp [State.keyReady, State.clearSlot]

theorem slot_clearSlot_ne (s : State) (n m) (hm : m ≠ n) : (s.clearSlot n).slot m = s.slot m := State.slot_setSlot_ne s _ _ _ hm

theorem slot_keyFailed_ne (s : State) (n m st) (hm : m ≠ n) : ((s.clearSlot n).keyFailed n st).slot m = s.slot m :=
  (State.slot_setSlot_ne (s.clearSlot n) n m
    { (s.clearSlot n).slot n with ciphst := Config.freeCipherState (s.clearSlot n).freeCtr n } hm).trans
      (slot_clearSlot_ne s n m hm)

theorem slot_keyReady_ne (s : State) (C : Cipher) (n m st cs) (hm : m ≠ n) :
    ((s.clearSlot n).keyReady C n st cs).slot m = s.slot m := by
  rw [State.keyReady, State.setPhase, State.slot_setSlot_ne _ _ _ _ hm, State.slot_rebuild, State.slot_setSlot_ne _ _ _ _ hm]
  exact slot_clearSlot_ne s n m hm

/-! ### Every command -/

/-- The body of a command. -/
def commandBody (C : Cipher) : Instr → State → State
  | .setkey n k => fun s => s.setkey C n k
  | .setiv n => fun s => s.setiv C n
  | .aad n => fun s => s.aad C n
  | .encrypt n => fun s => s.encrypt C n
  | .decrypt n => fun s => s.decrypt C n
  | .tag n => fun s => s.tag C n

/-- Every command is its checks around its body. -/
theorem exec_eq (i : Instr) (s : State) : exec i s = .next (s.runCommand
    (s.check (commandOf i) i.ctx) (commandBody Config.cipher i)) := by
  cases i <;> rfl

/-- Only SETKEY writes KEY and CIPHST (10_state.md R26). -/
theorem key_body (i : Instr) (s : State) (hn : i.ctx < 8) (h : commandOf i ≠ .setkey) (m : Nat) :
    ((commandBody Config.cipher i s).slot m).key = (s.slot m).key ∧ ((commandBody Config.cipher i s).slot m).ciphst =
    (s.slot m).ciphst := by
  cases i <;> simp only [commandOf, ne_eq, not_true_eq_false, commandBody, Instr.ctx] at h hn ⊢
  · next n =>
    by_cases hm : m = n
    · subst hm; exact ⟨(slot_setiv_kept s _ _ hn).1, (slot_setiv_kept s _ _ hn).2.1⟩
    · rw [slot_setiv_ne _ _ _ _ hm]; exact ⟨rfl, rfl⟩
  · next n =>
    by_cases hm : m = n
    · subst hm; rw [State.aad, slot_setPhase_self _ _ _ hn, slot_processCore_kept _ _ _ _ _ _ _ hn]; exact ⟨rfl, rfl⟩
    · rw [State.aad, State.setPhase, State.slot_setSlot_ne _ _ _ _ hm, slot_processCore_ne _ _ _ _ _ _ _ _ hm]; exact ⟨rfl, rfl⟩
  · next n =>
    by_cases hm : m = n
    · subst hm; rw [State.encrypt, slot_setPhase_self _ _ _ hn, slot_processCore_kept _ _ _ _ _ _ _ hn]; exact ⟨rfl, rfl⟩
    · rw [State.encrypt, State.setPhase, State.slot_setSlot_ne _ _ _ _ hm,
        slot_processCore_ne _ _ _ _ _ _ _ _ hm]; exact ⟨rfl, rfl⟩
  · next n =>
    by_cases hm : m = n
    · subst hm; rw [State.decrypt, slot_setPhase_self _ _ _ hn, slot_processCore_kept _ _ _ _ _ _ _ hn]; exact ⟨rfl, rfl⟩
    · rw [State.decrypt, State.setPhase, State.slot_setSlot_ne _ _ _ _ hm,
        slot_processCore_ne _ _ _ _ _ _ _ _ hm]; exact ⟨rfl, rfl⟩
  · next n =>
    have hs : ∀ m, ({ s.ensureCache n with tagreg := s.hashFold n ^^^ s.cipherE Config.cipher n (initialCounter
        (s.slot n)) } : State).slot m = s.slot m := fun m => (State.slot_ensureCache s n m)
    by_cases hm : m = n
    · subst hm; rw [slot_tag _ _ _ hn]; exact ⟨rfl, rfl⟩
    · rw [State.tag, State.setPhase, State.slot_setSlot_ne _ _ _ _ hm, hs]; exact ⟨rfl, rfl⟩

theorem cacheStep_body (i : Instr) (s : State) (hn : i.ctx < 8) (h : commandOf i ≠ .setkey) :
    CacheStep s (commandBody Config.cipher i s) i.ctx := by
  cases i <;> simp only [commandOf, ne_eq, not_true_eq_false, commandBody, Instr.ctx] at h hn ⊢
  · exact cacheStep_setiv _ _ _ hn
  · next n => exact cacheStep_processCore s _ n .aadm _ _ _ hn
  · next n => exact cacheStep_processCore s _ n .enc _ _ _ hn
  · next n => exact cacheStep_processCore s _ n .dec _ _ _ hn
  · next n =>
    apply cacheStep_of; right; exact ⟨by simp [State.tag], by simp [State.tag]⟩

/-- A command other than SETKEY that multiplies leaves the cache valid for its slot (40_field_algebra.md R115, 70_reset_and_hazards.md
R231): TAG, SETIV of a length other than 12, and AAD, ENCRYPT and DECRYPT of some data. -/
theorem validFor_body (i : Instr) (s : State) (hn : i.ctx < 8) (h : commandOf i ≠ .setkey)
    (h12 : commandOf i = .setiv → s.operands.len.toNat ≠ 12)
    (h0 : commandOf i = .aad ∨ commandOf i = .encrypt ∨ commandOf i = .decrypt → s.operands.len.toNat ≠ 0) :
    (commandBody Config.cipher i s).cache.validFor i.ctx = true := by
  have hp : ∀ (E : Block → Block) (n : Nat) (m : Mode) (src dst : Nat), n < 8 → s.operands.len.toNat ≠ 0 →
      (s.processCore E n m src dst s.operands.len.toNat).cache.validFor n = true := by
    intro E n m src dst hn hl
    rw [State.processCore, (cache_fragments E n m _ src dst _ _ hn).1, if_neg (by unfold fragmentCount; omega)]
    exact validFor_ensureCache _ n
  cases i <;> simp only [commandOf, ne_eq, not_true_eq_false, commandBody, Instr.ctx, reduceCtorEq, or_false, or_true,
    forall_const] at h h12 h0 hn ⊢
  · rw [State.setiv, if_neg h12]
    exact validFor_ensureCache _ _
  · exact hp _ _ _ _ _ hn h0
  · exact hp _ _ _ _ _ hn h0
  · exact hp _ _ _ _ _ hn h0
  · exact validFor_ensureCache _ _

theorem sameRest_body (i : Instr) (s : State) (h : commandOf i ≠ .setkey) (h' : commandOf i ≠ .tag) :
    SameRest s (commandBody Config.cipher i s) := by
  cases i <;> simp only [commandOf, ne_eq, not_true_eq_false, commandBody] at h h' ⊢
  · exact sameRest_setiv _ _ _
  · exact sameRest_aad _ _ _
  · exact (sameRest_processCore s _ _ .enc _ _ _).trans (sameRest_setPhase _ _ _)
  · exact (sameRest_processCore s _ _ .dec _ _ _).trans (sameRest_setPhase _ _ _)

/-- No body touches the host's side or the fault record. -/
theorem host_body (i : Instr) (s : State) : SameHostSide s (commandBody Config.cipher i s) ∧
    (commandBody Config.cipher i s).fault = s.fault ∧ (commandBody Config.cipher i s).cause = s.cause ∧
    (commandBody Config.cipher i s).faultcmd = s.faultcmd := by
  by_cases h : commandOf i = .setkey
  · cases i <;> simp only [commandOf, reduceCtorEq] at h
    simp only [commandBody]
    rcases setkey_cases s Config.cipher ‹_› ‹_› with ⟨st, e⟩ | ⟨st, cs, e⟩ <;> rw [e]
    · exact ⟨sameHostSide_keyFailed _ _ _, by simp [State.keyFailed, State.clearSlot]⟩
    · exact ⟨sameHostSide_keyReady _ _ _ _ _, by simp [State.keyReady, State.clearSlot]⟩
  · by_cases h' : commandOf i = .tag
    · cases i <;> simp only [commandOf, reduceCtorEq] at h'
      simp only [commandBody]
      exact ⟨by constructor <;> simp [State.tag], by simp [State.tag]⟩
    · have := sameRest_body i s h h'
      exact ⟨this.frame.1, this.fault, this.cause, this.faultcmd⟩

/-! ### The sequencer and the soft reset -/

theorem step_of_sequencerTurn {s : State} {rest : List Turn} (h : SequencerTurn s rest) : step s = ({ s with schedule :=
    rest } : State).sequencerStep := by
  rcases h with h | ⟨h, rfl⟩
  · simp only [step, h]
  · simp only [step, h]; congr 1; cases s; simp_all

theorem sequencerStep_of_pend {s : State} {p : Pending} (hp : s.pend = some p) : s.sequencerStep =
    match s.execute with
    | .next t => .next t.finish
    | .fault r => .fault r
    | .refused r => .refused r := by
  unfold State.sequencerStep; split
  · simp_all
  · rfl

theorem execute_of_ok {s : State} {i : Instr} (hd : decode s.operands.word = .ok i) : s.execute = exec i s := by
  rw [State.execute, hd]

theorem execute_of_error {s : State} {e} (hd : decode s.operands.word = .error e) : s.execute = .next (s.runCommand
    (some (causeOf e)) id) := by
  rw [State.execute, hd]

theorem softReset_eq (u : State) : (u.pend = none ∧ u.softReset = u.resetCore) ∨ ∃ p, u.pend = some p ∧
    u.softReset = (u.abandonPending p).resetCore := by
  unfold State.softReset
  split
  · next h => exact .inl ⟨h, rfl⟩
  · next p h => exact .inr ⟨p, h, rfl⟩

theorem sameRest_abandonPending (u : State) (p) : SameRest u (u.abandonPending p) := by
  unfold State.abandonPending; split
  · exact sameRest_memWrite _ _ _
  · exact SameRest.refl _

end Sys2Proof.Machine
end

