-- ==== Sys2Proof/Laws/PerInstr.lean ====
section
/-!
SUPPORT. One statement per constructor of `Instr`, for case splits over the commands.
-/

namespace Sys2Proof

/-- OP of the opcode map (30_encoding.md R92). -/
def Instr.opcode : Instr → Nat
  | .setkey _ _ => 1
  | .setiv _ => 2
  | .aad _ => 3
  | .encrypt _ => 4
  | .decrypt _ => 5
  | .tag _ => 6

/-- The cipher id a command carries; 0 for every command but SETKEY (R90). -/
def Instr.cipherId : Instr → BitVec 4
  | .setkey _ k => k
  | .setiv _ => 0
  | .aad _ => 0
  | .encrypt _ => 0
  | .decrypt _ => 0
  | .tag _ => 0

/-- The value of a command word from its fields: `OP | s<<4 | ciph<<8` (30_encoding.md R95). -/
theorem toNat_commandWord (k : BitVec 4) (c : Nat) (hc : c < 8) (op : BitVec 4) :
    (commandWord k c op).toNat = op.toNat + 16 * c + 256 * k.toNat := by
  have h : ∀ k op : BitVec 4, ∀ c : Fin 8,
      (commandWord k c.val op).toNat = op.toNat + 16 * c.val + 256 * k.toNat := by decide +kernel
  exact h k op ⟨c, hc⟩

namespace Laws.CommandWord

/-- The word of a well-formed command is `OP | s<<4 | ciph<<8`, no other bit set (30_encoding.md R95). -/
def Statement (i : Instr) : Prop :=
  i.wellFormed = true → (encode i).toNat = i.opcode + 16 * i.ctx + 256 * i.cipherId.toNat

theorem setkey (ctx : Nat) (ciph : BitVec 4) : Statement (.setkey ctx ciph) := fun h =>
  toNat_commandWord ciph ctx (by simpa [Instr.wellFormed] using h) 1

theorem setiv (ctx : Nat) : Statement (.setiv ctx) := fun h =>
  toNat_commandWord 0 ctx (by simpa [Instr.wellFormed] using h) 2

theorem aad (ctx : Nat) : Statement (.aad ctx) := fun h =>
  toNat_commandWord 0 ctx (by simpa [Instr.wellFormed] using h) 3

theorem encrypt (ctx : Nat) : Statement (.encrypt ctx) := fun h =>
  toNat_commandWord 0 ctx (by simpa [Instr.wellFormed] using h) 4

theorem decrypt (ctx : Nat) : Statement (.decrypt ctx) := fun h =>
  toNat_commandWord 0 ctx (by simpa [Instr.wellFormed] using h) 5

theorem tag (ctx : Nat) : Statement (.tag ctx) := fun h =>
  toNat_commandWord 0 ctx (by simpa [Instr.wellFormed] using h) 6

end Laws.CommandWord

end Sys2Proof
end

