-- ==== Sys2Proof/Tests/Slice0.lean ====
section
/-!
SUPPORT. The model's own tests, each about one step or one function, with values taken from 95_test_vectors.md or counted out from the
encodings of 30_encoding.md; and, for each statement with hypotheses, a theorem `test_meets_<statement>` that shows states and operands
meeting all of them together.
-/

namespace Sys2Proof.Tests

open Sys2Proof.Machine

/-! ### Well-formedness: the slot number has three bits (30_encoding.md R90) -/

theorem test_setkey_slot_range : (Instr.setkey 8 0).wellFormed = false ∧ (Instr.setkey 7 15).wellFormed = true := by decide

theorem test_setiv_slot_range : (Instr.setiv 8).wellFormed = false ∧ (Instr.setiv 7).wellFormed = true := by decide

theorem test_aad_slot_range : (Instr.aad 8).wellFormed = false ∧ (Instr.aad 7).wellFormed = true := by decide

theorem test_encrypt_slot_range : (Instr.encrypt 8).wellFormed = false ∧ (Instr.encrypt 7).wellFormed = true := by decide

theorem test_decrypt_slot_range : (Instr.decrypt 8).wellFormed = false ∧ (Instr.decrypt 7).wellFormed = true := by decide

theorem test_tag_slot_range : (Instr.tag 8).wellFormed = false ∧ (Instr.tag 7).wellFormed = true := by decide

/-! ### Decoding: words written out bit by bit from R90 and the opcode map of R92 -/

theorem test_decode_setkey : decode 0b00000000000000000000101000110001#32 = .ok (.setkey 3 10) := by decide

theorem test_decode_setiv : decode 0b00000000000000000000000001000010#32 = .ok (.setiv 4) := by decide

theorem test_decode_aad : decode 0b00000000000000000000000000010011#32 = .ok (.aad 1) := by decide

theorem test_decode_encrypt : decode 0b00000000000000000000000000100100#32 = .ok (.encrypt 2) := by decide

theorem test_decode_decrypt : decode 0b00000000000000000000000001010101#32 = .ok (.decrypt 5) := by decide

theorem test_decode_tag : decode 0b00000000000000000000000001110110#32 = .ok (.tag 7) := by decide

theorem test_decode_illegal : decode 0x0#32 = .error .illegalOp ∧ decode 0x7#32 = .error .illegalOp ∧
    decode 0xFFFFFFFF#32 = .error .illegalOp := by decide

/-- Bit 7, bit 12, bit 31, and CIPH on a command other than SETKEY (R93). -/
theorem test_decode_reserved : decode 0x81#32 = .error .reservedField ∧ decode 0x1001#32 = .error .reservedField ∧
    decode 0x80000006#32 = .error .reservedField ∧ decode 0x102#32 = .error .reservedField := by decide

theorem test_encode_words : encode (.setkey 3 10) = 0xA31 ∧ encode (.setiv 4) = 0x42 ∧ encode (.aad 1) = 0x13 ∧
    encode (.encrypt 2) = 0x24 ∧ encode (.decrypt 5) = 0x55 ∧ encode (.tag 7) = 0x76 := by decide

theorem test_table_word : decodeTableWord 32 0x301 = some (.setkey 0 3) ∧ decodeTableWord 32 0 = none ∧
    decodeTableWord 64 0x301 = none := by decide

/-! ### The datapath: 95_test_vectors.md 3.3 to 3.7 -/

/-- H0, the hash key of the all-zero AES-128 key. -/
def h0 : Block := 0x66e94bd4ef8a2c3b884cfa59ca342b2e

theorem test_mulX : mulX h0 = 0x3374a5ea77c5161dc4267d2ce51a1597#128 ∧ mulX 1 = 0xe1000000000000000000000000000000#128 := by
  decide

theorem test_rev8 : rev8 0x01 = 0x80#8 ∧ rev8 0x13 = 0xC8#8 := by decide

theorem test_mulX8_as_mulX : xTimes 8 0x000000000000000000000000000000ff = 0xbebe0000000000000000000000000000#128 ∧
    xTimes 8 0x80000000000000000000000000000000 = 0x00800000000000000000000000000000#128 := by decide +kernel

theorem test_reduction_entries : reductionEntry 0x01 = 0x01C2#16 ∧ reductionEntry 0x80 = 0xE100#16 ∧
    reductionEntry 0xF0 = 0xB5E0#16 := by decide +kernel

theorem test_product : gmul 0x0388dace60b6a392f328c2b971b2fe78 h0 = 0x5e2ec746917062882c85b0685353deb7#128 := by decide +kernel

theorem test_inc32 : inc32 0x000000000000000000000000ffffffff = 0#128 ∧
    inc32 0xcafebabefacedbaddecaf888fffffffe = 0xcafebabefacedbaddecaf888ffffffff#128 := by decide

theorem test_payloadBlocks : payloadBlocks 120 = 1 ∧ payloadBlocks 136 = 2 ∧ payloadBlocks 480 = 4 ∧
    payloadBlocks 0x8000000080 = 1 := by decide

/-- Eight iterations of Rebuild's loop, those whose index has one bit, lead from H to `x^7•H` and from R[0x80] to R[0x01]. -/
theorem test_rebuild_entries :
    let c := [1, 2, 4, 8, 16, 32, 64, 128].foldl (Cache.buildEntry h0) Cache.reset
    c.mAt 0x80 = h0 ∧ c.mAt 0x01 = 0x6575d297a9df1458771099f4b3946856#128 ∧ c.rAt 0x01 = 0x01C2#16 := by decide +kernel

/-- The tables of h0 summed bit by bit: M[b] over `x^j•H`, R[b] over 0xE100 shifted right (the linearity 3.3 states). -/
def h0Cache : Cache :=
  { m := ⟨⟨(List.range 256).map (fun b => (List.range 8).foldl
        (fun z j => if (BitVec.ofNat 8 b).getMsbD j then z ^^^ xTimes j h0 else z) 0)⟩, by simp⟩
    r := ⟨⟨(List.range 256).map (fun b => (List.range 8).foldl
        (fun z j => if (BitVec.ofNat 8 b).getMsbD j then z ^^^ (0xE100#16 >>> j) else z) 0)⟩, by simp⟩
    valid := true, tag := 0 }

theorem test_mulX8 : h0Cache.mulX8 0x0102030405060708090a0b0c0d0e0f10 = 0x1c2102030405060708090a0b0c0d0e0f#128 := by
  decide +kernel

theorem test_mulH : h0Cache.mul 0x5e2ec746917062882c85b0685353dff7 = 0x88097101782f0adbccb54920f4fa8717#128 := by decide +kernel

/-! ### States for the tests -/

/-- A slot keyed with H0 after SETIV of 12 zero bytes, in phase `ph`. -/
def zeroSlot (ph : Phase) : Slot := { hash := 0, lens := 0, ctr := 1, key := h0, phase := ph, ciphst := [] }

/-- Every slot as `zeroSlot ph`, the command `w` pending with its operands, the cache not valid. -/
def pending (ph : Phase) (w src dst len : Word) : State :=
  { State.reset with
    pend := some { word := w, src := src, dst := dst, len := len }
    lastcmd := w, src := src, dst := dst, len := len
    ctx := Vector.replicate 8 (zeroSlot ph) }

/-- The same with the bytes `bs` in BUF from address `a`, and the cache valid for slot 0 with H0's tables. -/
def loaded (ph : Phase) (w src dst len : Word) (a : Nat) (bs : List Byte) : State :=
  { (pending ph w src dst len).memWrite a bs with cache := h0Cache }

/-- The adapter of the AES-128 all-zero key, as far as the vectors of 95_test_vectors.md use it: 16 key bytes are accepted, any other
number is refused with status 1. -/
def table : Cipher where
  setKey _ k := if k.length = 16 then (0, []) else (1, [])
  enc _ b :=
    if b = 0 then h0
    else if b = 1 then 0x58e2fccefa7e3061367f1d57a4e7455a
    else if b = 2 then 0x0388dace60b6a392f328c2b971b2fe78
    else 0

/-! ### Commands: 95_test_vectors.md 4 to 7 -/

theorem test_setkey_succeeds :
    let t := (pending .uninit 0x1 0 0 16).setkey table 0 0
    (t.slot 0).key = h0 ∧ (t.slot 0).ctr = 1 ∧ (t.slot 0).phase = .keyed ∧ t.rebuilds = 1 ∧ t.cacheWord = 0x100#32 := by
  decide +kernel

/-- A failure on the cached slot 0 invalidates the cache, a failure on slot 1 keeps it (95_test_vectors.md 4). -/
theorem test_setkey_fails :
    let t := (loaded .data 0x1 0 0 15 0 []).setkey table 0 0
    t.keyerr = true ∧ t.kstatWord = 1 ∧ (t.slot 0).bytes = List.replicate 64 0 ∧ t.phaseWord = 0x4440#32 ∧
      t.cacheWord = 0 ∧ t.rebuilds = 0 ∧ ((loaded .data 0x11 0 0 15 0 []).setkey table 1 0).cacheWord = 0x100#32 := by
  decide +kernel

theorem test_setiv_copies :
    let t := (loaded .data 0x2 4 0 12 4
      [0xca, 0xfe, 0xba, 0xbe, 0xfa, 0xce, 0xdb, 0xad, 0xde, 0xca, 0xf8, 0x88]).setiv table 0
    (t.slot 0).ctr = 0xcafebabefacedbaddecaf88800000001#128 ∧ (t.slot 0).phase = .ivready ∧ t.rebuilds = 0 := by
  decide +kernel

/-- The one-byte IV 80 under K0, 95_test_vectors.md 5.2. -/
theorem test_setiv_hashes :
    let t := (loaded .keyed 0x2 0 0 1 0 [0x80]).setiv table 0
    (t.slot 0).ctr = 0x764f75db139bde0b63979c5aa5295206#128 ∧ (t.slot 0).hash = 0 ∧ (t.slot 0).lens = 0 := by
  decide +kernel

theorem test_aad_counts_bits :
    let t := (loaded .ivready 0x3 256 0 20 256 []).aad table 0
    (t.slot 0).lens = 0x00000000000000a00000000000000000#128 ∧ (t.slot 0).ctr = 1 ∧ (t.slot 0).phase = .aad := by
  decide +kernel

/-- One zero block in place under K0, 95_test_vectors.md 6.2. -/
theorem test_encrypt_in_place :
    let t := (loaded .ivready 0x4 1024 1024 16 1024 (List.replicate 16 0)).encrypt table 0
    Block.ofBytes (t.memRead 1024 16) = 0x0388dace60b6a392f328c2b971b2fe78#128 ∧
      (t.slot 0).hash = 0x5e2ec746917062882c85b0685353deb7#128 ∧ (t.slot 0).lens = 0x80 ∧ (t.slot 0).ctr = 2 ∧
      (t.slot 0).phase = .data := by
  decide +kernel

/-- A last fragment of three bytes steps the counter once and writes three bytes. -/
theorem test_encrypt_partial :
    let t := (loaded .aad 0x4 0 16 3 0 [0, 0, 0, 0]).encrypt table 0
    t.buf = [(0, 0), (1, 0), (2, 0), (3, 0), (16, 0x03), (17, 0x88), (18, 0xda)] ∧ (t.slot 0).lens = 24 ∧
      (t.slot 0).ctr = 2 := by
  decide +kernel

theorem test_decrypt_in_place :
    let t := (loaded .ivready 0x5 1024 1024 16 1024 (Block.toBytes 0x0388dace60b6a392f328c2b971b2fe78)).decrypt table 0
    t.memRead 1024 16 = List.replicate 16 0 ∧ (t.slot 0).hash = 0x5e2ec746917062882c85b0685353deb7#128 ∧
      (t.slot 0).lens = 0x80 ∧ (t.slot 0).ctr = 2 := by
  decide +kernel

/-- The empty message under K0 and 12 zero bytes: the tag is E(1). -/
theorem test_tag_of_nothing :
    let t := (loaded .ivready 0x6 0 0 0 0 []).tag table 0
    t.tagreg = 0x58e2fccefa7e3061367f1d57a4e7455a#128 ∧ t.slot 0 = zeroSlot .tagged := by
  decide +kernel

/-- The tag of one zero block under K0 and 12 zero bytes, from the slot `test_encrypt_in_place` leaves. -/
theorem test_tag_of_a_block :
    let s := (loaded .data 0x6 0 0 0 0 []).setSlot 0
      { zeroSlot .data with hash := 0x5e2ec746917062882c85b0685353deb7, lens := 0x80, ctr := 2 }
    (s.tag table 0).tagreg = 0xab6e47d42cec13bdf53a67b21257bddf#128 := by
  decide +kernel

/-! ### Steps -/

/-- SETIV of an UNINIT slot right after reset faults SEQUENCE: STATUS 0x406. -/
theorem test_step_fetches : (match step (State.reset.withFetchWord 32 0x2) with
    | .next t => t.statusWord == 0x406#32 && t.faultcmd == 2#32
    | _ => false) = true := by decide +kernel

/-- A word that is no command: STATUS 0x106. -/
theorem test_step_illegal : (match step (State.reset.withFetchWord 32 0x7) with
    | .next t => t.statusWord == 0x106#32
    | _ => false) = true := by decide +kernel

/-- The bounds of 95_test_vectors.md 6.1 and 6.3. -/
theorem test_check_bounds : (pending .ivready 0x3 4096 0 0).check .aad 0 = none ∧
    (pending .ivready 0x3 4097 0 0).check .aad 0 = some .bounds ∧
    (pending .ivready 0x4 0xFFFFFFF0 2048 0x20).check .encrypt 0 = some .bounds ∧
    (pending .ivready 0x4 0 4090 16).check .encrypt 0 = some .bounds := by decide

theorem test_check_overlap : (pending .ivready 0x4 1024 1040 16).check .encrypt 0 = none ∧
    (pending .ivready 0x4 1040 1024 16).check .encrypt 0 = none ∧
    (pending .ivready 0x4 1024 1039 16).check .encrypt 0 = some .overlap ∧
    (pending .ivready 0x4 1024 1030 0).check .encrypt 0 = none := by decide

/-- ID and CFG read as 10_state.md R36 and R37 say; BUF_SIZE 4096 gives 0xC04. -/
theorem test_read_identity : State.reset.read32 0x000 = { State.reset with responses := [.data 0x47434D31] } ∧
    State.reset.read32 0x004 = { State.reset with responses := [.data 0x00000C04] } := by decide +kernel

/-- A write of CTRL = 3 resets and discards IE (10_state.md R38). -/
theorem test_soft_reset_discards_enable :
    ((pending .data 0x4 0 0 16).write32 0x008 3).ie = false ∧ ((pending .data 0x4 0 0 16).write32 0x008 3).pend = none := by
  decide

/-! ### Every statement's hypotheses are met -/

/-- `s` with a command pending and no turn scheduled, or the sequencer's turn first, is the sequencer's to move. -/
theorem turn_empty (ph : Phase) (w src dst len : Word) : SequencerTurn (pending ph w src dst len) [] := .inr ⟨rfl, rfl⟩

theorem turn_first (s : State) (rest : List Turn) : SequencerTurn { s with schedule := .sequencer :: rest } rest := .inl rfl

/-- A cache that is not valid meets R32. -/
theorem cacheOk_of_invalid {s : State} (h : s.cache.valid = false) : CacheOk s := fun h' => by rw [h] at h'; cases h'

theorem cacheOk_pending (ph : Phase) (w src dst len : Word) : CacheOk (pending ph w src dst len) := cacheOk_of_invalid rfl

theorem accepted_setkey : Accepted (pending .uninit 0x1 0 0 16) ⟨0x1, 0, 0, 16⟩ .setkey 0 :=
  ⟨rfl, rfl, by decide, rfl, by decide, by decide⟩

/-- The last slot, the last byte of BUF. -/
theorem accepted_setiv : Accepted (pending .tagged 0x32 4084 0 12) ⟨0x32, 4084, 0, 12⟩ .setiv 3 :=
  ⟨rfl, rfl, by decide, rfl, by decide, by decide⟩

theorem accepted_setiv_other : Accepted (pending .keyed 0x2 0 0 60) ⟨0x2, 0, 0, 60⟩ .setiv 0 :=
  ⟨rfl, rfl, by decide, rfl, by decide, by decide⟩

theorem accepted_aad : Accepted (pending .aad 0x3 4076 0 20) ⟨0x3, 4076, 0, 20⟩ .aad 0 :=
  ⟨rfl, rfl, by decide, rfl, by decide, by decide⟩

/-- In place. -/
theorem accepted_encrypt : Accepted (pending .data 0x4 1024 1024 60) ⟨0x4, 1024, 1024, 60⟩ .encrypt 0 :=
  ⟨rfl, rfl, by decide, rfl, by decide, by decide⟩

/-- The two ranges adjacent, either way round. -/
theorem accepted_encrypt_adjacent : Accepted (pending .ivready 0x4 1024 1040 16) ⟨0x4, 1024, 1040, 16⟩ .encrypt 0 ∧
    Accepted (pending .ivready 0x4 1040 1024 16) ⟨0x4, 1040, 1024, 16⟩ .encrypt 0 :=
  ⟨⟨rfl, rfl, by decide, rfl, by decide, by decide⟩, ⟨rfl, rfl, by decide, rfl, by decide, by decide⟩⟩

theorem accepted_decrypt : Accepted (pending .data 0x15 0 4036 60) ⟨0x15, 0, 4036, 60⟩ .decrypt 1 :=
  ⟨rfl, rfl, by decide, rfl, by decide, by decide⟩

theorem accepted_tag : Accepted (pending .data 0x6 0 0 0) ⟨0x6, 0, 0, 0⟩ .tag 0 :=
  ⟨rfl, rfl, by decide, rfl, by decide, by decide⟩

theorem test_meets_StepRunsTheDecodedCommand :
    ∃ s t p i rest, s.pend = some p ∧ SequencerTurn s rest ∧ decode p.word = .ok i ∧
      exec i { s with schedule := rest } = .next t ∧ s.schedule ≠ [] :=
  ⟨{ pending .data 0x6 0 0 0 with schedule := [.sequencer, .rst] }, _, ⟨0x6, 0, 0, 0⟩, .tag 0, [.rst], rfl, .inl rfl,
    by decide, rfl, by decide⟩

/-- Each cause of R192, and words with none failing. -/
theorem test_meets_ChecksDecideTheStep :
    SequencerTurn (pending .data 0x4 0 0 0) [] ∧ (pending .data 0x4 0 0 0).fault = false ∧
    checkR192 (pending .data 0x7 0 0 0) ⟨0x7, 0, 0, 0⟩ = some .illegalOp ∧
    checkR192 (pending .data 0x84 0 0 0) ⟨0x84, 0, 0, 0⟩ = some .reservedField ∧
    checkR192 (pending .data 0x104 0 0 0) ⟨0x104, 0, 0, 0⟩ = some .reservedField ∧
    checkR192 (pending .data 0x44 0 0 0) ⟨0x44, 0, 0, 0⟩ = some .badSlot ∧
    checkR192 (pending .data 0x3 0 0 0) ⟨0x3, 0, 0, 0⟩ = some .sequence ∧
    checkR192 (pending .data 0x4 4081 0 16) ⟨0x4, 4081, 0, 16⟩ = some .bounds ∧
    checkR192 (pending .data 0x4 0 4081 16) ⟨0x4, 0, 4081, 16⟩ = some .bounds ∧
    checkR192 (pending .data 0x4 0 15 16) ⟨0x4, 0, 15, 16⟩ = some .overlap ∧
    checkR192 (pending .data 0x4 0 16 16) ⟨0x4, 0, 16, 16⟩ = none ∧
    checkR192 (pending .uninit 0xF31 4080 0 16) ⟨0xF31, 4080, 0, 16⟩ = none :=
  ⟨turn_empty _ _ _ _ _, by decide, by decide, by decide, by decide, by decide, by decide, by decide, by decide, by decide,
    by decide, by decide⟩

theorem test_meets_RejectedCommandHasNoEffect :
    ∃ s p rest, s.pend = some p ∧ SequencerTurn s rest ∧ s.fault = true :=
  ⟨{ pending .data 0x1 0 0 16 with fault := true, cause := .overlap }, ⟨0x1, 0, 0, 16⟩, [], rfl, .inr ⟨rfl, rfl⟩, rfl⟩

theorem test_meets_SequencerStepCompletes : ∃ s p rest, s.pend = some p ∧ SequencerTurn s rest :=
  ⟨pending .data 0xFFFFFFFF 0 0 16, ⟨0xFFFFFFFF, 0, 0, 16⟩, [], rfl, turn_empty _ _ _ _ _⟩

theorem test_meets_IdleCoreKeepsItsState : ∃ s : State, s.pend = none ∧ s.schedule = [] ∧ s.done = true :=
  ⟨{ State.reset with done := true }, rfl, rfl, rfl⟩

theorem test_meets_AcceptedCommandRuns :
    Accepted (pending .uninit 0x1 0 0 16) ⟨0x1, 0, 0, 16⟩ (commandOf (.setkey 0 0)) 0 ∧
    Accepted (pending .tagged 0x32 4084 0 12) ⟨0x32, 4084, 0, 12⟩ (commandOf (.setiv 3)) 3 ∧
    Accepted (pending .aad 0x3 4076 0 20) ⟨0x3, 4076, 0, 20⟩ (commandOf (.aad 0)) 0 ∧
    Accepted (pending .data 0x4 1024 1024 60) ⟨0x4, 1024, 1024, 60⟩ (commandOf (.encrypt 0)) 0 ∧
    Accepted (pending .data 0x15 0 4036 60) ⟨0x15, 0, 4036, 60⟩ (commandOf (.decrypt 1)) 1 ∧
    Accepted (pending .data 0x6 0 0 0) ⟨0x6, 0, 0, 0⟩ (commandOf (.tag 0)) 0 :=
  ⟨accepted_setkey, accepted_setiv, accepted_aad, accepted_encrypt, accepted_decrypt, accepted_tag⟩

theorem test_meets_FaultedCommandIsPrecise :
    (pending .data 0x44 0 0 0).fault = false ∧ (pending .data 0x44 0 0 0).check .encrypt 4 = some .badSlot ∧
    (pending .keyed 0x6 0 0 0).check .tag 0 = some .sequence ∧ (pending .uninit 0x1 4081 0 16).check .setkey 0 = some .bounds ∧
    (pending .data 0x5 0 15 16).check .decrypt 0 = some .overlap := by decide

theorem test_meets_SetkeyLoadsTheKeyOrReportsFailure :
    ∃ s p n, Accepted s p .setkey n := ⟨_, _, _, accepted_setkey⟩

theorem test_meets_SetivDerivesTheInitialCounter :
    (∃ s p n, CacheOk s ∧ Accepted s p .setiv n ∧ p.len = 12) ∧ ∃ s p n, CacheOk s ∧ Accepted s p .setiv n ∧ p.len ≠ 12 :=
  ⟨⟨_, _, _, cacheOk_pending _ _ _ _ _, accepted_setiv, by decide⟩,
    ⟨_, _, _, cacheOk_pending _ _ _ _ _, accepted_setiv_other, by decide⟩⟩

theorem test_meets_AadCountsAndHashesItsData : ∃ s p n, CacheOk s ∧ Accepted s p .aad n :=
  ⟨_, _, _, cacheOk_pending _ _ _ _ _, accepted_aad⟩

theorem test_meets_EncryptWritesAndHashesTheCiphertext :
    (∃ s p n, CacheOk s ∧ Accepted s p .encrypt n ∧ p.src = p.dst) ∧ ∃ s p n, CacheOk s ∧ Accepted s p .encrypt n ∧ p.src ≠ p.dst :=
  ⟨⟨_, _, _, cacheOk_pending _ _ _ _ _, accepted_encrypt, by decide⟩,
    ⟨_, _, _, cacheOk_pending _ _ _ _ _, accepted_encrypt_adjacent.1, by decide⟩⟩

theorem test_meets_DecryptWritesThePlaintextAndHashesTheCiphertext : ∃ s p n, CacheOk s ∧ Accepted s p .decrypt n :=
  ⟨_, _, _, cacheOk_pending _ _ _ _ _, accepted_decrypt⟩

theorem test_meets_TagFoldsTheHashUnderTheRewoundCounter : ∃ s p n, CacheOk s ∧ Accepted s p .tag n :=
  ⟨_, _, _, cacheOk_pending _ _ _ _ _, accepted_tag⟩

theorem test_meets_EmptyDataOnlyMovesThePhase :
    Accepted (pending .ivready 0x3 4096 0 0) ⟨0x3, 4096, 0, 0⟩ (commandOf (.aad 0)) 0 ∧
    Accepted (pending .aad 0x4 4096 4096 0) ⟨0x4, 4096, 4096, 0⟩ (commandOf (.encrypt 0)) 0 ∧
    Accepted (pending .data 0x5 0 4096 0) ⟨0x5, 0, 4096, 0⟩ (commandOf (.decrypt 0)) 0 :=
  ⟨⟨rfl, rfl, by decide, rfl, by decide, by decide⟩, ⟨rfl, rfl, by decide, rfl, by decide, by decide⟩,
    ⟨rfl, rfl, by decide, rfl, by decide, by decide⟩⟩

theorem test_meets_ZeroIvAfterSetkeyOnlyMovesThePhase :
    ∃ s p n, Accepted s p .setiv n ∧ p.len = 12 ∧ s.memRead p.src.toNat 12 = List.replicate 12 0 ∧ (s.slot n).hash = 0 ∧
      (s.slot n).lens = 0 ∧ (s.slot n).ctr = 1#128 ∧ (s.slot n).phase = .keyed :=
  ⟨loaded .keyed 0x2 0 0 12 0 (List.replicate 12 0), ⟨0x2, 0, 0, 12⟩, 0,
    ⟨rfl, rfl, by decide, rfl, by decide, by decide⟩, by decide, by decide +kernel, by decide, by decide, by decide, by decide⟩

theorem test_meets_FrameOfCommandsThatStoreNothing :
    (∃ s t, exec (.setkey 0 0) s = .next t ∧ (Command.setkey).writesBuf = false) ∧
    (∃ s t, exec (.setiv 3) s = .next t ∧ (Command.setiv).writesBuf = false) ∧
    (∃ s t, exec (.aad 0) s = .next t ∧ (Command.aad).writesBuf = false) ∧
    ∃ s t, exec (.tag 0) s = .next t ∧ (Command.tag).writesBuf = false :=
  ⟨⟨pending .uninit 0x1 0 0 16, _, exec_eq _ _, rfl⟩, ⟨pending .tagged 0x32 4084 0 12, _, exec_eq _ _, rfl⟩,
    ⟨pending .aad 0x3 4076 0 20, _, exec_eq _ _, rfl⟩, ⟨pending .data 0x6 0 0 0, _, exec_eq _ _, rfl⟩⟩

theorem test_meets_FrameOfEncryptAndDecrypt :
    (∃ s t, exec (.encrypt 0) s = .next t ∧ (Command.encrypt).writesBuf = true) ∧
    ∃ s t, exec (.decrypt 1) s = .next t ∧ (Command.decrypt).writesBuf = true :=
  ⟨⟨pending .data 0x4 1024 1024 60, _, exec_eq _ _, rfl⟩, ⟨pending .data 0x15 0 4036 60, _, exec_eq _ _, rfl⟩⟩

/-- A SETKEY; the two kinds of command that never rebuild; one that misses the cache; one that hits it. -/
theorem test_meets_CommandRebuildsAtMostOnce :
    (∃ s t p, Accepted s p .setkey 0 ∧ exec (.setkey 0 0) s = .next t) ∧
    (∃ s t p, Accepted s p .setiv 3 ∧ exec (.setiv 3) s = .next t ∧ p.len = 12) ∧
    (∃ s t p, Accepted s p .aad 0 ∧ exec (.aad 0) s = .next t ∧ p.len = 0) ∧
    (∃ s t p, Accepted s p .encrypt 0 ∧ exec (.encrypt 0) s = .next t ∧ p.len ≠ 0 ∧ s.cache.valid = false) ∧
    ∃ s t p, Accepted s p .tag 0 ∧ exec (.tag 0) s = .next t ∧ s.cache.valid = true ∧ s.cache.tag.toNat = 0 :=
  ⟨⟨_, _, _, accepted_setkey, exec_eq _ _⟩, ⟨_, _, _, accepted_setiv, exec_eq _ _, by decide⟩,
    ⟨_, _, _, test_meets_EmptyDataOnlyMovesThePhase.1, exec_eq _ _, by decide⟩,
    ⟨_, _, _, accepted_encrypt, exec_eq _ _, by decide, rfl⟩,
    ⟨loaded .data 0x6 0 0 0 0 [], _, ⟨0x6, 0, 0, 0⟩, ⟨rfl, rfl, by decide, rfl, by decide, by decide⟩, exec_eq _ _, rfl, rfl⟩⟩

/-- Both schedules occur; the boundaries of the map at the default configuration; the registers open while BUSY. -/
theorem test_meets_BusErrorExactlyWhenRefused :
    (∃ s a rest, State.schedule s = .read32 a :: rest) ∧ (∃ s a v rest, State.schedule s = .write32 a v :: rest) ∧
    (∀ a ∈ [0x000, 0x030, 0x040, 0x04C, 0x200, 0x2FC, 0x10000, 0x10FFC], MappedOffset Params.standard a) ∧
    (∀ a ∈ [0x034, 0x03C, 0x050, 0x1FC, 0x300, 0xFFFC, 0x11000, 0x1FFFC], ¬ MappedOffset Params.standard a) ∧
    (0x001#17).toNat % 4 ≠ 0 ∧ (pending .data 0x6 0 0 0).pend ≠ none ∧ 0x00C ∈ [0x008, 0x00C] ∧ 0x010 ∉ [0x008, 0x00C] :=
  ⟨⟨{ State.reset with schedule := [.read32 0x034] }, _, _, rfl⟩,
    ⟨{ State.reset with schedule := [.write32 0x010 1] }, _, _, _, rfl⟩, by decide, by decide, by decide, by decide, by decide,
    by decide⟩

/-- A read, and a step that is none of the three kinds, with a command pending and without one. -/
theorem test_meets_OnlyWritesStepsAndResetsChangeTheCore :
    ∃ s t : State, step s = .next t ∧ s.schedule = [.read32 0x00C] ∧ (∀ a v rest, s.schedule ≠ .write32 a v :: rest) ∧
      (∀ rest, s.schedule ≠ .rst :: rest) ∧ s.pend ≠ none ∧ ∀ rest, ¬ SequencerTurn s rest := by
  refine ⟨{ pending .data 0x6 0 0 0 with schedule := [.read32 0x00C] }, _, rfl, rfl, by simp, by simp, by decide, ?_⟩
  rintro rest (h | ⟨h, -⟩) <;> simp at h

theorem test_meets_CmdWriteLatchesTheCommand :
    ∃ s v rest, State.schedule s = .write32 0x010 v :: rest ∧ s.pend = none :=
  ⟨{ State.reset with schedule := [.write32 0x010 0xFFFFFFFF] }, _, _, rfl, rfl⟩

theorem test_meets_ControlWritesSetEnableAndClearDone :
    (∃ s v rest, State.schedule s = .write32 0x008 v :: rest ∧ v.getLsbD 1 = false ∧ s.pend ≠ none) ∧
    ∃ s v rest, State.schedule s = .write32 0x00C v :: rest ∧ v.getLsbD 1 = true ∧ s.done = true :=
  ⟨⟨{ pending .data 0x6 0 0 0 with schedule := [.write32 0x008 5] }, _, _, rfl, by decide, by decide⟩,
    ⟨{ State.reset with done := true, schedule := [.write32 0x00C 2] }, _, _, rfl, by decide, rfl⟩⟩

/-- BUSY = 0, for the statements whose only hypothesis it is. -/
theorem test_meets_OperandAndResultRegisters : ∃ s : State, s.pend = none ∧ s.src = 0xFFFFFFFF ∧ s.tagreg = h0 :=
  ⟨{ State.reset with src := 0xFFFFFFFF, tagreg := h0 }, rfl, rfl, rfl⟩

/-- A register, and the first and the last word of the context window. -/
theorem test_meets_ReadOnlyRegistersIgnoreWrites : ∀ a ∈ [0x02C#17, 0x04C#17, 0x200#17, 0x2FC#17],
    ∃ s v rest, State.schedule s = .write32 a v :: rest ∧ s.pend = none ∧
      (a.toNat ∈ [0x000, 0x004, 0x020, 0x024, 0x028, 0x02C, 0x030, 0x040, 0x044, 0x048, 0x04C] ∨
        (a.toNat % 4 = 0 ∧ 0x200 ≤ a.toNat ∧ a.toNat ≤ 0x200 + 64 * s.cfg.nctx - 4)) := by
  intro a ha
  refine ⟨{ State.reset with schedule := [.write32 a 1] }, _, _, rfl, rfl, ?_⟩
  rw [show ({ State.reset with schedule := [.write32 a 1] } : State).cfg.nctx = 4 from rfl]
  revert a; simp

/-- An existing slot in the phase of the highest code, and a slot that does not exist. -/
theorem test_meets_StatusRegistersReadTheirFields : ∃ s : State, s.pend = none ∧ (s.slot 3).phase = .tagged ∧ ¬ 4 < s.cfg.nctx :=
  ⟨{ pending .tagged 0 0 0 0 with pend := none }, rfl, by decide, by decide⟩

theorem test_meets_ContextWindowReadsTheSlotBytes :
    ∃ s : State, s.pend = none ∧ 0 < s.cfg.nctx ∧ 3 < s.cfg.nctx ∧ (s.slot 3).key = h0 :=
  ⟨{ pending .tagged 0 0 0 0 with pend := none }, rfl, by decide, by decide, by decide⟩

theorem test_meets_BufferWindowIsBigEndian : ∃ s : State, s.pend = none ∧ 4092 % 4 = 0 ∧ 4092 < s.cfg.bufSize :=
  ⟨State.reset, rfl, by decide, by decide⟩

theorem test_meets_HardwareResetSetsTheResetValues : ∃ s rest, State.schedule s = .rst :: rest ∧ s.pend ≠ none :=
  ⟨{ pending .data 0x4 0 0 16 with schedule := [.rst] }, _, rfl, by decide⟩

/-- A soft reset with an ENCRYPT pending whose output range runs past the end of BUF, with a byte inside the range and one outside. -/
theorem test_meets_SoftResetKeepsTheBuffer :
    ∃ s v rest p, State.schedule s = .write32 0x008 v :: rest ∧ v.getLsbD 1 = true ∧ s.pend = some p ∧ p.word.toNat % 16 = 4 ∧
      (p.dst.toNat ≤ 4095 ∧ 4095 < p.dst.toNat + p.len.toNat ∧ 4095 < s.cfg.bufSize) ∧
      ¬(p.dst.toNat ≤ 4079 ∧ 4079 < p.dst.toNat + p.len.toNat ∧ 4079 < s.cfg.bufSize) :=
  ⟨{ pending .data 0x4 0 4080 32 with schedule := [.write32 0x008 3] }, _, _, ⟨0x4, 0, 4080, 32⟩, rfl, by decide, rfl,
    by decide, by decide, by decide⟩

/-- The step of a pending command answers a next state. -/
theorem step_of_command {s : State} {p : Pending} {i : Instr} {rest : List Turn} (hp : s.pend = some p)
    (ht : SequencerTurn s rest) (hd : decode p.word = .ok i) : ∃ t, step s = .next t := by
  have hp' : ({ s with schedule := rest } : State).pend = some p := hp
  rw [step_of_sequencerTurn ht, sequencerStep_of_pend hp',
    execute_of_ok (i := i) (by rw [State.operands_of_pend hp']; exact hd), exec_eq]
  exact ⟨_, rfl⟩

/-- A core with the SETKEY of an empty slot pending meets the invariant and steps. -/
theorem test_meets_StepKeepsInvariant : ∃ s t : State, Inv s ∧ step s = .next t ∧ s.pend ≠ none := by
  let s : State := { State.reset with ie := true, lastcmd := 1, len := 16, pend := some ⟨1, 0, 0, 16⟩ }
  have hs : ∀ n, n < 4 → s.slot n = Slot.reset := by decide
  obtain ⟨t, ht⟩ := step_of_command (s := s) (i := .setkey 0 0) rfl (.inr ⟨rfl, rfl⟩) (by decide)
  refine ⟨s, t, ⟨by simp [s, State.reset, State.powerOn, Memory.wf], by simp [s, State.reset, State.powerOn, Memory.within],
    cacheOk_of_invalid rfl, ?_, ?_, ?_, fun _ => ⟨rfl, rfl⟩, fun h => (by cases h), by decide, ?_⟩, ht, by decide⟩
  · intro n hn _; rw [hs n hn]; exact ⟨rfl, rfl, rfl, rfl⟩
  · intro n hn h; rw [hs n hn] at h; exact absurd rfl h
  · intro n hn _; rw [hs n hn]; exact ⟨rfl, rfl⟩
  · intro p hp; cases hp; exact ⟨rfl, rfl⟩

theorem test_meets_OnlySetkeyWritesTheHashKey :
    ∃ s t : State, step s = .next t ∧ (t.slot 0).key ≠ (s.slot 0).key :=
  ⟨{ pending .data 0 0 0 0 with schedule := [.rst] }, _, rfl, by decide⟩

theorem test_meets_OnlyAResetLeavesTheFaultState :
    ∃ s t : State, s.fault = true ∧ step s = .next t ∧ ¬ ResetTurn s ∧ s.pend ≠ none := by
  refine ⟨{ pending .data 0x6 0 0 0 with fault := true, cause := .bounds }, _, rfl, rfl, ?_, by decide⟩
  rintro ⟨rest, h | ⟨v, -, h⟩⟩ <;> simp [pending, State.reset, State.powerOn] at h

/-- A sequencer step, a write of STATUS and a reset each change DONE. -/
theorem test_meets_DoneAndIrqChangeOnlyAtStepsWritesAndResets :
    (∃ s t : State, step s = .next t ∧ t.done ≠ s.done ∧ s.schedule = []) ∧
    (∃ s t : State, step s = .next t ∧ t.done ≠ s.done ∧ s.schedule = [.write32 0x00C 2]) ∧
    ∃ s t : State, step s = .next t ∧ t.irq ≠ s.irq ∧ s.schedule = [.rst] :=
  ⟨⟨pending .data 0x7 0 0 0, _, rfl, by decide, rfl⟩,
    ⟨{ State.reset with done := true, schedule := [.write32 0x00C 2] }, _, rfl, by decide, rfl⟩,
    ⟨{ State.reset with done := true, ie := true, schedule := [.rst] }, _, rfl, by decide, rfl⟩⟩

/-- Two slots of two states that differ in another slot and in the phase. -/
theorem test_meets_TagDependsOnlyOnItsSlot :
    ∃ s s' t t' p p' n n', CacheOk s ∧ CacheOk s' ∧ Accepted s p .tag n ∧ Accepted s' p' .tag n' ∧
      (s'.slot n').hash = (s.slot n).hash ∧ (s'.slot n').lens = (s.slot n).lens ∧ (s'.slot n').ctr = (s.slot n).ctr ∧
      (s'.slot n').key = (s.slot n).key ∧ (s'.slot n').ciphst = (s.slot n).ciphst ∧
      exec (.tag n) s = .next t ∧ exec (.tag n') s' = .next t' ∧ n ≠ n' :=
  ⟨pending .data 0x6 0 0 0, (pending .tagged 0x16 5 5 5).setSlot 0 Slot.reset, _, _, ⟨0x6, 0, 0, 0⟩, ⟨0x16, 5, 5, 5⟩, 0, 1,
    cacheOk_of_invalid rfl, cacheOk_of_invalid rfl, accepted_tag, ⟨rfl, rfl, by decide, rfl, by decide, by decide⟩, by decide, by decide,
    by decide, by decide, by decide, exec_eq _ _, exec_eq _ _, by decide⟩

/-- The second TAG runs on a core whose cache is not valid, with the slot as the first one left it. -/
theorem test_meets_RepeatedTagGivesTheSameTag :
    ∃ s t u v p p' n, CacheOk s ∧ CacheOk u ∧ Accepted s p .tag n ∧ exec (.tag n) s = .next t ∧ u.slot n = t.slot n ∧
      Accepted u p' .tag n ∧ exec (.tag n) u = .next v := by
  refine ⟨pending .data 0x6 0 0 0, _, pending .tagged 0x6 0 0 0, _, ⟨0x6, 0, 0, 0⟩, ⟨0x6, 0, 0, 0⟩, 0, cacheOk_pending _ _ _ _ _,
    cacheOk_pending _ _ _ _ _, accepted_tag, exec_eq _ _, ?_, ⟨rfl, rfl, by decide, rfl, by decide, by decide⟩, exec_eq _ _⟩
  refine Eq.trans ?_ (congrArg (fun u => State.slot u 0) (run_of_accepted accepted_tag (commandBody Config.cipher (.tag 0)))).symm
  exact (slot_tag (pending .data 0x6 0 0 0) Config.cipher 0 (by decide)).symm

/-- The receiver's BUF holds what the sender's ENCRYPT left. -/
theorem test_meets_DecryptUndoesEncrypt :
    ∃ s s' t t' p p' n n', CacheOk s ∧ CacheOk s' ∧ Accepted s p .encrypt n ∧ Accepted s' p' .decrypt n' ∧
      s'.slot n' = s.slot n ∧ p'.len = p.len ∧ exec (.encrypt n) s = .next t ∧
      s'.memRead p'.src.toNat p.len.toNat = t.memRead p.dst.toNat p.len.toNat ∧ exec (.decrypt n') s' = .next t' := by
  obtain ⟨t, ht⟩ : ∃ t, exec (.encrypt 0) (pending .data 0x4 1024 1024 60) = .next t := ⟨_, exec_eq _ _⟩
  have hr : Accepted (pending .data 0x15 1024 1024 60) ⟨0x15, 1024, 1024, 60⟩ .decrypt 1 :=
    ⟨rfl, rfl, by decide, rfl, by decide, by decide⟩
  have hslot : (pending .data 0x15 1024 1024 60).slot 1 = (pending .data 0x4 1024 1024 60).slot 0 := by decide
  exact ⟨pending .data 0x4 1024 1024 60, { pending .data 0x15 1024 1024 60 with buf := t.buf, bufEpoch := t.bufEpoch }, t, _,
    ⟨0x4, 1024, 1024, 60⟩, ⟨0x15, 1024, 1024, 60⟩, 0, 1, cacheOk_pending _ _ _ _ _, cacheOk_of_invalid rfl, accepted_encrypt,
    hr, hslot, rfl, ht,
    State.memRead_congr fun _ _ => State.bufByte_congr rfl rfl _, exec_eq _ _⟩

/-- 17 bytes, split after 16, for each of the three commands. -/
theorem test_meets_SplitAtAMultipleOfSixteenChangesNothing :
    Accepted (pending .data 0x5 0 0 17) ⟨0x5, 0, 0, 17⟩ (commandOf (.decrypt 0)) 0 ∧
    Accepted (pending .data 0x4 0 0 17) ⟨0x4, 0, 0, 17⟩ (commandOf (.encrypt 0)) 0 ∧
    Accepted (pending .aad 0x3 0 0 17) ⟨0x3, 0, 0, 17⟩ (commandOf (.aad 0)) 0 ∧ (17#32).toNat = 16 + 1 ∧ 16 % 16 = 0 :=
  ⟨⟨rfl, rfl, by decide, rfl, by decide, by decide⟩, ⟨rfl, rfl, by decide, rfl, by decide, by decide⟩,
    ⟨rfl, rfl, by decide, rfl, by decide, by decide⟩, by decide, by decide⟩

theorem test_meets_PayloadKeepsTheRewoundCounter :
    ∃ s t p, Accepted s p (commandOf (.encrypt 0)) 0 ∧ (Block.databits (s.slot 0).lens).toNat % 128 = 0 ∧
      exec (.encrypt 0) s = .next t :=
  ⟨_, _, _, accepted_encrypt, by decide, exec_eq _ _⟩

/-- 20 bytes of AAD at the end of BUF, 60 bytes encrypted in place. -/
theorem test_meets_MessageTagIsTheStandardTag :
    ∃ (s : State) (n : Nat) (srcA lenA src dst len : Word), CacheOk s ∧ s.fault = false ∧ n < s.cfg.nctx ∧
      (s.slot n).phase = .ivready ∧ (s.slot n).hash = 0 ∧ (s.slot n).lens = 0 ∧
      srcA.toNat + lenA.toNat ≤ s.cfg.bufSize ∧ src.toNat + len.toNat ≤ s.cfg.bufSize ∧
      dst.toNat + len.toNat ≤ s.cfg.bufSize ∧
      (src = dst ∨ src.toNat + len.toNat ≤ dst.toNat ∨ dst.toNat + len.toNat ≤ src.toNat) :=
  ⟨pending .ivready 0 0 0 0, 3, 4076, 20, 1024, 1024, 60, cacheOk_pending _ _ _ _ _, by decide, by decide, by decide, by decide,
    by decide, by decide, by decide, by decide, by decide⟩

/-- For the statements about MulH and HashFold: a state with a keyed slot, its hash and counts zero. -/
theorem test_meets_MulHAndHashFold :
    ∃ s : State, CacheOk s ∧ 3 < s.cfg.nctx ∧ (s.slot 3).hash = 0 ∧ (s.slot 3).lens = 0 ∧ (s.slot 3).key = h0 :=
  ⟨pending .data 0 0 0 0, cacheOk_pending _ _ _ _ _, by decide, by decide, by decide, by decide⟩

/-- RebuildBuildsBothTables at the last slot number, ByteLanesAreIndependent at the longest byte string. -/
theorem test_meets_RebuildAndByteLanes : (7 < 8 ∧ ¬ 8 < 8) ∧ (Block.toBytes h0).length ≤ 16 := by decide

end Sys2Proof.Tests
end

namespace Sys2Proof.Machine

/-! ### Support for the proofs: what one step can do

Each step is one turn of the total order of 20_memory.md R71. `StepTo` names the kinds of turn once; the statements about all steps
split on it.
-/

/-- `t` is what one turn leaves of `s`, by the kind of turn. -/
inductive StepTo (s : State) : State → Prop where
  /-- The sequencer moves with PEND empty. -/
  | idle (rest : List Turn) (turn : SequencerTurn s rest) (empty : s.pend = none) : StepTo s { s with schedule := rest }
  /-- The sequencer performs the command in PEND. -/
  | command (rest : List Turn) (p : Pending) (u : State) (turn : SequencerTurn s rest) (full : s.pend = some p)
      (run : ({ s with schedule := rest } : State).execute = .next u) : StepTo s u.finish
  | read (rest : List Turn) (a : BitVec 17) (r : Response) (turn : s.schedule = .read32 a :: rest) :
      StepTo s (({ s with schedule := rest } : State).respond r)
  | write (rest : List Turn) (a : BitVec 17) (v : Word) (turn : s.schedule = .write32 a v :: rest) :
      StepTo s (({ s with schedule := rest } : State).write32 a v)
  | rst (rest : List Turn) (turn : s.schedule = .rst :: rest) :
      StepTo s ({ s with schedule := rest } : State).hardReset

/-- `Execute(PEND)` is the fault entry for a word that is no command, or the checks of its command around the body (R97). -/
theorem execute_cases (s : State) :
    (∃ e, s.execute = .next (s.runCommand (some (causeOf e)) id)) ∨
      ∃ i, decode s.operands.word = .ok i ∧
        s.execute = .next (s.runCommand (s.check (commandOf i) i.ctx) (commandBody Config.cipher i)) := by
  cases hd : decode s.operands.word with
  | error e => exact .inl ⟨e, execute_of_error hd⟩
  | ok i => exact .inr ⟨i, rfl, (execute_of_ok hd).trans (exec_eq i s)⟩

/-- With PEND empty the sequencer's turn changes nothing (20_memory.md R67). -/
theorem sequencerStep_of_empty {s : State} (h : s.pend = none) : s.sequencerStep = .next s := by
  unfold State.sequencerStep
  split
  · rfl
  · simp_all

theorem stepTo_of_sequencerTurn {s t : State} {rest : List Turn} (turn : SequencerTurn s rest) (h : step s = .next t) :
    StepTo s t := by
  rw [step_of_sequencerTurn turn] at h
  cases hp : s.pend with
  | none =>
    rw [sequencerStep_of_empty (s := { s with schedule := rest }) hp] at h
    cases h
    exact .idle rest turn hp
  | some p =>
    rw [sequencerStep_of_pend (s := { s with schedule := rest }) hp] at h
    cases hx : ({ s with schedule := rest } : State).execute with
    | next u =>
      rw [hx] at h
      cases h
      exact .command rest p u turn hp hx
    | fault r => cases r
    | refused r => rw [hx] at h; cases h

/-- A Read32 only answers the host (20_memory.md R69). -/
theorem read32_eq_respond (s : State) (a : BitVec 17) : ∃ r, s.read32 a = s.respond r := by
  unfold State.read32
  split
  · exact ⟨_, rfl⟩
  · exact ⟨_, rfl⟩

/-- A Write32 is refused without effect, or accepted (20_memory.md R61). -/
theorem write32_cases (s : State) (a : BitVec 17) (v : Word) :
    s.write32 a v = s.respond .busError ∨
      ∃ t, s.accepts Target.writableWhileBusy a = some t ∧ s.write32 a v = (s.writeTarget v t).respond .ok := by
  unfold State.write32
  split
  · exact .inl rfl
  · next t ha => exact .inr ⟨t, ha, rfl⟩

/-- The inversion of `step`. -/
theorem stepTo_of_step {s t : State} (h : step s = .next t) : StepTo s t := by
  cases hs : s.schedule with
  | nil => exact stepTo_of_sequencerTurn (.inr ⟨hs, rfl⟩) h
  | cons turn rest =>
    cases turn with
    | sequencer => exact stepTo_of_sequencerTurn (.inl hs) h
    | read32 a =>
      obtain ⟨r, hr⟩ := read32_eq_respond { s with schedule := rest } a
      simp only [step, hs, hr] at h
      cases h
      exact .read rest a r hs
    | write32 a v =>
      simp only [step, hs] at h
      cases h
      exact .write rest a v hs
    | rst =>
      simp only [step, hs] at h
      cases h
      exact .rst rest hs

/-! ### Accepted transactions -/

/-- What acceptance says: aligned, mapped, and open to the host as things stand (20_memory.md R62, R66, R67). -/
theorem accepts_some {s : State} {f : Target → Bool} {a : BitVec 17} {t : Target} (h : s.accepts f a = some t) :
    a.toNat % 4 = 0 ∧ mapped s.cfg a.toNat = some t ∧ (s.pend = none ∨ f t = true) := by
  unfold State.accepts at h
  split at h
  · cases h
  · next h4 =>
    split at h
    · cases h
    · next t' hm =>
      split at h
      · cases h
      · next hb =>
        cases h
        refine ⟨by omega, hm, ?_⟩
        cases hp : s.pend with
        | none => exact .inl rfl
        | some p => exact .inr (by simpa [State.busy, hp] using hb)

/-- Only offset 0x008 names CTRL (20_memory.md R65). -/
theorem mapped_ctrl {p : Params} {a : Nat} (h : mapped p a = some .ctrl) : a = 0x008 := by
  obtain ⟨ht, -⟩ | ⟨ht, -⟩ | ⟨ht, -⟩ | hr := mapped_cases h
  · cases ht
  · cases ht
  · cases ht
  · have rows : ∀ q ∈ registerMap, q.2 = .ctrl → q.1 = 0x008 := by decide
    exact rows _ hr rfl

/-- An accepted write of CTRL with SRST = 1 is a reset (70_reset_and_hazards.md R220). -/
theorem resetTurn_of_accepted_ctrl {s : State} {rest : List Turn} {a : BitVec 17} {v : Word}
    (turn : s.schedule = .write32 a v :: rest) (ha : s.accepts Target.writableWhileBusy a = some .ctrl)
    (hv : v.getLsbD 1 = true) : ResetTurn s := by
  obtain ⟨-, hm, -⟩ := accepts_some ha
  obtain rfl : a = 0x008 := BitVec.eq_of_toNat_eq (mapped_ctrl hm)
  exact ⟨rest, .inr ⟨v, hv, turn⟩⟩

/-- A host write leaves the slots as they are unless it resets the core. -/
theorem slot_writeTarget (s : State) (v : Word) (t : Target) (n : Nat) (h : ¬ (t = .ctrl ∧ v.getLsbD 1 = true)) :
    (s.writeTarget v t).slot n = s.slot n := by
  cases t with
  | ctrl => rw [State.writeTarget, State.writeCtrl, if_neg (by simpa using h)]; rfl
  | status => rw [State.writeTarget, State.writeStatus]; split <;> rfl
  | _ => rfl

/-! ### What a command leaves of the slots and of BUF -/

theorem slot_setPhase_ne (s : State) (n m : Nat) (p : Phase) (h : m ≠ n) : (s.setPhase n p).slot m = s.slot m :=
  State.slot_setSlot_ne s n m _ h

/-- A command touches no slot but its own. -/
theorem slot_body_ne (i : Instr) (s : State) (m : Nat) (h : m ≠ i.ctx) :
    (commandBody Config.cipher i s).slot m = s.slot m := by
  have processed (E : Block → Block) (n : Nat) (mode : Mode) (src dst len : Nat) (p : Phase) (hm : m ≠ n) :
      ((s.processCore E n mode src dst len).setPhase n p).slot m = s.slot m := by
    rw [slot_setPhase_ne _ _ _ _ hm, slot_processCore_ne _ _ _ _ _ _ _ _ hm]
  cases i with
  | setkey n k =>
    simp only [commandBody]
    obtain ⟨st, e⟩ | ⟨st, cs, e⟩ := setkey_cases s Config.cipher n k <;> rw [e]
    · exact slot_keyFailed_ne s n m st h
    · exact slot_keyReady_ne s Config.cipher n m st cs h
  | setiv n => exact slot_setiv_ne s Config.cipher n m h
  | aad n => exact processed _ n .aadm _ _ _ _ h
  | encrypt n => exact processed _ n .enc _ _ _ _ h
  | decrypt n => exact processed _ n .dec _ _ _ _ h
  | tag n => exact (slot_setPhase_ne _ n m .tagged h).trans (State.slot_ensureCache s n m)

/-- The phase a command other than SETKEY leaves (60_exceptions.md R192, last column). -/
theorem phase_body (i : Instr) (s : State) (hn : i.ctx < 8) (h : commandOf i ≠ .setkey) :
    ((commandBody Config.cipher i s).slot i.ctx).phase = nextPhase (commandOf i) := by
  cases i with
  | setkey n k => exact absurd rfl h
  | setiv n => obtain ⟨-, -, -, -, hp⟩ := slot_setiv_kept s Config.cipher n hn; exact hp
  | aad n => exact congrArg Slot.phase (slot_setPhase_self _ n .aad hn)
  | encrypt n => exact congrArg Slot.phase (slot_setPhase_self _ n .data hn)
  | decrypt n => exact congrArg Slot.phase (slot_setPhase_self _ n .data hn)
  | tag n => exact congrArg Slot.phase (slot_tag s Config.cipher n hn)

/-- SETKEY by the adapter's status: a failure that KSTAT records, or a success with status 0 (41_key_iv.md R140). -/
theorem setkey_status_cases (s : State) (C : Cipher) (n : Nat) (k : BitVec 4) :
    (∃ st, st ≠ 0 ∧ s.setkey C n k = (s.clearSlot n).keyFailed n st) ∨
      ∃ cs, s.setkey C n k = (s.clearSlot n).keyReady C n 0 cs := by
  rw [State.setkey]
  split
  · next h => exact .inl ⟨_, h, rfl⟩
  · next h => exact .inr ⟨_, by rw [not_not.mp h]⟩

/-- The slot a failed SETKEY leaves: zero, UNINIT, no cipher state it could use (60_exceptions.md R196). -/
theorem slot_keyFailed (s : State) (n : Nat) (st : Byte) (hn : n < 8) :
    ((s.clearSlot n).keyFailed n st).slot n = { Slot.reset with ciphst := Config.freeCipherState s.freeCtr n } := by
  have hc : (s.clearSlot n).slot n = { Slot.reset with ciphst := (s.slot n).ciphst } := State.slot_setSlot_self s n _ hn
  refine (State.slot_setSlot_self (s.clearSlot n) n _ hn).trans ?_
  rw [hc]
  rfl

/-- The slot a successful SETKEY leaves (41_key_iv.md R140). -/
theorem slot_keyReady (s : State) (C : Cipher) (n : Nat) (st : Byte) (cs : CipherState) (hn : n < 8) :
    ((s.clearSlot n).keyReady C n st cs).slot n =
      { hash := 0, lens := 0, ctr := counterOne, key := C.enc cs 0, phase := .keyed, ciphst := cs } := by
  have hc : (s.clearSlot n).slot n = { Slot.reset with ciphst := (s.slot n).ciphst } := State.slot_setSlot_self s n _ hn
  rw [State.keyReady, slot_setPhase_self _ _ _ hn, State.slot_rebuild, State.slot_setSlot_self _ _ _ hn, hc]
  rfl

/-- BUF stays in canonical form and inside a bound that the output range of ENCRYPT and DECRYPT keeps to. -/
theorem buf_body (i : Instr) (s : State) (N : Nat)
    (hd : (commandOf i).writesBuf = true → s.operands.dst.toNat + s.operands.len.toNat ≤ N)
    (hs : Memory.wf s.buf) (hw : Memory.within s.buf N) :
    Memory.wf (commandBody Config.cipher i s).buf ∧ Memory.within (commandBody Config.cipher i s).buf N := by
  have quiet (t : State) (ht : t.buf = s.buf) : Memory.wf t.buf ∧ Memory.within t.buf N := by rw [ht]; exact ⟨hs, hw⟩
  cases i with
  | setkey n k =>
    apply quiet
    simp only [commandBody]
    obtain ⟨st, e⟩ | ⟨st, cs, e⟩ := setkey_cases s Config.cipher n k <;> rw [e] <;> rfl
  | setiv n =>
    simp only [commandBody, State.setiv]
    split
    · exact quiet _ rfl
    · have hp := buf_processCore (s.startMessage n) (s.cipherE Config.cipher n) n .ivd s.operands.src.toNat 0
        s.operands.len.toNat N nofun hs hw
      simpa [State.hashIv] using hp
  | aad n => exact buf_processCore s _ n .aadm _ _ _ N nofun hs hw
  | encrypt n => exact buf_processCore s _ n .enc _ _ _ N (fun _ => hd rfl) hs hw
  | decrypt n => exact buf_processCore s _ n .dec _ _ _ N (fun _ => hd rfl) hs hw
  | tag n => exact quiet _ (State.ensureCache_buf s n)

end Sys2Proof.Machine

namespace Sys2Proof.Machine

/-! ### Support: the cache as `Rebuild` builds it (40_field_algebra.md R112) -/

/-- The product with a Block whose only byte is `b` sums over the set bits of `b`, the coefficient of x^0 first. -/
theorem gmul_byteBlock (b : Byte) (y : Block) : gmul (byteBlock b) y = bitSum (fun j => xTimes j y) (rev8 b).toNat := by
  have low : ∀ i, i < 8 → (byteBlock b).getMsbD i = (rev8 b).toNat.testBit i := by
    intro i hi
    have hrev : (rev8 b).toNat.testBit i = b.getMsbD i := by
      rw [← BitVec.getLsbD, rev8, BitVec.getLsbD_reverse]
    rw [hrev]
    exact BitVec.getMsbD_append.trans (by simp [hi])
  have high : ∀ i, (byteBlock b).getMsbD (8 + i) = false := fun i =>
    BitVec.getMsbD_append.trans (by simp)
  rw [gmul_eq_xsum]
  refine (xsum_add 8 120 _).trans ?_
  rw [xsum_zero (n := 120) (by simp [high]), bitSum, BitVec.ofNat_eq_ofNat, BitVec.xor_zero]
  exact xsum_congr (fun i hi => by rw [low i hi])

/-- Bytes 0 and 1 of `x^(j+128)`, reduced. -/
theorem xTimes_fieldByte_high : ∀ j, j < 8 → (xTimes j fieldByte).extractLsb' 112 16 = 0xE100#16 >>> j := by decide

theorem mAt_build (hk : Block) (n : Nat) (c : Cache) (b : Byte) : (Cache.build hk n c).mAt b = gmul (byteBlock b) hk := by
  obtain ⟨hm, -⟩ := Cache.buildTables_spec hk c (rev8 b).toNat (rev8 b).isLt
  rw [BitVec.ofNat_toNat, BitVec.setWidth_eq, rev8_rev8] at hm
  exact hm.trans (gmul_byteBlock b hk).symm

theorem rAt_build (hk : Block) (n : Nat) (c : Cache) (b : Byte) : (Cache.build hk n c).rAt b = reductionEntry b := by
  obtain ⟨-, hr⟩ := Cache.buildTables_spec hk c (rev8 b).toNat (rev8 b).isLt
  rw [BitVec.ofNat_toNat, BitVec.setWidth_eq, rev8_rev8] at hr
  refine hr.trans ?_
  rw [reductionEntry, gmul_byteBlock, bitSum, bitSum,
    map_xsum (fun x : Block => x.extractLsb' 112 16) (by simp) (fun x y => BitVec.extractLsb'_xor)]
  refine xsum_congr (fun j hj => ?_)
  split
  · exact (xTimes_fieldByte_high j hj).symm
  · rfl

/-! ### Support: what keeps the cache that of the tagged key (10_state.md R32) -/

theorem cacheOk_of_valid_false {s : State} (h : s.cache.valid = false) : CacheOk s := fun hv => absurd hv (by simp [h])

/-- A cache built for the key of an existing slot. -/
theorem cacheOk_of_build {s : State} {n : Nat} {c : Cache} (hn : n < s.cfg.nctx)
    (hc : s.cache = c.build (s.slot n).key n) : CacheOk s := by
  have htag : s.cache.tag.toNat = n := by
    have := s.cfg.nctx_le
    rw [hc]
    exact (BitVec.toNat_ofNat n 3).trans (Nat.mod_eq_of_lt (by omega))
  intro _
  rw [htag]
  exact ⟨hn, fun b => ⟨by rw [hc, mAt_build], by rw [hc, rAt_build]⟩⟩

/-- The same cache beside the same key in the tagged slot. -/
theorem CacheOk.congr {s t : State} (h : CacheOk s) (hc : t.cache = s.cache) (hp : t.cfg = s.cfg)
    (hk : s.cache.valid = true → (t.slot s.cache.tag.toNat).key = (s.slot s.cache.tag.toNat).key) : CacheOk t := by
  intro hv
  rw [hc] at hv ⊢
  rw [hp, hk hv]
  exact h hv

/-- Multiplications for a slot keep the rule. -/
theorem CacheOk.of_cacheStep {s t : State} {n : Nat} (h : CacheOk s) (hs : CacheStep s t n) (hn : n < s.cfg.nctx)
    (hp : t.cfg = s.cfg) (hk : ∀ m, (t.slot m).key = (s.slot m).key) : CacheOk t := by
  obtain ⟨hc, -⟩ | ⟨-, hc, -⟩ := hs
  · exact h.congr hc hp (fun _ => hk _)
  · exact cacheOk_of_build (n := n) (by rwa [hp]) (by rw [hc, hk])

/-! ### Support: the parts of the invariant -/

/-- What `Inv` says of a slot that exists. -/
structure SlotOk (v : Slot) : Prop where
  unkeyed : v.phase = .uninit → v.hash = 0 ∧ v.lens = 0 ∧ v.ctr = 0 ∧ v.key = 0
  keyed : v.phase ≠ .uninit → v.key = Config.cipher.enc v.ciphst 0
  fresh : v.phase = .keyed ∨ v.phase = .ivready → v.hash = 0 ∧ v.lens = 0

/-- What `Inv` says of the flags, the recorded fault and PEND. -/
structure FlagsOk (s : State) : Prop where
  noFault : s.fault = false → s.cause = .none ∧ s.faultcmd = 0
  faulted : s.fault = true → s.cause ≠ .none
  keyStatus : s.keyerr = true ↔ s.kstat ≠ 0
  pending : ∀ p, s.pend = some p →
    p = { word := s.lastcmd, src := s.src, dst := s.dst, len := s.len } ∧ s.done = false

theorem inv_iff {s : State} :
    Inv s ↔ (Memory.wf s.buf ∧ Memory.within s.buf s.cfg.bufSize) ∧ CacheOk s ∧
      (∀ n, n < s.cfg.nctx → SlotOk (s.slot n)) ∧ FlagsOk s := by
  constructor
  · intro h
    exact ⟨⟨h.bufSorted, h.bufInside⟩, h.cacheOk, fun n hn => ⟨h.unkeyed n hn, h.keyed n hn, h.fresh n hn⟩,
      ⟨h.noFault, h.faulted, h.keyStatus, h.pending⟩⟩
  · rintro ⟨⟨hsorted, hinside⟩, hcache, hslots, hflags⟩
    exact
      { bufSorted := hsorted, bufInside := hinside, cacheOk := hcache
        unkeyed := fun n hn => (hslots n hn).unkeyed
        keyed := fun n hn => (hslots n hn).keyed
        fresh := fun n hn => (hslots n hn).fresh
        noFault := hflags.noFault, faulted := hflags.faulted, keyStatus := hflags.keyStatus, pending := hflags.pending }

/-- The invariant does not speak of the turns to come. -/
theorem Inv.withSchedule {s : State} (h : Inv s) (rest : List Turn) : Inv { s with schedule := rest } := { h with }

theorem Inv.respond {s : State} (h : Inv s) (r : Response) : Inv (s.respond r) := { h with }

theorem Inv.finish {s : State} (h : Inv s) : Inv s.finish := { h with pending := fun _ hp => nomatch hp }

theorem Inv.raiseFault {s : State} (h : Inv s) {c : Cause} (hc : c ≠ .none) : Inv (s.raiseFault c) :=
  { h with noFault := nofun, faulted := fun _ => hc }

/-! ### Commands keep the invariant -/

/-- A slot that keeps its key, is keyed, and has hashed nothing yet if its message has not started. -/
theorem SlotOk.of_same_key {v w : Slot} (h : SlotOk v) (hv : v.phase ≠ .uninit) (hk : w.key = v.key)
    (hc : w.ciphst = v.ciphst) (hw : w.phase ≠ .uninit)
    (hf : w.phase = .keyed ∨ w.phase = .ivready → w.hash = 0 ∧ w.lens = 0) : SlotOk w where
  unkeyed hu := absurd hu hw
  keyed _ := by rw [hk, hc]; exact h.keyed hv
  fresh := hf

theorem slotOk_reset (cs : CipherState) : SlotOk { Slot.reset with ciphst := cs } where
  unkeyed _ := ⟨rfl, rfl, rfl, rfl⟩
  keyed h := absurd rfl h
  fresh _ := ⟨rfl, rfl⟩

/-- SETKEY is the one command an UNINIT slot takes (60_exceptions.md R192). -/
theorem legal_uninit {c : Command} (h : c ≠ .setkey) : c.legal .uninit = false := by
  cases c with
  | setkey => exact absurd rfl h
  | _ => rfl

theorem FlagsOk.congr {s t : State} (h : FlagsOk s) (host : SameHostSide s t) (hf : t.fault = s.fault) (hc : t.cause = s.cause)
    (hw : t.faultcmd = s.faultcmd) (hk : t.keyerr = true ↔ t.kstat ≠ 0) : FlagsOk t where
  noFault := by rw [hf, hc, hw]; exact h.noFault
  faulted := by rw [hf, hc]; exact h.faulted
  keyStatus := hk
  pending := by rw [host.pend, host.lastcmd, host.src, host.dst, host.len, host.done]; exact h.pending

/-- Only SETKEY writes KSTAT and KEYERR (10_state.md R39, R44). -/
theorem keyStatus_body (i : Instr) (s : State) (h : commandOf i ≠ .setkey) :
    (commandBody Config.cipher i s).keyerr = s.keyerr ∧ (commandBody Config.cipher i s).kstat = s.kstat := by
  by_cases ht : commandOf i = .tag
  · cases i with
    | tag n => exact ⟨State.ensureCache_keyerr s n, State.ensureCache_kstat s n⟩
    | _ => cases ht
  · have same := sameRest_body i s h ht
    exact ⟨same.keyerr, same.kstat⟩

/-- The slot of a command other than SETKEY, on a slot whose phase the command takes. -/
theorem slotOk_body {i : Instr} {s : State} (hn : i.ctx < 8) (h : commandOf i ≠ .setkey)
    (hl : (commandOf i).legal (s.slot i.ctx).phase = true) (hs : SlotOk (s.slot i.ctx)) :
    SlotOk ((commandBody Config.cipher i s).slot i.ctx) := by
  have hphase := phase_body i s hn h
  obtain ⟨hkey, hciphst⟩ := key_body i s hn h i.ctx
  refine hs.of_same_key ?_ hkey hciphst ?_ ?_
  · intro hu
    rw [hu, legal_uninit h] at hl
    cases hl
  · rw [hphase]
    cases i with
    | setkey n k => exact absurd rfl h
    | _ => exact nofun
  · rw [hphase]
    cases i with
    | setkey n k => exact absurd rfl h
    | setiv n =>
      obtain ⟨-, -, hhash, hlens, -⟩ := slot_setiv_kept s Config.cipher n hn
      exact fun _ => ⟨hhash, hlens⟩
    | _ => exact nofun

/-- SETKEY's slot: zero and UNINIT, or keyed with KEY = E(n, 0^16) (10_state.md R26, 60_exceptions.md R196). -/
theorem slotOk_setkey (s : State) (n : Nat) (k : BitVec 4) (hn : n < 8) : SlotOk ((s.setkey Config.cipher n k).slot n) := by
  obtain ⟨st, -, e⟩ | ⟨cs, e⟩ := setkey_status_cases s Config.cipher n k <;> rw [e]
  · rw [slot_keyFailed s n st hn]
    exact slotOk_reset _
  · rw [slot_keyReady s Config.cipher n 0 cs hn]
    exact { unkeyed := nofun, keyed := fun _ => rfl, fresh := fun _ => ⟨rfl, rfl⟩ }

/-- SETKEY rebuilds the cache for its slot, or invalidates it when it is tagged with the slot, or keeps that of another slot. -/
theorem cacheOk_setkey {s : State} (n : Nat) (k : BitVec 4) (h : CacheOk s) (hn : n < s.cfg.nctx) :
    CacheOk (s.setkey Config.cipher n k) := by
  have hn8 : n < 8 := lt_of_lt_of_le hn s.cfg.nctx_le
  obtain ⟨st, -, e⟩ | ⟨cs, e⟩ := setkey_status_cases s Config.cipher n k <;> rw [e]
  · obtain ⟨hother, hc⟩ | ⟨-, hc, -⟩ := Cache.invalidate_cases s.freeCtr s.cache n
    · refine h.congr hc rfl (fun hv => ?_)
      have hm : s.cache.tag.toNat ≠ n := fun ht => by simp [(validFor_iff s.cache hn8).mpr ⟨hv, ht⟩] at hother
      rw [slot_keyFailed_ne s n _ st hm]
    · exact cacheOk_of_valid_false hc
  · refine cacheOk_of_build (n := n) (c := (s.clearSlot n).cache) hn ?_
    rw [slot_keyReady s Config.cipher n 0 cs hn8, State.keyReady, State.setPhase_cache, State.rebuild_cache,
      State.slot_setSlot_self _ _ _ hn8]
    rfl

theorem keyStatus_setkey (s : State) (n : Nat) (k : BitVec 4) :
    (s.setkey Config.cipher n k).keyerr = true ↔ (s.setkey Config.cipher n k).kstat ≠ 0 := by
  obtain ⟨st, hst, e⟩ | ⟨cs, e⟩ := setkey_status_cases s Config.cipher n k <;> rw [e]
  · exact iff_of_true rfl hst
  · exact iff_of_false Bool.false_ne_true (fun h => h rfl)

/-- A command that passes its checks keeps the invariant. -/
theorem Inv.body {s : State} {i : Instr} (h : Inv s) (hc : s.check (commandOf i) i.ctx = none) :
    Inv (commandBody Config.cipher i s) := by
  obtain ⟨hslot, hlegal, hrange⟩ := check_none hc
  have hn : i.ctx < 8 := lt_of_lt_of_le hslot s.cfg.nctx_le
  obtain ⟨⟨hsorted, hinside⟩, hcache, hslots, hflags⟩ := inv_iff.mp h
  obtain ⟨host, hfault, hcause, hfaultcmd⟩ := host_body i s
  rw [inv_iff, host.cfg]
  refine ⟨buf_body i s _ hrange hsorted hinside, ?_, fun m hm => ?_, hflags.congr host hfault hcause hfaultcmd ?_⟩
  · by_cases hk : commandOf i = .setkey
    · cases i with
      | setkey n k => exact cacheOk_setkey n k hcache hslot
      | _ => cases hk
    · exact hcache.of_cacheStep (cacheStep_body i s hn hk) hslot host.cfg (fun m => (key_body i s hn hk m).1)
  · by_cases hm' : m = i.ctx
    · subst hm'
      by_cases hk : commandOf i = .setkey
      · cases i with
        | setkey n k => exact slotOk_setkey s n k hn
        | _ => cases hk
      · exact slotOk_body hn hk hlegal (hslots _ hslot)
    · rw [slot_body_ne i s m hm']
      exact hslots m hm
  · by_cases hk : commandOf i = .setkey
    · cases i with
      | setkey n k => exact keyStatus_setkey s n k
      | _ => cases hk
    · obtain ⟨hkeyerr, hkstat⟩ := keyStatus_body i s hk
      rw [hkeyerr, hkstat]
      exact hflags.keyStatus

theorem Inv.runCommand {s : State} (h : Inv s) {check : Option Cause} {body : State → State}
    (hc : ∀ c, check = some c → c ≠ .none) (hb : check = none → Inv (body s)) : Inv (s.runCommand check body) := by
  unfold State.runCommand
  split
  · exact h
  · split
    · next c => exact h.raiseFault (hc c rfl)
    · exact hb rfl

theorem causeOf_ne_none (e : DecodeError) : causeOf e ≠ .none := by
  cases e <;> exact nofun

theorem Inv.execute {s t : State} (h : Inv s) (hx : s.execute = .next t) : Inv t := by
  obtain ⟨e, he⟩ | ⟨i, -, hi⟩ := execute_cases s
  · rw [he] at hx
    cases hx
    exact h.runCommand (fun c hc => by cases hc; exact causeOf_ne_none e) nofun
  · rw [hi] at hx
    cases hx
    exact h.runCommand (fun c hc => check_some_ne hc) h.body

/-! ### Resets and host writes keep the invariant -/

theorem slot_resetCore (s : State) (n : Nat) (hn : n < 8) : s.resetCore.slot n = Slot.afterReset s.freeCtr n := by
  simp [State.slot, State.resetCore, hn]

/-- A reset leaves everything but BUF at values that meet the invariant, whatever they were. -/
theorem inv_resetCore {s : State} (hs : Memory.wf s.buf) (hw : Memory.within s.buf s.cfg.bufSize) : Inv s.resetCore := by
  refine inv_iff.mpr ⟨⟨hs, hw⟩, cacheOk_of_valid_false rfl, fun n hn => ?_, ?_⟩
  · rw [slot_resetCore s n (lt_of_lt_of_le hn s.cfg.nctx_le)]
    exact slotOk_reset _
  · exact { noFault := fun _ => ⟨rfl, rfl⟩, faulted := nofun, keyStatus := iff_of_false Bool.false_ne_true (fun h => h rfl)
            pending := nofun }

theorem inv_hardReset (s : State) : Inv s.hardReset :=
  { inv_resetCore (s := { s with buf := [] }) List.Pairwise.nil nofun with }

/-- An abandoned output range is cut at the end of BUF (70_reset_and_hazards.md R223). -/
theorem buf_abandonPending (s : State) (p : Pending) (hs : Memory.wf s.buf) (hw : Memory.within s.buf s.cfg.bufSize) :
    Memory.wf (s.abandonPending p).buf ∧ Memory.within (s.abandonPending p).buf s.cfg.bufSize := by
  unfold State.abandonPending
  split
  · refine ⟨Memory.wf_writeBytes _ hs _, ?_⟩
    by_cases hd : p.dst.toNat ≤ s.cfg.bufSize
    · exact Memory.within_writeBytes _ hw (by simp [abandonedCount]; omega)
    · have hz : abandonedCount s.cfg.bufSize p.dst.toNat p.len.toNat = 0 := by unfold abandonedCount; omega
      rw [State.memWrite_buf, hz]
      exact hw
  · exact ⟨hs, hw⟩

theorem Inv.softReset {s : State} (h : Inv s) : Inv s.softReset := by
  obtain ⟨-, e⟩ | ⟨p, -, e⟩ := softReset_eq s <;> rw [e]
  · exact inv_resetCore h.bufSorted h.bufInside
  · obtain ⟨hs, hw⟩ := buf_abandonPending s p h.bufSorted h.bufInside
    refine inv_resetCore hs ?_
    rwa [(sameRest_abandonPending s p).cfg]

/-- A word at an aligned offset of the buffer window lies inside BUF. -/
theorem mapped_buf_inside {p : Params} {a b : Nat} (h4 : a % 4 = 0) (h : mapped p a = some (.buf b)) : b + 4 ≤ p.bufSize := by
  have := bufSize_mod p
  obtain ⟨ht, hlo, hhi⟩ | ⟨ht, -⟩ | ⟨ht, -⟩ | hr := mapped_cases h
  · have := Target.buf.inj ht
    omega
  · cases ht
  · cases ht
  · have noBuf : ∀ q ∈ registerMap, ∀ b, q.2 ≠ .buf b := by
      intro q hq b
      fin_cases hq <;> exact nofun
    exact absurd rfl (noBuf _ hr b)

/-- PEND keeps step with the registers: SRC, DST and LEN are open to the host only while PEND is empty (20_memory.md R67). -/
theorem Inv.writeTarget {s : State} {a : BitVec 17} {t : Target} (h : Inv s)
    (ha : s.accepts Target.writableWhileBusy a = some t) (v : Word) : Inv (s.writeTarget v t) := by
  obtain ⟨h4, hm, hopen⟩ := accepts_some ha
  have unpended (hp : s.pend = none) {P : Pending → Prop} : ∀ p, s.pend = some p → P p := by simp [hp]
  cases t with
  | ctrl =>
    rw [State.writeTarget, State.writeCtrl]
    split
    · exact h.softReset
    · exact { h with }
  | status =>
    rw [State.writeTarget, State.writeStatus]
    split
    · exact { h with pending := fun p hp => ⟨(h.pending p hp).1, rfl⟩ }
    · exact h
  | cmd => exact { h with pending := fun p hp => ⟨(Option.some.inj hp).symm, rfl⟩ }
  | src => exact { h with pending := unpended (hopen.resolve_right nofun) }
  | dst => exact { h with pending := unpended (hopen.resolve_right nofun) }
  | len => exact { h with pending := unpended (hopen.resolve_right nofun) }
  | buf b =>
    exact { h with
      bufSorted := Memory.wf_writeBytes _ h.bufSorted b
      bufInside := Memory.within_writeBytes _ h.bufInside (mapped_buf_inside h4 hm) }
  | _ => exact h

theorem Inv.write32 {s : State} (h : Inv s) (a : BitVec 17) (v : Word) : Inv (s.write32 a v) := by
  obtain e | ⟨t, ha, e⟩ := write32_cases s a v <;> rw [e]
  · exact h.respond _
  · exact (h.writeTarget ha v).respond _

/-- Settles O36: each kind of turn keeps each part of the invariant. -/
theorem stepKeepsInvariant : Obligations.StepKeepsInvariant := by
  intro s t h hstep
  cases stepTo_of_step hstep with
  | idle rest => exact h.withSchedule rest
  | command rest p u turn full run => exact ((h.withSchedule rest).execute run).finish
  | read rest a r => exact (h.withSchedule rest).respond r
  | write rest a v => exact (h.withSchedule rest).write32 a v
  | rst rest => exact inv_hardReset _

end Sys2Proof.Machine

namespace Sys2Proof.Machine

/-! ### Only SETKEY and the resets change a hash key (10_state.md R26) -/

/-- A fault entry or a rejection writes no slot. -/
theorem slot_runCommand_some (s : State) (c : Cause) (body : State → State) (n : Nat) :
    (s.runCommand (some c) body).slot n = s.slot n := by
  unfold State.runCommand
  split <;> rfl

/-- Of all words, only a SETKEY on slot `n` changes its hash key. -/
theorem setkey_of_key_changed {s t : State} {n : Nat} (hx : s.execute = .next t) (hk : (t.slot n).key ≠ (s.slot n).key) :
    ∃ ciph, decode s.operands.word = .ok (.setkey n ciph) := by
  obtain ⟨e, he⟩ | ⟨i, hd, hi⟩ := execute_cases s
  · rw [he] at hx
    cases hx
    exact absurd (congrArg Slot.key (slot_runCommand_some s _ id n)) hk
  · rw [hi] at hx
    cases hx
    obtain e | ⟨-, c, e⟩ | ⟨-, hslot, e⟩ := run_cases s (commandOf i) i.ctx (commandBody Config.cipher i) <;> rw [e] at hk
    · exact absurd rfl hk
    · exact absurd rfl hk
    · by_cases hset : commandOf i = .setkey
      · cases i with
        | setkey m ciph =>
          by_cases hm : n = m
          · subst hm
            exact ⟨ciph, hd⟩
          · exact absurd (congrArg Slot.key (slot_body_ne (.setkey m ciph) s n hm)) hk
        | _ => cases hset
      · exact absurd (key_body i s (lt_of_lt_of_le hslot s.cfg.nctx_le) hset n).1 hk

/-- Of the host's writes, only a reset changes a slot. -/
theorem resetTurn_of_slot_changed {s : State} {rest : List Turn} {a : BitVec 17} {v : Word} {n : Nat}
    (turn : s.schedule = .write32 a v :: rest)
    (hne : (({ s with schedule := rest } : State).write32 a v).slot n ≠ s.slot n) : ResetTurn s := by
  obtain e | ⟨t, ha, e⟩ := write32_cases { s with schedule := rest } a v <;> rw [e] at hne
  · exact absurd rfl hne
  · by_cases hr : t = .ctrl ∧ v.getLsbD 1 = true
    · obtain ⟨rfl, hv⟩ := hr
      exact resetTurn_of_accepted_ctrl turn ha hv
    · exact absurd (slot_writeTarget { s with schedule := rest } v t n hr) hne

/-- Settles O38: of the turns, only a command or a write can change a slot; each is then the one the statement names. -/
theorem onlySetkeyWritesTheHashKey : Obligations.OnlySetkeyWritesTheHashKey := by
  intro s t n hstep hk
  cases stepTo_of_step hstep with
  | idle rest => exact absurd rfl hk
  | command rest p u turn full run =>
    obtain ⟨ciph, hd⟩ := setkey_of_key_changed (s := { s with schedule := rest }) run hk
    rw [State.operands_of_pend (s := { s with schedule := rest }) full] at hd
    exact .inr ⟨p, rest, ciph, full, turn, hd⟩
  | read rest a r => exact absurd rfl hk
  | write rest a v turn => exact .inl (resetTurn_of_slot_changed turn (fun e => hk (congrArg Slot.key e)))
  | rst rest turn => exact .inl ⟨rest, .inl turn⟩

end Sys2Proof.Machine

namespace Sys2Proof.Machine

/-! ### Support: reads and writes of the host window -/

/-- A read of a mapped offset that is open to the host returns its view. -/
theorem readsAs_of_mapped {s : State} {a : BitVec 17} {t : Target} (h4 : a.toNat % 4 = 0)
    (hm : mapped s.cfg a.toNat = some t) (hb : s.pend = none ∨ t.readableWhileBusy = true) : ReadsAs s a (s.readTarget t) := by
  intro rest
  refine (step_read32 (s := { s with schedule := .read32 a :: rest }) rfl (accepts_of_mapped h4 hm hb)).trans ?_
  cases t <;> rfl

/-- A write of a mapped offset while BUSY = 0 has the effect of its target. -/
theorem step_write_of_mapped {s : State} {a : BitVec 17} {t : Target} (h4 : a.toNat % 4 = 0)
    (hm : mapped s.cfg a.toNat = some t) (hp : s.pend = none) (v : Word) (rest : List Turn) :
    step { s with schedule := .write32 a v :: rest } =
      .next ((({ s with schedule := rest } : State).writeTarget v t).respond .ok) :=
  step_write32 rfl (accepts_of_mapped h4 hm (.inl hp))

/-- An offset of the host window as a number (20_memory.md R61). -/
theorem toNat_offset {a : Nat} (h : a < 2 ^ 17) : (BitVec.ofNat 17 a).toNat = a := by
  rw [BitVec.toNat_ofNat, Nat.mod_eq_of_lt h]

/-- Word `w` of slot `n` in the context window. -/
theorem mapped_slotWord (p : Params) {n w : Nat} (hn : n < p.nctx) (hw : w < 16) :
    mapped p (0x200 + 64 * n + 4 * w) = some (.ctx n w) := by
  rw [mapped_ctx p (by omega) (by omega)]
  congr 2 <;> omega

theorem mapped_tagWord (p : Params) {w : Nat} (hw : w < 4) : mapped p (0x040 + 4 * w) = some (.tag w) := by
  rw [mapped_tag p (by omega) (by omega)]
  congr 2
  omega

theorem mapped_bufByte (p : Params) {a : Nat} (h : a < p.bufSize) : mapped p (0x10000 + a) = some (.buf a) := by
  rw [mapped_buf p (by omega) (by omega), Nat.add_sub_cancel_left]

/-- BUF_SIZE is at most 65536 (00_scope.md R5). -/
theorem bufSize_le (p : Params) : p.bufSize ≤ 0x10000 := Nat.pow_le_pow_right (by decide) p.log2Buf_le

/-- The four Blocks of a slot in the layout of 10_state.md R22. -/
def Slot.block (v : Slot) : Nat → Block
  | 0 => v.hash
  | 1 => v.lens
  | 2 => v.ctr
  | _ => v.key

theorem byte_slot_block (v : Slot) {j i : Nat} (hj : j < 4) (hi : i < 16) :
    v.bytes.getD (16 * j + i) 0 = Block.byte (v.block j) i := by
  rw [slot_bytes v _ (by omega)]
  interval_cases j <;> simp (disch := omega) only [if_pos, if_neg, Slot.block] <;> congr 1 <;> omega

theorem word_slot_block (v : Slot) {j r : Nat} (hj : j < 4) (hr : r < 4) :
    v.word (4 * j + r) = Block.word (v.block j) r := by
  unfold Slot.word
  interval_cases j <;> simp (disch := omega) only [if_pos, if_neg, Slot.block] <;> congr 1 <;> omega

/-- Word `w` of a slot is bytes 4w to 4w+3 of its 64 bytes, big-endian (10_state.md R50). -/
theorem word_slot_bytes (v : Slot) {w : Nat} (hw : w < 16) :
    v.word w = v.bytes.getD (4 * w) 0 ++ v.bytes.getD (4 * w + 1) 0 ++ v.bytes.getD (4 * w + 2) 0 ++
      v.bytes.getD (4 * w + 3) 0 := by
  obtain ⟨j, r, hj, hr, rfl⟩ : ∃ j r, j < 4 ∧ r < 4 ∧ w = 4 * j + r := ⟨w / 4, w % 4, by omega, by omega, by omega⟩
  have lane (k : Nat) (hk : k < 4) : v.bytes.getD (4 * (4 * j + r) + k) 0 = Block.byte (v.block j) (4 * r + k) := by
    rw [← byte_slot_block v hj (by omega)]
    congr 1
    omega
  rw [word_slot_block v hj hr, word_bytes _ _ hr, lane 1 (by omega), lane 2 (by omega), lane 3 (by omega)]
  exact congrArg (· ++ _ ++ _ ++ _) (lane 0 (by omega)).symm

/-! ### The windows -/

/-- Settles O31: the bus maps the offset to word `w` of slot `n`, whose view is the four bytes. -/
theorem contextWindowReadsTheSlotBytes : Obligations.ContextWindowReadsTheSlotBytes := by
  intro s n w hp hn hw
  have ha : (BitVec.ofNat 17 (0x200 + 64 * n + 4 * w)).toNat = 0x200 + 64 * n + 4 * w :=
    toNat_offset (by have := s.cfg.nctx_le; omega)
  have h4 : (BitVec.ofNat 17 (0x200 + 64 * n + 4 * w)).toNat % 4 = 0 := by omega
  have hm : mapped s.cfg (BitVec.ofNat 17 (0x200 + 64 * n + 4 * w)).toNat = some (.ctx n w) := by
    rw [ha]
    exact mapped_slotWord s.cfg hn hw
  refine ⟨?_, step_write_of_mapped h4 hm hp⟩
  rw [← word_slot_bytes _ hw]
  exact readsAs_of_mapped h4 hm (.inl hp)

/-- Settles O32: the write is the four-byte `MemWrite` of the word's bytes, most significant first. -/
theorem bufferWindowIsBigEndian : Obligations.BufferWindowIsBigEndian := by
  intro s a v rest hp h4 hlt
  have ha : (BitVec.ofNat 17 (0x10000 + a)).toNat = 0x10000 + a :=
    toNat_offset (by have := bufSize_le s.cfg; omega)
  have ha4 : (BitVec.ofNat 17 (0x10000 + a)).toNat % 4 = 0 := by omega
  have hm : mapped s.cfg (BitVec.ofNat 17 (0x10000 + a)).toNat = some (.buf a) := by
    rw [ha]
    exact mapped_bufByte s.cfg hlt
  have written (x : Nat) : ((({ s with schedule := rest } : State).memWrite a (wordToBytes v)).respond .ok).bufByte x =
      if a ≤ x ∧ x < a + 4 then (wordToBytes v).getD (x - a) 0 else s.bufByte x :=
    State.bufByte_memWrite { s with schedule := rest } a x (wordToBytes v)
  refine ⟨readsAs_of_mapped ha4 hm (.inl hp), _, step_write_of_mapped ha4 hm hp v rest, rfl, ?_, ?_, ?_, ?_, fun x hx => ?_⟩
  · exact (written a).trans (by simp [wordToBytes])
  · exact (written (a + 1)).trans (by simp [wordToBytes])
  · exact (written (a + 2)).trans (by simp [wordToBytes])
  · exact (written (a + 3)).trans (by simp [wordToBytes])
  · exact (written x).trans (if_neg hx)

/-! ### The registers -/

/-- The register map's rows are aligned, below the tag registers, and each offset stands in it once (20_memory.md R65). -/
theorem mapped_of_mem_registerMap (p : Params) {a : Nat} {t : Target} (h : (a, t) ∈ registerMap) :
    a % 4 = 0 ∧ mapped p a = some t := by
  have rows : ∀ q ∈ registerMap, q.1 < 0x040 ∧ q.1 % 4 = 0 ∧ registerMap.lookup q.1 = some q.2 := by decide
  obtain ⟨hlt, h4, hl⟩ := rows _ h
  exact ⟨h4, (mapped_register p hlt).trans hl⟩

/-- A register's view is what a read returns, while BUSY = 0 or at an offset open then too. -/
theorem readsAs_register {s : State} {a : BitVec 17} {t : Target} (h : (a.toNat, t) ∈ registerMap)
    (hb : s.pend = none ∨ t.readableWhileBusy = true) : ReadsAs s a (s.readTarget t) := by
  obtain ⟨h4, hm⟩ := mapped_of_mem_registerMap s.cfg h
  exact readsAs_of_mapped h4 hm hb

theorem step_write_register {s : State} {a : BitVec 17} {t : Target} (h : (a.toNat, t) ∈ registerMap) (hp : s.pend = none)
    (v : Word) (rest : List Turn) :
    step { s with schedule := .write32 a v :: rest } =
      .next ((({ s with schedule := rest } : State).writeTarget v t).respond .ok) := by
  obtain ⟨h4, hm⟩ := mapped_of_mem_registerMap s.cfg h
  exact step_write_of_mapped h4 hm hp v rest

/-- Settles O27: the bus maps each offset to its operand register. -/
theorem operandRegistersHoldWhatIsWritten : Obligations.OperandRegistersHoldWhatIsWritten := by
  intro s v rest hp
  exact ⟨step_write_register (t := .src) (by decide) hp v rest, step_write_register (t := .dst) (by decide) hp v rest,
    step_write_register (t := .len) (by decide) hp v rest, readsAs_register (t := .src) (by decide) (.inl hp),
    readsAs_register (t := .dst) (by decide) (.inl hp), readsAs_register (t := .len) (by decide) (.inl hp)⟩

/-- Two fields side by side as a number. -/
theorem toNat_fields {m n : Nat} (x : BitVec m) (y : BitVec n) : (x ++ y).toNat = x.toNat * 2 ^ n + y.toNat := by
  rw [BitVec.toNat_append, ← Nat.shiftLeft_add_eq_or_of_lt y.isLt, Nat.shiftLeft_eq]

theorem toNat_cfgWord (p : Params) : (cfgWord p).toNat = p.nctx + 256 * p.log2Buf := by
  have := p.nctx_le
  have := p.log2Buf_le
  simp only [cfgWord, toNat_fields, BitVec.toNat_ofNat]
  omega

theorem toNat_ctrlWord (s : State) : s.ctrlWord.toNat = s.ie.toNat := by
  simp only [State.ctrlWord, toNat_fields, BitVec.toNat_ofNat, BitVec.toNat_ofBool]
  omega

theorem toNat_statusWord (s : State) : s.statusWord.toNat =
    s.pend.isSome.toNat + 2 * s.done.toNat + 4 * s.fault.toNat + 8 * s.keyerr.toNat + 256 * s.cause.code.toNat := by
  simp only [State.statusWord, State.busy, toNat_fields, BitVec.toNat_ofNat, BitVec.toNat_ofBool]
  omega

theorem toNat_cacheWord (s : State) : s.cacheWord.toNat = s.cache.tag.toNat + 256 * s.cache.valid.toNat := by
  simp only [State.cacheWord, toNat_fields, BitVec.toNat_ofNat, BitVec.toNat_ofBool]
  omega

/-- Bits 4n+3 : 4n of PHASE are slot n's (10_state.md R45). -/
theorem extractLsb'_phaseWord (s : State) {n : Nat} (hn : n < 8) : s.phaseWord.extractLsb' (4 * n) 4 = s.phaseNibble n := by
  apply BitVec.eq_of_toNat_eq
  simp only [State.phaseWord, BitVec.extractLsb'_toNat, toNat_fields, Nat.shiftRight_eq_div_pow]
  have small (k : Nat) : (s.phaseNibble k).toNat < 16 := (s.phaseNibble k).isLt
  have := small 0; have := small 1; have := small 2; have := small 3
  have := small 4; have := small 5; have := small 6; have := small 7
  interval_cases n <;> omega

/-- The codes of PHASE (10_state.md R28). -/
theorem phase_code_mem (p : Phase) : (p, p.code.toNat) ∈ [(Phase.uninit, 0), (Phase.keyed, 1), (Phase.ivready, 2), (Phase.aad, 3),
    (Phase.data, 4), (Phase.tagged, 5)] := by
  cases p <;> decide

/-- The codes of CAUSE (60_exceptions.md R191). -/
theorem cause_code_mem (c : Cause) : (c, c.code.toNat) ∈ [(Cause.none, 0), (Cause.illegalOp, 1), (Cause.reservedField, 2),
    (Cause.badSlot, 3), (Cause.sequence, 4), (Cause.bounds, 5), (Cause.overlap, 6)] := by
  cases c <;> decide

theorem phaseNibble_of_lt {s : State} {n : Nat} (h : n < s.cfg.nctx) :
    (s.phaseNibble n).toNat = (s.slot n).phase.code.toNat := by
  rw [State.phaseNibble, if_pos h, toNat_fields, BitVec.toNat_ofNat, Nat.zero_mod, Nat.zero_mul, Nat.zero_add]

/-- Settles O29: each register reads its word, and each word is its fields by weight. -/
theorem statusRegistersReadTheirFields : Obligations.StatusRegistersReadTheirFields := by
  intro s
  refine ⟨readsAs_register (t := .id) (by decide) (.inr rfl),
    ⟨_, readsAs_register (t := .cfg) (by decide) (.inr rfl), toNat_cfgWord s.cfg⟩,
    ⟨_, readsAs_register (t := .ctrl) (by decide) (.inr rfl), toNat_ctrlWord s⟩,
    ⟨_, _, readsAs_register (t := .status) (by decide) (.inr rfl), cause_code_mem s.cause, toNat_statusWord s⟩,
    fun hp => ⟨⟨_, readsAs_register (t := .phase) (by decide) (.inl hp), fun n hn => ?_⟩,
      ⟨_, readsAs_register (t := .cache) (by decide) (.inl hp), toNat_cacheWord s⟩⟩⟩
  rw [State.readTarget, extractLsb'_phaseWord s hn]
  split
  · next h =>
    rw [phaseNibble_of_lt h]
    exact phase_code_mem _
  · next h => exact if_neg h

theorem kstatWord_eq (s : State) : s.kstatWord = BitVec.setWidth 32 s.kstat := by
  apply BitVec.eq_of_toNat_eq
  have := s.kstat.isLt
  simp only [State.kstatWord, toNat_fields, BitVec.toNat_ofNat, BitVec.toNat_setWidth]
  omega

/-- Settles O30: each register reads its field; TAGw is word w of TAGREG, four bytes big-endian (00_scope.md R11). -/
theorem resultRegistersReadTheirValues : Obligations.ResultRegistersReadTheirValues := by
  intro s hp
  refine ⟨readsAs_register (t := .cmd) (by decide) (.inl hp), ?_, readsAs_register (t := .rebuilds) (by decide) (.inl hp),
    readsAs_register (t := .faultcmd) (by decide) (.inl hp), fun w hw => ?_⟩
  · rw [← kstatWord_eq]
    exact readsAs_register (t := .kstat) (by decide) (.inl hp)
  · have ha : (BitVec.ofNat 17 (0x040 + 4 * w)).toNat = 0x040 + 4 * w := toNat_offset (by omega)
    rw [← word_bytes _ _ hw]
    exact readsAs_of_mapped (t := .tag w) (by omega) (by rw [ha]; exact mapped_tagWord s.cfg hw) (.inl hp)

end Sys2Proof.Machine

namespace Sys2Proof.Machine

/-! ### Only writes, sequencer steps and resets change the core (20_memory.md R69) -/

/-- A Read32 turn only answers the host, whether it is accepted or refused. -/
theorem step_of_read32_turn {s : State} {a : BitVec 17} {rest : List Turn} (turn : s.schedule = .read32 a :: rest) :
    ∃ r, step s = .next { s with schedule := rest, responses := r :: s.responses } := by
  obtain ⟨r, hr⟩ := read32_eq_respond { s with schedule := rest } a
  refine ⟨r, ?_⟩
  simp only [step, turn, hr]
  rfl

/-- Settles O24: of the other turns, an idle sequencer's only takes its place in the order, and a read only answers the host. -/
theorem onlyWritesStepsAndResetsChangeTheCore : Obligations.OnlyWritesStepsAndResetsChangeTheCore := by
  refine ⟨fun _ _ _ turn => step_of_read32_turn turn, fun s t hstep hwrite hrst hpend => ?_⟩
  cases stepTo_of_step hstep with
  | idle rest => rfl
  | command rest p u turn full =>
    obtain hempty | hturn := hpend
    · exact absurd (full.symm.trans hempty) nofun
    · exact absurd turn (hturn rest)
  | read rest a r => rfl
  | write rest a v turn => exact absurd turn (hwrite a v rest)
  | rst rest turn => exact absurd turn (hrst rest)

/-! ### The sequencer's step (20_memory.md R67) -/

theorem SameHostSide.refl (s : State) : SameHostSide s s := by
  constructor <;> rfl

/-- A command between its checks touches the host's side only if its body does (60_exceptions.md R193, R194). -/
theorem sameHostSide_runCommand {s : State} {body : State → State} (check : Option Cause) (h : SameHostSide s (body s)) :
    SameHostSide s (s.runCommand check body) := by
  unfold State.runCommand
  split
  · exact SameHostSide.refl s
  · split
    · constructor <;> rfl
    · exact h

/-- `Execute` always has a next state, and leaves the host's side as it is, whatever the word. -/
theorem execute_next (s : State) : ∃ u, s.execute = .next u ∧ SameHostSide s u := by
  obtain ⟨e, he⟩ | ⟨i, -, hi⟩ := execute_cases s
  · exact ⟨_, he, sameHostSide_runCommand _ (SameHostSide.refl s)⟩
  · exact ⟨_, hi, sameHostSide_runCommand _ (host_body i s).1⟩

/-- The sequencer's step of a command is `Execute`, then PEND emptied and DONE set. -/
theorem step_of_execute {s u : State} {p : Pending} {rest : List Turn} (hp : s.pend = some p) (turn : SequencerTurn s rest)
    (hx : ({ s with schedule := rest } : State).execute = .next u) : step s = .next u.finish := by
  rw [step_of_sequencerTurn turn, sequencerStep_of_pend (s := { s with schedule := rest }) hp, hx]

/-- Settles O4: `Execute` of a word that decodes is `exec` of its command. -/
theorem stepRunsTheDecodedCommand : Obligations.StepRunsTheDecodedCommand := by
  intro s t p i rest hp turn hd hexec
  have hword : decode ({ s with schedule := rest } : State).operands.word = .ok i := by
    rw [State.operands_of_pend (s := { s with schedule := rest }) hp]
    exact hd
  exact step_of_execute hp turn ((execute_of_ok hword).trans hexec)

/-- Settles O7: `Execute` keeps CTRL.IE and the schedule; what ends the step does the rest. -/
theorem sequencerStepCompletes : Obligations.SequencerStepCompletes := by
  intro s p rest hp turn
  obtain ⟨u, hx, host⟩ := execute_next { s with schedule := rest }
  have hirq : u.finish.irq = s.ie := (Bool.and_true u.ie).trans host.ie
  exact ⟨u.finish, step_of_execute hp turn hx, rfl, rfl, hirq, host.schedule⟩

/-- With a command pending or with none, the sequencer's step has a next state. -/
theorem sequencerStep_next (s : State) : ∃ t, s.sequencerStep = .next t := by
  cases hp : s.pend with
  | none => exact ⟨s, sequencerStep_of_empty hp⟩
  | some p =>
    obtain ⟨u, hx, -⟩ := execute_next s
    exact ⟨u.finish, by rw [sequencerStep_of_pend hp, hx]⟩

/-- Settles O8: the sequencer's step has a next state, and every other turn is one by definition. -/
theorem everyStepHasANextState : Obligations.EveryStepHasANextState := by
  intro s
  unfold step
  split
  · exact sequencerStep_next s
  · exact sequencerStep_next _
  · exact ⟨_, rfl⟩
  · exact ⟨_, rfl⟩
  · exact ⟨_, rfl⟩

/-! ### Writes of the registers (20_memory.md R66, R68) -/

/-- A write turn at a register's offset has the effect of its target, while BUSY = 0 or where the register is open then too. -/
theorem step_of_register_write {s : State} {a : BitVec 17} {v : Word} {rest : List Turn} {t : Target}
    (turn : s.schedule = .write32 a v :: rest) (h : (a.toNat, t) ∈ registerMap)
    (hb : s.pend = none ∨ t.writableWhileBusy = true) :
    step s = .next ((({ s with schedule := rest } : State).writeTarget v t).respond .ok) := by
  obtain ⟨h4, hm⟩ := mapped_of_mem_registerMap s.cfg h
  exact step_write32 turn (accepts_of_mapped h4 hm hb)

/-- Settles O25: offset 0x010 names CMD. -/
theorem cmdWriteLatchesTheCommand : Obligations.CmdWriteLatchesTheCommand := by
  intro s v rest turn hp
  exact step_of_register_write (t := .cmd) turn (by decide) (.inl hp)

/-- A write of CTRL with SRST = 0 sets IE (10_state.md R38). -/
theorem writeCtrl_of_srst_clear (s : State) {v : Word} (h : v.getLsbD 1 = false) :
    s.writeCtrl v = { s with ie := v.getLsbD 0 } :=
  if_neg (by rw [h]; exact Bool.false_ne_true)

/-- A write of STATUS clears DONE where bit 1 is 1 (10_state.md R39). -/
theorem writeStatus_eq (s : State) (v : Word) : s.writeStatus v = { s with done := s.done && !v.getLsbD 1 } := by
  unfold State.writeStatus
  cases v.getLsbD 1 <;> simp

/-- Settles O26: CTRL and STATUS are open to writes while BUSY too; a cleared DONE takes irq low. -/
theorem controlWritesSetEnableAndClearDone : Obligations.ControlWritesSetEnableAndClearDone := by
  refine ⟨fun _ => rfl, fun s v rest => ⟨fun turn hsrst => ?_, fun turn => ⟨_, ?_, rfl, fun hv => ?_⟩⟩⟩
  · rw [step_of_register_write (t := .ctrl) turn (by decide) (.inr rfl), State.writeTarget, writeCtrl_of_srst_clear _ hsrst]
    rfl
  · rw [step_of_register_write (t := .status) turn (by decide) (.inr rfl), State.writeTarget, writeStatus_eq]
    rfl
  · simp [State.irq, hv]

/-- The targets with access code RO (10_state.md), whose writes 20_memory.md R66 ignores. -/
def Target.readOnly : Target → Bool
  | .ctrl | .status | .cmd | .src | .dst | .len | .buf _ => false
  | _ => true

theorem writeTarget_of_readOnly (s : State) (v : Word) {t : Target} (h : t.readOnly = true) : s.writeTarget v t = s := by
  cases t with
  | ctrl | status | cmd | src | dst | len | buf => cases h
  | _ => rfl

/-- The read-only offsets: seven registers, the four tag registers, and the context window. -/
theorem mapped_readOnly {p : Params} {a : Nat}
    (h : a ∈ [0x000, 0x004, 0x020, 0x024, 0x028, 0x02C, 0x030, 0x040, 0x044, 0x048, 0x04C] ∨
      (a % 4 = 0 ∧ 0x200 ≤ a ∧ a ≤ 0x200 + 64 * p.nctx - 4)) :
    a % 4 = 0 ∧ ∃ t, mapped p a = some t ∧ t.readOnly = true := by
  obtain hmem | ⟨h4, hlo, hhi⟩ := h
  · have rows : ∀ x ∈ [0x000, 0x004, 0x020, 0x024, 0x028, 0x02C, 0x030, 0x040, 0x044, 0x048, 0x04C],
        (0x040 ≤ x ∧ x ≤ 0x04C ∧ x % 4 = 0) ∨ ∃ q ∈ registerMap, q.1 = x ∧ q.2.readOnly = true := by decide
    obtain ⟨hlo, hhi, h4⟩ | ⟨⟨x, t⟩, hrow, rfl, hro⟩ := rows a hmem
    · exact ⟨h4, _, mapped_tag p hlo hhi, rfl⟩
    · obtain ⟨h4, hm⟩ := mapped_of_mem_registerMap p hrow
      exact ⟨h4, t, hm, hro⟩
  · exact ⟨h4, _, mapped_ctx p hlo (by omega), rfl⟩

/-- Settles O28: each offset of the list names a read-only target, whose write leaves the state as it is. -/
theorem readOnlyRegistersIgnoreWrites : Obligations.ReadOnlyRegistersIgnoreWrites := by
  intro s a v rest turn hp hoffset
  obtain ⟨h4, t, hm, hro⟩ := mapped_readOnly hoffset
  rw [step_write32 turn (accepts_of_mapped h4 hm (.inl hp)), writeTarget_of_readOnly _ _ hro]
  rfl

end Sys2Proof.Machine

namespace Sys2Proof

/-! ### The fields of a command word (30_encoding.md R90) -/

theorem toNat_opField (w : Word) : (opField w).toNat = w.toNat % 16 := by
  simp [opField]

theorem toNat_ctxField (w : Word) : (ctxField w).toNat = w.toNat / 16 % 8 := by
  simp [ctxField, Nat.shiftRight_eq_div_pow]

theorem toNat_ciphField (w : Word) : (ciphField w).toNat = w.toNat / 256 % 16 := by
  simp [ciphField, Nat.shiftRight_eq_div_pow]

theorem reservedBit7_eq_zero_iff (w : Word) : reservedBit7 w = 0 ↔ w.toNat / 128 % 2 = 0 := by
  simp [reservedBit7, ← BitVec.toNat_inj, Nat.shiftRight_eq_div_pow]

theorem reservedHigh_eq_zero_iff (w : Word) : reservedHigh w = 0 ↔ w.toNat / 4096 = 0 := by
  have hlt : w.toNat / 4096 < 1048576 := Nat.div_lt_of_lt_mul w.isLt
  simp [reservedHigh, ← BitVec.toNat_inj, Nat.shiftRight_eq_div_pow, Nat.mod_eq_of_lt hlt]

theorem getLsbD_seven_iff (w : Word) : w.getLsbD 7 = true ↔ reservedBit7 w ≠ 0 := by
  rw [Ne, reservedBit7_eq_zero_iff, BitVec.getLsbD, Nat.testBit_eq_decide_div_mod_eq]
  simp

theorem validOp_iff (w : Word) : validOp w = true ↔ 1 ≤ w.toNat % 16 ∧ w.toNat % 16 ≤ 6 := by
  simp [validOp, toNat_opField]

theorem wellFormed_iff (i : Instr) : i.wellFormed = true ↔ i.ctx < 8 := by
  cases i <;> exact decide_eq_true_iff


/-! ### What decoding answers (30_encoding.md R92, R93) -/

/-- The fields of `w` are those of the command `i` in R90's table, the reserved ones 0. -/
structure Spells (w : Word) (i : Instr) : Prop where
  op : (opField w).toNat = i.opcode
  ctx : (ctxField w).toNat = i.ctx
  ciph : ciphField w = i.cipherId
  bit7 : reservedBit7 w = 0
  high : reservedHigh w = 0

/-- A reserved bit is set, or CIPH ≠ 0 where OP is not SETKEY: what is RESERVED_FIELD when OP is valid (R93). -/
def ReservedFieldSet (w : Word) : Prop :=
  reservedBit7 w ≠ 0 ∨ reservedHigh w ≠ 0 ∨ (opField w ≠ 1 ∧ ciphField w ≠ 0)

theorem decode_of_invalid_op {w : Word} (hv : validOp w = false) : decode w = .error .illegalOp := if_pos hv

theorem decode_of_reservedFieldSet {w : Word} (hv : validOp w = true) (hr : ReservedFieldSet w) :
    decode w = .error .reservedField := by
  have hvf : ¬ validOp w = false := by simp [hv]
  rw [decode, if_neg hvf]
  by_cases hbits : reservedBit7 w ≠ 0 ∨ reservedHigh w ≠ 0
  · exact if_pos hbits
  · rw [if_neg hbits]
    exact if_pos ((or_assoc.mpr hr).resolve_left hbits)

theorem decode_of_spells {w : Word} {i : Instr} (h : Spells w i) : decode w = .ok i := by
  have hop : opField w = BitVec.ofNat 4 i.opcode := by rw [← h.op, BitVec.ofNat_toNat, BitVec.setWidth_eq]
  cases i <;>
    simp [decode, validOp, hop, h.bit7, h.high, h.ciph, h.ctx, Instr.opcode, Instr.ctx, Instr.cipherId]

/-- Every opcode of R92 has its command; only SETKEY carries a cipher id. -/
theorem exists_instr_of_fields {op : Nat} (c : Nat) {k : BitVec 4} (hop : 1 ≤ op ∧ op ≤ 6) (hk : op ≠ 1 → k = 0) :
    ∃ i : Instr, op = i.opcode ∧ c = i.ctx ∧ k = i.cipherId := by
  obtain rfl | hne := eq_or_ne op 1
  · exact ⟨.setkey c k, rfl, rfl, rfl⟩
  · have hother : op = 2 ∨ op = 3 ∨ op = 4 ∨ op = 5 ∨ op = 6 := by omega
    obtain rfl | rfl | rfl | rfl | rfl := hother
    · exact ⟨.setiv c, rfl, rfl, hk hne⟩
    · exact ⟨.aad c, rfl, rfl, hk hne⟩
    · exact ⟨.encrypt c, rfl, rfl, hk hne⟩
    · exact ⟨.decrypt c, rfl, rfl, hk hne⟩
    · exact ⟨.tag c, rfl, rfl, hk hne⟩

theorem exists_spells {w : Word} (hv : validOp w = true) (hr : ¬ ReservedFieldSet w) : ∃ i, Spells w i := by
  simp only [ReservedFieldSet, not_or, not_and, not_not] at hr
  obtain ⟨hbit7, hhigh, hciph⟩ := hr
  have hop : 1 ≤ (opField w).toNat ∧ (opField w).toNat ≤ 6 := by rwa [toNat_opField, ← validOp_iff]
  have hk : (opField w).toNat ≠ 1 → ciphField w = 0 := fun hne => hciph (mt (congrArg BitVec.toNat) hne)
  obtain ⟨i, hopi, hctx, hcipher⟩ := exists_instr_of_fields (ctxField w).toNat hop hk
  exact ⟨i, hopi, hctx, hcipher, hbit7, hhigh⟩

/-- All that `decode` can answer, and when (R93). -/
theorem decode_cases (w : Word) :
    (validOp w = false ∧ decode w = .error .illegalOp) ∨
    (validOp w = true ∧ ReservedFieldSet w ∧ decode w = .error .reservedField) ∨
    (validOp w = true ∧ ¬ ReservedFieldSet w ∧ ∃ i, Spells w i ∧ decode w = .ok i) := by
  cases hv : validOp w with
  | false => exact .inl ⟨rfl, decode_of_invalid_op hv⟩
  | true =>
    by_cases hr : ReservedFieldSet w
    · exact .inr (.inl ⟨rfl, hr, decode_of_reservedFieldSet hv hr⟩)
    · obtain ⟨i, hi⟩ := exists_spells hv hr
      exact .inr (.inr ⟨rfl, hr, i, hi, decode_of_spells hi⟩)

theorem decode_eq_illegalOp_iff (w : Word) : decode w = .error .illegalOp ↔ validOp w = false := by
  obtain ⟨hv, hd⟩ | ⟨hv, -, hd⟩ | ⟨hv, -, i, -, hd⟩ := decode_cases w <;> simp [hv, hd]

theorem decode_eq_reservedField_iff (w : Word) :
    decode w = .error .reservedField ↔ validOp w = true ∧ ReservedFieldSet w := by
  obtain ⟨hv, hd⟩ | ⟨hv, hr, hd⟩ | ⟨hv, hr, i, -, hd⟩ := decode_cases w
  · simp [hv, hd]
  · simp [hv, hr, hd]
  · simp [hr, hd]

theorem decode_eq_ok_iff_spells (w : Word) (i : Instr) : decode w = .ok i ↔ Spells w i := by
  refine ⟨fun h => ?_, decode_of_spells⟩
  obtain ⟨-, hd⟩ | ⟨-, -, hd⟩ | ⟨-, -, j, hj, hd⟩ := decode_cases w
  · cases hd.symm.trans h
  · cases hd.symm.trans h
  · cases hd.symm.trans h
    exact hj

/-! ### Encoding (30_encoding.md R90, R95) -/

theorem toNat_encode {i : Instr} (h : i.wellFormed = true) :
    (encode i).toNat = i.opcode + 16 * i.ctx + 256 * i.cipherId.toNat := by
  cases i with
  | setkey c k => exact Laws.CommandWord.setkey c k h
  | setiv c => exact Laws.CommandWord.setiv c h
  | aad c => exact Laws.CommandWord.aad c h
  | encrypt c => exact Laws.CommandWord.encrypt c h
  | decrypt c => exact Laws.CommandWord.decrypt c h
  | tag c => exact Laws.CommandWord.tag c h

theorem opcode_le (i : Instr) : i.opcode ≤ 6 := by
  cases i <;> simp [Instr.opcode]

/-- The fields of a word by its value: each is a digit, and the reserved ones are 0. -/
theorem spells_iff_digits (w : Word) (i : Instr) :
    Spells w i ↔ w.toNat % 16 = i.opcode ∧ w.toNat / 16 % 8 = i.ctx ∧ w.toNat / 256 % 16 = i.cipherId.toNat ∧
      w.toNat / 128 % 2 = 0 ∧ w.toNat / 4096 = 0 := by
  rw [← toNat_opField, ← toNat_ctxField, ← toNat_ciphField, BitVec.toNat_inj, ← reservedBit7_eq_zero_iff,
    ← reservedHigh_eq_zero_iff]
  exact ⟨fun ⟨hop, hctx, hciph, hbit7, hhigh⟩ => ⟨hop, hctx, hciph, hbit7, hhigh⟩,
    fun ⟨hop, hctx, hciph, hbit7, hhigh⟩ => ⟨hop, hctx, hciph, hbit7, hhigh⟩⟩

/-- A word spells a command exactly when it is the command's encoding: its value is the sum of its digits. -/
theorem spells_iff_encode (w : Word) (i : Instr) : Spells w i ↔ i.wellFormed = true ∧ encode i = w := by
  have hop := opcode_le i
  have hcipher := i.cipherId.isLt
  rw [spells_iff_digits]
  constructor
  · rintro ⟨hopw, hctx, hciph, hbit7, hhigh⟩
    have hwf : i.wellFormed = true := (wellFormed_iff i).mpr (by omega)
    refine ⟨hwf, BitVec.eq_of_toNat_eq ?_⟩
    rw [toNat_encode hwf]
    omega
  · rintro ⟨hwf, rfl⟩
    have hctx := (wellFormed_iff i).mp hwf
    rw [toNat_encode hwf]
    omega

end Sys2Proof

namespace Sys2Proof.Machine

/-- Settles O2: both sides say that the fields of the word are those of the command. -/
theorem decodeAndEncodeAgree : Obligations.DecodeAndEncodeAgree := fun w i =>
  (decode_eq_ok_iff_spells w i).trans (spells_iff_encode w i)

/-- Settles O3: the two errors of `decode`, with the fields written as digits of the word. -/
theorem nonCommandWordsAreNamed : Obligations.NonCommandWordsAreNamed := by
  intro w
  constructor
  · rw [decode_eq_illegalOp_iff, ← Bool.not_eq_true, validOp_iff]
    omega
  · have hopne : opField w ≠ 1 ↔ w.toNat % 16 ≠ 1 := by
      rw [← toNat_opField]
      exact not_congr BitVec.toNat_inj.symm
    have hciphne : ciphField w ≠ 0 ↔ w.toNat / 256 % 16 ≠ 0 := by
      rw [← toNat_ciphField]
      exact not_congr BitVec.toNat_inj.symm
    rw [decode_eq_reservedField_iff, validOp_iff, ReservedFieldSet, ← getLsbD_seven_iff, Ne, reservedHigh_eq_zero_iff,
      hopne, hciphne]

/-- Settles O1: each word is the encoding of a well-formed command, so O2 gives its decoding. -/
theorem spelledWordsDecode : Obligations.SpelledWordsDecode := by
  refine ⟨?_, ?_, ?_, ?_, ?_, ?_, ?_⟩
  all_goals exact (decodeAndEncodeAgree _ _).mpr (by decide)

end Sys2Proof.Machine

namespace Sys2Proof.Machine

/-! ### The bytes of sums and shifts (40_field_algebra.md R111, R113, R114) -/

theorem byte_xor (a b : Block) (k : Nat) : Block.byte (a ^^^ b) k = Block.byte a k ^^^ Block.byte b k :=
  BitVec.extractLsb'_xor

@[simp] theorem byte_zero (k : Nat) : Block.byte 0#128 k = 0#8 := by simp [Block.byte]

/-- Byte 0 of a Block shifted right by one bit. -/
theorem byte_shiftOne_zero (v : Block) : Block.byte (v >>> 1) 0 = Block.byte v 0 >>> 1 := by
  apply BitVec.eq_of_getLsbD_eq
  intro i hi
  by_cases h7 : i = 7
  · subst h7; simp [Block.byte]
  · simp [Block.byte, hi, show 1 + i < 8 by omega, show 1 + (120 + i) = 120 + (1 + i) by omega]

/-- Byte k of a Block shifted right by one bit takes bit 0 of byte k − 1 at its top. -/
theorem byte_shiftOne (v : Block) (k : Nat) (h1 : 1 ≤ k) (h16 : k < 16) :
    Block.byte (v >>> 1) k = (Block.byte v k >>> 1) ||| ((Block.byte v (k - 1) &&& 1) <<< 7) := by
  apply BitVec.eq_of_getLsbD_eq
  intro i hi
  by_cases h7 : i = 7
  · subst h7
    simp [Block.byte, show 1 + (8 * (15 - k) + 7) = 8 * (15 - (k - 1)) by omega]
  · simp [Block.byte, hi, show 1 + i < 8 by omega, show i < 7 by omega,
      show 1 + (8 * (15 - k) + i) = 8 * (15 - k) + (1 + i) by omega]

/-- Byte k of a Block shifted right by one byte is byte k − 1. -/
theorem byte_shiftEight (v : Block) (k : Nat) (h : k < 16) :
    Block.byte (v >>> 8) k = if k = 0 then 0 else Block.byte v (k - 1) := by
  apply BitVec.eq_of_getLsbD_eq
  intro i hi
  by_cases h0 : k = 0
  · have hout : v.getLsbD (8 + (120 + i)) = false := BitVec.getLsbD_of_ge _ _ (by omega)
    simp [h0, Block.byte, hout]
  · simp [Block.byte, hi, h0,
      show 8 + (8 * (15 - k) + i) = 8 * (15 - (k - 1)) + i by omega]

/-- A 16-bit entry in bytes 0 and 1 of a Block. -/
theorem byte_topHalf (r : Half) (k : Nat) (h : k < 16) :
    Block.byte (r ++ 0#112) k = if k < 2 then r.extractLsb' (8 * (1 - k)) 8 else 0 := by
  apply BitVec.eq_of_getLsbD_eq
  intro i hi
  rw [Block.byte, BitVec.getLsbD_extractLsb',
    show ∀ j, BitVec.getLsbD (w := 128) (r ++ 0#112) j = _ from fun j => BitVec.getLsbD_append]
  by_cases hk : k < 2
  · rw [if_neg (by omega), if_pos hk, BitVec.getLsbD_extractLsb', show 8 * (15 - k) + i - 112 = 8 * (1 - k) + i by omega]
  · rw [if_pos (by omega), if_neg hk]; simp

/-- The only byte of a `byteBlock` that is not zero is byte 0. -/
theorem byte_byteBlock (b : Byte) (k : Nat) (h : k < 16) : Block.byte (byteBlock b) k = if k = 0 then b else 0 := by
  apply BitVec.eq_of_getLsbD_eq
  intro i hi
  rw [Block.byte, BitVec.getLsbD_extractLsb', byteBlock,
    show ∀ j, BitVec.getLsbD (w := 128) (b ++ 0#120) j = _ from fun j => BitVec.getLsbD_append]
  by_cases hk : k = 0
  · subst hk; simp [hi]
  · rw [if_pos (by omega), if_neg hk]; simp

theorem fieldByte_eq_byteBlock : fieldByte = byteBlock 0xE1 := rfl

/-! ### The polynomial of a Block (00_scope.md R12) -/

open Polynomial

theorem ite_xor_eq_add (a b : Bool) (p : (ZMod 2)[X]) :
    (if a ^^ b then p else 0) = (if a then p else 0) + (if b then p else 0) := by
  cases a <;> cases b <;> simp [CharTwo.add_self_eq_zero]

theorem p8_xor (a b : Byte) : p8 (a ^^^ b) = p8 a + p8 b := by
  simp only [p8, BitVec.getLsbD_xor, ite_xor_eq_add, Finset.sum_add_distrib]

@[simp] theorem p8_zero : p8 0#8 = 0 := by simp [p8]

theorem poly_eq_bytes (b : Block) : poly b = ∑ k ∈ Finset.range 16, p8 (Block.byte b k) * X ^ (8 * k) := by
  refine Finset.sum_congr rfl (fun k _ => ?_)
  rw [p8, Finset.sum_mul]
  refine Finset.sum_congr rfl (fun j hj => ?_)
  rw [ite_mul, zero_mul, ← pow_add, show 8 * k + 7 - j = 7 - j + 8 * k by have := Finset.mem_range.mp hj; omega]

theorem poly_eq_coefficients (b : Block) : poly b = ∑ i ∈ Finset.range 128, if b.getMsbD i then X ^ i else 0 := by
  have blocks (f : Nat → (ZMod 2)[X]) (n : Nat) :
      ∑ k ∈ Finset.range n, ∑ j ∈ Finset.range 8, f (8 * k + j) = ∑ i ∈ Finset.range (8 * n), f i := by
    induction n with
    | zero => rfl
    | succ n ih => rw [Finset.sum_range_succ, ih, Nat.mul_succ, Finset.sum_range_add]
  rw [← blocks _ 16, poly]
  refine Finset.sum_congr rfl (fun k hk => ?_)
  rw [← Finset.sum_range_reflect]
  refine Finset.sum_congr rfl (fun j hj => ?_)
  have hk := Finset.mem_range.mp hk
  have hj := Finset.mem_range.mp hj
  rw [getLsbD_byte b k _ hk (by omega), show 8 * k + 7 - (8 - 1 - j) = 8 * k + j by omega]

theorem poly_xor (a b : Block) : poly (a ^^^ b) = poly a + poly b := by
  simp only [poly_eq_bytes, byte_xor, p8_xor, add_mul, Finset.sum_add_distrib]

@[simp] theorem poly_zero : poly 0#128 = 0 := by simp [poly_eq_bytes]

theorem poly_byteBlock (b : Byte) : poly (byteBlock b) = p8 b := by
  rw [poly_eq_bytes, Finset.sum_eq_single_of_mem 0 (by simp)]
  · simp [byte_byteBlock]
  · intro k hk h0
    rw [byte_byteBlock b k (Finset.mem_range.mp hk), if_neg h0]
    simp

theorem coeff_poly (b : Block) (i : Nat) (hi : i < 128) : (poly b).coeff i = if b.getMsbD i then 1 else 0 := by
  simp only [poly_eq_coefficients, finsetSum_coeff, apply_ite (fun p : (ZMod 2)[X] => p.coeff i), coeff_X_pow, coeff_zero]
  rw [Finset.sum_eq_single_of_mem i (by simpa using hi)]
  · simp
  · intro j _ hj; simp [hj.symm]

theorem poly_injective : Function.Injective poly := by
  intro a b h
  apply BitVec.eq_of_getMsbD_eq
  intro i hi
  have hc := congrArg (fun p => p.coeff i) h
  simp only [coeff_poly _ _ hi] at hc
  cases ha : a.getMsbD i <;> cases hb : b.getMsbD i <;> simp_all

theorem degree_poly_lt (b : Block) : (poly b).degree < (128 : ℕ) := by
  rw [poly_eq_coefficients]
  refine (degree_sum_le _ _).trans_lt ((Finset.sup_lt_iff (WithBot.bot_lt_coe _)).mpr (fun i hi => ?_))
  split
  · rw [degree_X_pow]; exact_mod_cast Finset.mem_range.mp hi
  · rw [degree_zero]; exact WithBot.bot_lt_coe _

/-! ### The field GF(2)[x]/P (40_field_algebra.md R110) -/

theorem fieldPoly_eq_add : fieldPoly = X ^ 128 + (X ^ 7 + X ^ 2 + X + 1) := by
  unfold fieldPoly
  abel

theorem degree_fieldPoly_tail : (X ^ 7 + X ^ 2 + X + 1 : (ZMod 2)[X]).degree < (128 : ℕ) := by
  have : (X ^ 7 + X ^ 2 + X + 1 : (ZMod 2)[X]).degree ≤ 7 := by compute_degree
  exact this.trans_lt (by norm_cast)

theorem monic_fieldPoly : fieldPoly.Monic := by
  rw [fieldPoly_eq_add]
  exact monic_X_pow_add degree_fieldPoly_tail

theorem degree_fieldPoly : fieldPoly.degree = (128 : ℕ) := by
  rw [fieldPoly_eq_add]
  rw [degree_add_eq_left_of_degree_lt (degree_fieldPoly_tail.trans_eq (degree_X_pow 128).symm), degree_X_pow]

/-- The element of the field a Block stands for. -/
noncomputable def fieldVal (b : Block) : AdjoinRoot fieldPoly := AdjoinRoot.mk fieldPoly (poly b)

/-- `x` as an element of the field. -/
noncomputable def fieldX : AdjoinRoot fieldPoly := AdjoinRoot.root fieldPoly

theorem poly_mod_fieldPoly (b : Block) : poly b %ₘ fieldPoly = poly b :=
  (modByMonic_eq_self_iff monic_fieldPoly).mpr ((degree_poly_lt b).trans_eq degree_fieldPoly.symm)

/-- A Block is the remainder of `p` exactly when both stand for the same element. -/
theorem poly_eq_mod_iff (z : Block) (p : (ZMod 2)[X]) :
    poly z = p %ₘ fieldPoly ↔ fieldVal z = AdjoinRoot.mk fieldPoly p := by
  rw [fieldVal, AdjoinRoot.mk_eq_mk, ← modByMonic_eq_zero_iff_dvd monic_fieldPoly, sub_modByMonic, poly_mod_fieldPoly,
    sub_eq_zero]

theorem isProduct_iff (x y z : Block) : IsProduct x y z ↔ fieldVal z = fieldVal x * fieldVal y := by
  rw [IsProduct, poly_eq_mod_iff, map_mul, fieldVal, fieldVal, fieldVal]

theorem fieldVal_injective : Function.Injective fieldVal := fun a b h =>
  poly_injective (((poly_eq_mod_iff a (poly b)).mpr h).trans (poly_mod_fieldPoly b))

theorem fieldVal_xor (a b : Block) : fieldVal (a ^^^ b) = fieldVal a + fieldVal b := by
  rw [fieldVal, poly_xor, map_add, fieldVal, fieldVal]

@[simp] theorem fieldVal_zero : fieldVal 0#128 = 0 := by rw [fieldVal, poly_zero, map_zero]

/-- `x^128` is the field-polynomial byte in byte 0. -/
theorem fieldVal_fieldByte : fieldVal fieldByte = fieldX ^ 128 := by
  have hp : poly fieldByte = fieldPoly + X ^ 128 := by
    have hbits : p8 0xE1#8 = X ^ 7 + X ^ 2 + X + 1 := by
      simp [p8, Finset.sum_range_succ]
    rw [fieldByte_eq_byteBlock, poly_byteBlock, fieldPoly_eq_add, add_right_comm, CharTwo.add_self_eq_zero, zero_add]
    exact hbits
  rw [fieldVal, hp, map_add, AdjoinRoot.mk_self, zero_add, map_pow, AdjoinRoot.mk_X, fieldX]

/-- A shift by one bit multiplies by x all but the coefficient of x^127, which it drops. -/
theorem poly_shiftOne (v : Block) : poly v * X = poly (v >>> 1) + if v.getLsbD 0 then X ^ 128 else 0 := by
  have hlast : v.getLsbD 0 = v.getMsbD 127 := by simp [BitVec.getMsbD]
  have hnext (i : Nat) (hi : i < 127) : (v >>> 1).getMsbD (i + 1) = v.getMsbD i := by
    simp [BitVec.getMsbD_ushiftRight, show i + 1 < 128 by omega]
  rw [poly_eq_coefficients v, Finset.sum_range_succ _ 127, hlast, add_mul, Finset.sum_mul, ite_mul, zero_mul, ← pow_succ,
    poly_eq_coefficients (v >>> 1), Finset.sum_range_succ' _ 127]
  rw [add_left_inj]
  rw [if_neg (by simp), add_zero]
  refine Finset.sum_congr rfl (fun i hi => ?_)
  rw [hnext i (Finset.mem_range.mp hi), ite_mul, zero_mul, ← pow_succ]

/-- MulX is multiplication by x (R111). -/
theorem fieldVal_mulX (v : Block) : fieldVal (mulX v) = fieldVal v * fieldX := by
  have hv := congrArg (AdjoinRoot.mk fieldPoly) (poly_shiftOne v)
  rw [map_mul, map_add, AdjoinRoot.mk_X] at hv
  rw [mulX_eq, fieldVal_xor]
  refine Eq.trans ?_ hv.symm
  congr 1
  split
  · rw [fieldVal_fieldByte, map_pow, AdjoinRoot.mk_X, fieldX]
  · rw [map_zero]; exact fieldVal_zero

theorem fieldVal_xTimes (i : Nat) (v : Block) : fieldVal (xTimes i v) = fieldVal v * fieldX ^ i := by
  induction i with
  | zero => rw [xTimes, pow_zero, mul_one]
  | succ i ih => rw [xTimes, fieldVal_mulX, ih, pow_succ, mul_assoc]

theorem fieldVal_xsum (n : Nat) (f : Nat → Block) : fieldVal (xsum n f) = ∑ i ∈ Finset.range n, fieldVal (f i) := by
  induction n with
  | zero => exact fieldVal_zero
  | succ n ih => rw [xsum, fieldVal_xor, ih, Finset.sum_range_succ]

/-- The shift-and-add product is the product of the field (R110). -/
theorem fieldVal_gmul (x y : Block) : fieldVal (gmul x y) = fieldVal x * fieldVal y := by
  have hx : fieldVal x = ∑ i ∈ Finset.range 128, if x.getMsbD i then fieldX ^ i else 0 := by
    rw [fieldVal, poly_eq_coefficients, map_sum]
    refine Finset.sum_congr rfl (fun i _ => ?_)
    rw [apply_ite (AdjoinRoot.mk fieldPoly), map_pow, map_zero, AdjoinRoot.mk_X, fieldX]
  rw [gmul_eq_xsum, fieldVal_xsum, hx, Finset.sum_mul]
  refine Finset.sum_congr rfl (fun i _ => ?_)
  split
  · rw [fieldVal_xTimes, mul_comm]
  · rw [zero_mul]; exact fieldVal_zero

theorem fieldVal_byteBlock (b : Byte) : fieldVal (byteBlock b) = AdjoinRoot.mk fieldPoly (p8 b) := by
  rw [fieldVal, poly_byteBlock]

/-- A Block is the sum of its bytes, byte k times x^(8k) (00_scope.md R12). -/
theorem fieldVal_eq_bytes (b : Block) :
    fieldVal b = ∑ k ∈ Finset.range 16, fieldVal (byteBlock (Block.byte b k)) * fieldX ^ (8 * k) := by
  rw [fieldVal, poly_eq_bytes, map_sum]
  refine Finset.sum_congr rfl (fun k _ => ?_)
  rw [map_mul, map_pow, AdjoinRoot.mk_X, fieldVal_byteBlock, fieldX]

/-! ### The tables (R112) -/

/-- Both tables are those of the key `hk`. -/
def Cache.TablesOf (hk : Block) (c : Cache) : Prop :=
  ∀ b, c.mAt b = gmul (byteBlock b) hk ∧ c.rAt b = reductionEntry b

theorem tablesOf_build (hk : Block) (n : Nat) (c : Cache) : (Cache.build hk n c).TablesOf hk :=
  fun b => ⟨mAt_build hk n c b, rAt_build hk n c b⟩

/-- The reduction of `x^(j+128)`, j < 8, ends at the coefficient of x^14. -/
theorem xTimes_fieldByte_low : ∀ j, j < 8 → (xTimes j fieldByte).extractLsb' 0 113 = 0#113 := by decide

theorem gmul_byteBlock_fieldByte_low (b : Byte) : (gmul (byteBlock b) fieldByte).extractLsb' 0 113 = 0#113 := by
  rw [gmul_byteBlock, bitSum,
    map_xsum (fun x : Block => x.extractLsb' 0 113) (by simp) (fun x y => BitVec.extractLsb'_xor)]
  refine xsum_zero (fun j hj => ?_)
  split
  · exact xTimes_fieldByte_low j hj
  · decide

theorem getLsbD_gmul_byteBlock_fieldByte (b : Byte) (i : Nat) (hi : i < 113) :
    (gmul (byteBlock b) fieldByte).getLsbD i = false := by
  have h := congrArg (fun x => x.getLsbD i) (gmul_byteBlock_fieldByte_low b)
  simpa [BitVec.getLsbD_extractLsb', hi] using h

/-- R[b] holds all of the product: no coefficient lies beyond bytes 0 and 1. -/
theorem reductionEntry_append (b : Byte) : reductionEntry b ++ 0#112 = gmul (byteBlock b) fieldByte := by
  apply BitVec.eq_of_getLsbD_eq
  intro i hi
  refine BitVec.getLsbD_append.trans ?_
  split
  · rw [getLsbD_gmul_byteBlock_fieldByte b i (by omega)]; simp
  · rw [reductionEntry, BitVec.getLsbD_extractLsb', show 112 + (i - 112) = i by omega]
    simp [show i - 112 < 16 by omega]

theorem reductionEntry_lsb (b : Byte) : (reductionEntry b).getLsbD 0 = false := by
  rw [reductionEntry, BitVec.getLsbD_extractLsb', getLsbD_gmul_byteBlock_fieldByte b _ (by omega), Bool.and_false]

theorem fieldVal_reductionEntry (b : Byte) :
    fieldVal (reductionEntry b ++ 0#112) = fieldVal (byteBlock b) * fieldX ^ 128 := by
  rw [reductionEntry_append, fieldVal_gmul, fieldVal_fieldByte]

/-! ### Multiplication by tables (R113, R115) -/

/-- A shift by one byte multiplies by x^8 all but byte 15, which it drops. -/
theorem fieldVal_shiftEight (v : Block) :
    fieldVal v * fieldX ^ 8 = fieldVal (v >>> 8) + fieldVal (byteBlock (Block.byte v 15)) * fieldX ^ 128 := by
  rw [fieldVal_eq_bytes v, Finset.sum_range_succ _ 15, add_mul, Finset.sum_mul, mul_assoc, ← pow_add,
    fieldVal_eq_bytes (v >>> 8), Finset.sum_range_succ' _ 15]
  rw [add_left_inj]
  rw [byte_shiftEight v 0 (by omega), if_pos rfl, show fieldVal (byteBlock 0) = 0 from fieldVal_zero, zero_mul, add_zero]
  refine Finset.sum_congr rfl (fun k hk => ?_)
  have hk := Finset.mem_range.mp hk
  rw [byte_shiftEight v (k + 1) (by omega), if_neg k.succ_ne_zero, Nat.add_sub_cancel, mul_assoc, ← pow_add,
    Nat.mul_succ]

theorem fieldVal_mulX8 {hk : Block} {c : Cache} (h : c.TablesOf hk) (v : Block) :
    fieldVal (c.mulX8 v) = fieldVal v * fieldX ^ 8 := by
  obtain ⟨-, hr⟩ := h (Block.byte v 15)
  rw [Cache.mulX8, fieldVal_xor, hr, fieldVal_reductionEntry, fieldVal_shiftEight]

/-- Horner's scheme from byte n − 1 down to byte 0. -/
theorem fieldVal_foldl_mulX8 {hk : Block} {c : Cache} (h : c.TablesOf hk) (x : Block) (n : Nat) (z : Block) :
    fieldVal ((List.range n).reverse.foldl (fun z k => c.mulX8 z ^^^ c.mAt (Block.byte x k)) z) =
      fieldVal z * fieldX ^ (8 * n) +
        (∑ k ∈ Finset.range n, fieldVal (byteBlock (Block.byte x k)) * fieldX ^ (8 * k)) * fieldVal hk := by
  induction n generalizing z with
  | zero => simp
  | succ n ih =>
    obtain ⟨hm, -⟩ := h (Block.byte x n)
    rw [List.range_succ, List.reverse_append, List.reverse_singleton, List.singleton_append, List.foldl_cons, ih,
      fieldVal_xor, fieldVal_mulX8 h, hm, fieldVal_gmul, Finset.sum_range_succ, Nat.mul_succ, pow_add]
    ring

/-- Shoup's multiplication is the product with the key of the tables (R121). -/
theorem fieldVal_mul {hk : Block} {c : Cache} (h : c.TablesOf hk) (x : Block) :
    fieldVal (c.mul x) = fieldVal x * fieldVal hk := by
  obtain ⟨hm, -⟩ := h (Block.byte x 15)
  refine (fieldVal_foldl_mulX8 h x 15 _).trans ?_
  rw [hm, fieldVal_gmul, fieldVal_eq_bytes x, Finset.sum_range_succ _ 15]
  ring

theorem tablesOf_ensureCache {s : State} {n : Nat} (h : CacheOk s) (hn : n < s.cfg.nctx) :
    (s.ensureCache n).cache.TablesOf (s.slot n).key := by
  have h8 : n < 8 := hn.trans_le s.cfg.nctx_le
  have hok : CacheOk (s.ensureCache n) :=
    h.of_cacheStep (cacheStep_ensureCache s n) hn (by simp) (by simp)
  obtain ⟨hv, htag⟩ := (validFor_iff _ h8).mp (validFor_ensureCache s n)
  obtain ⟨-, htables⟩ := hok hv
  rwa [htag, State.slot_ensureCache] at htables

/-! ### The initial counter (R119) -/

theorem toNat_payloadBlocks (d : BitVec 64) : (payloadBlocks d).toNat = (d.toNat + 127) / 128 % 2 ^ 32 :=
  BitVec.toNat_ofNat _ _

/-- The block count by way of the complement: 2^64 is a multiple of 128, and 2^57 of 2^32. -/
theorem payloadBlocks_eq_neg (d : BitVec 64) : payloadBlocks d = -BitVec.ofNat 32 ((2 ^ 64 - d.toNat) % 2 ^ 64 / 128) := by
  have hd := d.isLt
  apply BitVec.eq_of_toNat_eq
  rw [toNat_payloadBlocks, BitVec.toNat_neg, BitVec.toNat_ofNat]
  omega

/-- Adding the blocks back to the initial suffix gives the current one. -/
theorem suffix_initialCounter_add (v : Slot) :
    Block.suffix (initialCounter v) + payloadBlocks (Block.databits v.lens) = Block.suffix v.ctr := by
  rw [initialCounter, suffix_ofCounter, BitVec.sub_add_cancel]

/-! ### The statements -/

/-- Settles O54: the two parts of a counter block read back. -/
theorem incrementIsConfinedToTheSuffix : Obligations.IncrementIsConfinedToTheSuffix := fun _ =>
  ⟨suffix_ofCounter _ _, ivpart_ofCounter _ _⟩

/-- Settles O55: a Block made of lanes has them as its bytes, and past the end of F the lane is 0. -/
theorem byteLanesAreIndependent : Obligations.ByteLanesAreIndependent := by
  intro a ks f hf
  refine ⟨fun i hi => ?_, ?_, by rw [length_ksXor, Nat.min_eq_left hf], fun i hi => getD_ksXor f ks i hi (by omega)⟩
  · rw [xorPrefix, byte_xor, Block.ofBytes, byte_ofLanes _ _ hi]
    split
    · rfl
    · next h => rw [List.getD_eq_default _ _ (by omega)]; exact BitVec.xor_zero
  · rw [xorPrefix, ofBytes_congr (g := f ++ List.replicate (16 - f.length) 0)]
    intro i hi
    by_cases h : i < f.length
    · rw [List.getD_append _ _ _ _ h]
    · rw [List.getD_append_right _ _ _ _ (by omega), List.getD_eq_default _ _ (by omega),
        List.getD_replicate _ (by omega)]

/-- Settles O47: the bytes of a one-bit shift, and the carry into byte 0 as the reduction of x^128. -/
theorem mulXMultipliesByX : Obligations.MulXMultipliesByX := by
  intro v
  have hcarry : (Block.byte v 15).getLsbD 0 = v.getLsbD 0 := by simp [Block.byte]
  have hbyte (k : Nat) (hk : k < 16) : Block.byte (mulX v) k =
      Block.byte (v >>> 1) k ^^^ if k = 0 then (if v.getLsbD 0 then 0xE1 else 0) else 0 := by
    rw [mulX_eq, byte_xor, apply_ite (Block.byte · k), fieldByte_eq_byteBlock, byte_byteBlock _ _ hk]
    split <;> simp
  refine ⟨?_, fun k h1 hk => ?_, ?_⟩
  · rw [hbyte 0 (by omega), if_pos rfl, byte_shiftOne_zero, hcarry]
  · rw [hbyte k hk, if_neg (by omega), byte_shiftOne v k h1 hk]
    exact BitVec.xor_zero
  · rw [poly_eq_mod_iff, map_mul, AdjoinRoot.mk_X]
    exact fieldVal_mulX v

/-- Settles O48: multiplication by each power of x, summed. -/
theorem shiftAndAddIsTheFieldProduct : Obligations.ShiftAndAddIsTheFieldProduct := fun x y =>
  (isProduct_iff x y _).mpr (fieldVal_gmul x y)

/-- Settles O49: the entries of the built tables are field products. -/
theorem rebuildBuildsBothTables : Obligations.RebuildBuildsBothTables := by
  intro s n hn
  refine ⟨fun b => ?_, rfl, (BitVec.toNat_ofNat n 3).trans (Nat.mod_eq_of_lt hn), rfl⟩
  rw [State.rebuild_cache, mAt_build, rAt_build]
  refine ⟨?_, ?_, reductionEntry_lsb b⟩
  · rw [poly_eq_mod_iff, fieldVal_gmul, map_mul, fieldVal_byteBlock, fieldVal]
  · rw [poly_eq_mod_iff, fieldVal_reductionEntry, map_mul, map_pow, AdjoinRoot.mk_X, fieldVal_byteBlock, fieldX]

/-- Settles O50: byte 15 comes back as the reduction of its multiple of x^128. -/
theorem mulX8IsEightMulX : Obligations.MulX8IsEightMulX := by
  refine ⟨fun c v => ?_, fun hk n c v => ?_⟩
  · have hbyte (k : Nat) (hk : k < 16) : Block.byte (c.mulX8 v) k = (if k = 0 then 0 else Block.byte v (k - 1)) ^^^
        if k < 2 then (c.rAt (Block.byte v 15)).extractLsb' (8 * (1 - k)) 8 else 0 := by
      rw [Cache.mulX8, byte_xor, byte_shiftEight v k hk, byte_topHalf _ k hk]
    refine ⟨?_, hbyte 1 (by omega), fun k h2 hk => ?_⟩
    · rw [hbyte 0 (by omega), if_pos rfl, if_pos (by omega)]
      exact BitVec.zero_xor
    · rw [hbyte k hk, if_neg (by omega), if_neg (by omega)]
      exact BitVec.xor_zero
  · have hx8 := fieldVal_mulX8 (tablesOf_build hk n c) v
    refine ⟨fieldVal_injective (hx8.trans (fieldVal_xTimes 8 v).symm), ?_⟩
    rw [poly_eq_mod_iff, hx8, map_mul, map_pow, AdjoinRoot.mk_X, fieldVal, fieldX]

/-- Settles O51: Horner's scheme over the tables that `ensureCache` leaves. -/
theorem mulHIsTheFieldProduct : Obligations.MulHIsTheFieldProduct := fun _ _ x hok hn =>
  (isProduct_iff _ _ _).mpr (fieldVal_mul (tablesOf_ensureCache hok hn) x)

/-- Settles O52: the product of O51, which is 0 for the Block 0. -/
theorem hashFoldIsOneMoreProduct : Obligations.HashFoldIsOneMoreProduct := by
  intro s n hok hn
  have hprod := mulHIsTheFieldProduct s n
    ((s.slot n).hash ^^^ Block.ofLengths (Block.aadbits (s.slot n).lens) (Block.databits (s.slot n).lens)) hok hn
  refine ⟨hprod, ofLengths_parts _, fun hhash hlens => ?_, State.slot_ensureCache s n⟩
  rw [isProduct_iff, ofLengths_parts, hhash, hlens, show (0 ^^^ 0 : Block) = 0#128 from BitVec.xor_self,
    fieldVal_zero, zero_mul, ← fieldVal_zero] at hprod
  rw [State.hashFold, ofLengths_parts, hhash, hlens]
  exact fieldVal_injective hprod

/-- Settles O53: the suffix plus the payload blocks is the current suffix, read as numbers. -/
theorem initialCounterRewindsThePayloadBlocks : Obligations.InitialCounterRewindsThePayloadBlocks := by
  refine ⟨fun v => ⟨ivpart_ofCounter _ _, ?_⟩, payloadBlocks_eq_neg, by decide, by decide, by decide, by decide, by decide⟩
  have h := congrArg BitVec.toNat (suffix_initialCounter_add v)
  rw [BitVec.toNat_add, toNat_payloadBlocks, Nat.add_mod_mod] at h
  exact h

end Sys2Proof.Machine

namespace Sys2Proof.Machine

/-! ### Accepted commands -/

/-- An accepted instruction is its body. -/
theorem exec_of_accepted {i : Instr} {s : State} {p : Pending} (h : Accepted s p (commandOf i) i.ctx) :
    exec i s = .next (commandBody Config.cipher i s) := by
  rw [exec_eq, run_of_accepted h]

/-- An accepted command's operands are those PEND latched (30_encoding.md R91). -/
theorem Accepted.operands {s : State} {p : Pending} {c : Command} {n : Nat} (h : Accepted s p c n) : s.operands = p :=
  State.operands_of_pend h.1

theorem Accepted.lt_nctx {s : State} {p : Pending} {c : Command} {n : Nat} (h : Accepted s p c n) : n < s.cfg.nctx := by
  obtain ⟨-, -, hslot, -⟩ := h
  exact hslot

/-! ### SETKEY by the adapter's answer (41_key_iv.md R140) -/

/-- The adapter's status decides between the failure and the success. -/
theorem setkey_of_answer {s : State} {C : Cipher} {k : BitVec 4} {st : Byte} {cs : CipherState}
    (h : C.setKey k (s.memRead s.operands.src.toNat s.operands.len.toNat) = (st, cs)) (n : Nat) :
    s.setkey C n k = if st ≠ 0 then (s.clearSlot n).keyFailed n st else (s.clearSlot n).keyReady C n st cs := by
  rw [State.setkey, h]

/-- SETKEY's invalidation keeps CACHE_TAG, and clears CACHE_VALID exactly for a cache valid for the slot (10_state.md R30). -/
theorem Cache.invalidate_tag_valid (k : Nat) (c : Cache) {n : Nat} (hn : n < 8) :
    (c.invalidate k n).tag = c.tag ∧
      if c.valid = true ∧ c.tag.toNat = n then (c.invalidate k n).valid = false else c.invalidate k n = c := by
  simp only [← validFor_iff c hn]
  obtain ⟨hother, hc⟩ | ⟨hfor, hvalid, htag⟩ := Cache.invalidate_cases k c n
  · exact ⟨congrArg Cache.tag hc, by rwa [if_neg (by simp [hother])]⟩
  · exact ⟨htag, by rwa [if_pos hfor]⟩

theorem cache_keyFailed (s : State) (n : Nat) (st : Byte) :
    ((s.clearSlot n).keyFailed n st).cache = s.cache.invalidate s.freeCtr n := rfl

/-- A failed SETKEY rebuilds nothing (60_exceptions.md R196). -/
theorem rebuilds_keyFailed (s : State) (n : Nat) (st : Byte) : ((s.clearSlot n).keyFailed n st).rebuilds = s.rebuilds := by
  simp [State.keyFailed, State.clearSlot]

theorem toNat_tag_build (hk : Block) {n : Nat} (hn : n < 8) (c : Cache) : (Cache.build hk n c).tag.toNat = n :=
  (BitVec.toNat_ofNat n 3).trans (Nat.mod_eq_of_lt hn)

/-- Settles O12: the failure and the success of SETKEY, each read field by field. -/
theorem setkeyLoadsTheKeyOrReportsFailure : Obligations.SetkeyLoadsTheKeyOrReportsFailure := by
  intro s p n ciph haccepted
  have hn : n < 8 := haccepted.lt8
  rw [← haccepted.operands]
  rcases hanswer : Config.cipher.setKey ciph (s.memRead s.operands.src.toNat s.operands.len.toNat) with ⟨st, cs⟩
  refine ⟨_, exec_of_accepted (i := .setkey n ciph) haccepted, ?_⟩
  simp only [commandBody, setkey_of_answer hanswer n]
  split
  · next hfailed =>
    rw [slot_keyFailed s n st hn, cache_keyFailed, rebuilds_keyFailed]
    exact ⟨rfl, fun _ => ⟨rfl, rfl, rfl, Cache.invalidate_tag_valid s.freeCtr s.cache hn⟩, fun h => absurd h hfailed⟩
  · next hready =>
    rw [slot_keyReady s Config.cipher n st cs hn]
    exact ⟨rfl, fun h => absurd h hready, fun _ => ⟨rfl, rfl, rfl, toNat_tag_build _ hn _, cs, rfl, rfl⟩⟩

/-! ### SETIV (41_key_iv.md R141) -/

theorem slot_startMessage (s : State) {n : Nat} (hn : n < 8) :
    (s.startMessage n).slot n = { s.slot n with hash := 0, lens := 0, ctr := counterOne } :=
  State.slot_setSlot_self s n _ hn

theorem mulH_processCore (s : State) (E : Block → Block) {n : Nat} (mode : Mode) (src dst len : Nat) (hn : n < 8)
    (x : Block) : (s.processCore E n mode src dst len).mulH n x = s.mulH n x :=
  (mulH_fragments E n mode _ src dst len _ hn x).trans (mulH_countBits s n mode len hn x)

/-- With the cache that of the tagged key, MulH is the product with the slot's key (40_field_algebra.md R121). -/
theorem mulH_eq_gmul {s : State} {n : Nat} (hok : CacheOk s) (hn : n < s.cfg.nctx) (x : Block) :
    s.mulH n x = gmul x (s.slot n).key :=
  fieldVal_injective ((fieldVal_mul (tablesOf_ensureCache hok hn) x).trans (fieldVal_gmul x _).symm)

theorem hashFoldl_eq_ghashFold {s : State} {n : Nat} (hok : CacheOk s) (hn : n < s.cfg.nctx) (a : Block)
    (bs : List Block) : hashFoldl s n a bs = ghashFold (s.slot n).key a bs := by
  simp only [hashFoldl, ghashFold, mulH_eq_gmul hok hn]

theorem cacheOk_startMessage {s : State} {n : Nat} (hok : CacheOk s) (hn : n < 8) : CacheOk (s.startMessage n) := by
  refine hok.congr rfl rfl (fun _ => ?_)
  by_cases hm : s.cache.tag.toNat = n
  · rw [hm, slot_startMessage s hn]
  · exact congrArg Slot.key (State.slot_setSlot_ne s n _ _ hm)

/-- The running hash of IVD from the start of a message. -/
theorem hash_startMessage_ivd {s : State} {n : Nat} (E : Block → Block) (src len : Nat) (hok : CacheOk s)
    (hn : n < s.cfg.nctx) :
    (((s.startMessage n).processCore E n .ivd src 0 len).slot n).hash =
      ghashFold (s.slot n).key 0 (blocksOf (s.memRead src len)) := by
  have hn8 : n < 8 := hn.trans_le s.cfg.nctx_le
  rw [hash_processCore (mode := .ivd) _ _ _ _ _ _ hn8 nofun, if_neg nofun,
    hashFoldl_eq_ghashFold (cacheOk_startMessage hok hn8) hn, slot_startMessage s hn8]
  rfl

/-- The length block of IVD: no AAD, 8·len bits of IV (40_field_algebra.md R117). -/
theorem countBits_ivd_zero (len : Nat) : countBits .ivd len 0 = Block.ofLengths 0 (BitVec.ofNat 64 (8 * len)) := by
  have hzero : Block.aadbits 0 = 0 ∧ Block.databits 0 = 0 := by decide
  rw [countBits, hzero.1, hzero.2]
  exact congrArg (Block.ofLengths 0) (BitVec.zero_add _)

/-- IVD from the start of a message and one more product with the lengths is GHASH(H, ∅, IV) (R141, 90_conflicts.md C2). -/
theorem hashFold_startMessage_ivd {s : State} {n : Nat} (E : Block → Block) (src len : Nat) (hok : CacheOk s)
    (hn : n < s.cfg.nctx) :
    ((s.startMessage n).processCore E n .ivd src 0 len).hashFold n = ghash (s.slot n).key [] (s.memRead src len) := by
  have hn8 : n < 8 := hn.trans_le s.cfg.nctx_le
  have hlens : (((s.startMessage n).processCore E n .ivd src 0 len).slot n).lens = countBits .ivd len 0 := by
    rw [slot_processCore_kept _ _ _ _ _ _ _ hn8, slot_startMessage s hn8]
  rw [State.hashFold, ofLengths_parts, mulH_processCore _ _ _ _ _ _ hn8, mulH_eq_gmul (cacheOk_startMessage hok hn8) hn,
    hash_startMessage_ivd E src len hok hn, hlens, countBits_ivd_zero, slot_startMessage s hn8, ghash,
    State.length_memRead]
  rfl

/-- The slot SETIV leaves: CTR is `IV ‖ be32(1)` or GHASH(H, ∅, IV) (R141). -/
theorem slot_setiv {s : State} {n : Nat} (hok : CacheOk s) (hn : n < s.cfg.nctx) (C : Cipher) :
    (s.setiv C n).slot n = { s.slot n with
      hash := 0, lens := 0, phase := .ivready,
      ctr := if s.operands.len.toNat = 12 then Block.ofBytes (s.memRead s.operands.src.toNat 12 ++ [0, 0, 0, 1])
        else ghash (s.slot n).key [] (s.memRead s.operands.src.toNat s.operands.len.toNat) } := by
  have hn8 : n < 8 := hn.trans_le s.cfg.nctx_le
  have hstart := slot_startMessage s hn8
  rw [State.setiv, slot_setPhase_self _ _ _ hn8]
  split
  · have hiv := ofBytes_iv (s.memRead s.operands.src.toNat 12) (by simp)
    rw [State.copyIv, State.slot_setSlot_self _ _ _ hn8, hstart, ← hiv]
    rfl
  · rw [State.hashIv, State.slot_setSlot_self _ _ _ hn8, hashFold_startMessage_ivd _ _ _ hok hn,
      slot_processCore_kept _ _ _ _ _ _ _ hn8, hstart]

/-- Settles O13: the slot SETIV leaves, with the operands PEND latched. -/
theorem setivDerivesTheInitialCounter : Obligations.SetivDerivesTheInitialCounter := by
  intro s p n hok haccepted
  have hlen : p.len.toNat = 12 ↔ p.len = 12 := BitVec.toNat_inj (y := 12)
  refine ⟨_, exec_of_accepted (i := .setiv n) haccepted, ?_⟩
  simp only [commandBody, slot_setiv hok haccepted.lt_nctx, haccepted.operands, hlen]

/-! ### The all-zero IV (41_key_iv.md R142 item 3) -/

/-- A slot with HASH, LENS and CTR set to what they are is the slot. -/
theorem Slot.hash_lens_ctr_self {v : Slot} {h l c : Block} (hh : v.hash = h) (hl : v.lens = l) (hc : v.ctr = c) :
    { v with hash := h, lens := l, ctr := c } = v := by
  rw [← hh, ← hl, ← hc]

/-- Writing a slot as it stands changes nothing. -/
theorem setSlot_of_eq {s : State} {n : Nat} {v : Slot} (h : v = s.slot n) : s.setSlot n v = s := by
  rw [h, setSlot_self]

/-- The 12-byte all-zero IV beside the suffix 1 is the counter SETKEY leaves (41_key_iv.md R140, R142). -/
theorem ofCounter_zeroIv :
    Block.ofCounter (Block.ivpart (Block.ofBytes (List.replicate 12 0))) (Block.suffix 1#128) = 1#128 := by
  decide

/-- Settles O19: neither the reset of the message nor the IV changes the slot SETKEY left. -/
theorem zeroIvAfterSetkeyOnlyMovesThePhase : Obligations.ZeroIvAfterSetkeyOnlyMovesThePhase := by
  intro s p n haccepted hlen hiv hhash hlens hctr hphase
  have hstart : s.startMessage n = s := setSlot_of_eq (Slot.hash_lens_ctr_self hhash hlens hctr)
  have hcopy : s.copyIv n p.src.toNat = s := setSlot_of_eq (by rw [hiv, hctr, ofCounter_zeroIv, ← hctr])
  rw [exec_of_accepted (i := .setiv n) haccepted]
  simp only [commandBody]
  rw [State.setiv, hstart, haccepted.operands, if_pos (by rw [hlen]; rfl), hcopy]

/-! ### The frame of the commands that store nothing -/

/-- What a command can do: only the record of a fault differs, if anything, or its checks have passed and its body runs. -/
theorem run_record_or_body (s : State) (c : Command) (n : Nat) (body : State → State) :
    (∃ f k w, s.runCommand (s.check c n) body = { s with fault := f, cause := k, faultcmd := w } ∧
      FaultRecordKept s { s with fault := f, cause := k, faultcmd := w }) ∨
    (n < s.cfg.nctx ∧ s.runCommand (s.check c n) body = body s) := by
  obtain e | ⟨hfault, k, e⟩ | ⟨-, hn, e⟩ := run_cases s c n body
  · exact .inl ⟨s.fault, s.cause, s.faultcmd, e, .inl ⟨rfl, rfl, rfl⟩⟩
  · exact .inl ⟨true, k, s.operands.word, e, .inr ⟨hfault, rfl, rfl⟩⟩
  · exact .inr ⟨hn, e⟩

theorem CacheStep.keptOrRebuilt {s t : State} {n : Nat} (h : CacheStep s t n) : CacheKeptOrRebuilt s t n :=
  h.imp_right And.right

/-- SETKEY stores nothing in BUF or TAGREG, whatever the adapter answers (41_key_iv.md R140). -/
theorem setkey_buf_tagreg (s : State) (C : Cipher) (n : Nat) (k : BitVec 4) :
    (s.setkey C n k).buf = s.buf ∧ (s.setkey C n k).tagreg = s.tagreg := by
  obtain ⟨st, e⟩ | ⟨st, cs, e⟩ := setkey_cases s C n k <;> rw [e]
  · simp [State.keyFailed, State.clearSlot]
  · simp [State.keyReady, State.clearSlot]

/-- SETKEY, SETIV, AAD and TAG store nothing in BUF. -/
theorem bufByte_body {i : Instr} (s : State) (h : (commandOf i).writesBuf = false) (a : Nat) :
    (commandBody Config.cipher i s).bufByte a = s.bufByte a := by
  cases i with
  | setkey n k =>
    obtain ⟨hhost, -⟩ := host_body (.setkey n k) s
    exact State.bufByte_congr (setkey_buf_tagreg s Config.cipher n k).1 hhost.bufEpoch a
  | setiv n => exact bufByte_setiv s Config.cipher n a
  | aad n => exact bufByte_processCore s _ n .aadm _ 0 _ a (.inl rfl)
  | encrypt n => cases h
  | decrypt n => cases h
  | tag n => exact State.bufByte_congr (State.ensureCache_buf s n) (State.ensureCache_bufEpoch s n) a

/-- No command but SETKEY takes the number of a free value (log 7). -/
theorem freeCtr_body (i : Instr) (s : State) (h : commandOf i ≠ .setkey) :
    (commandBody Config.cipher i s).freeCtr = s.freeCtr := by
  by_cases ht : commandOf i = .tag
  · cases i with
    | tag n => exact State.ensureCache_freeCtr s n
    | _ => cases ht
  · exact (sameRest_body i s h ht).freeCtr

/-- Only TAG writes TAGREG (43_tag.md R180). -/
theorem tagreg_body (i : Instr) (s : State) (h : commandOf i ≠ .tag) :
    (commandBody Config.cipher i s).tagreg = s.tagreg := by
  by_cases hk : commandOf i = .setkey
  · cases i with
    | setkey n k => exact (setkey_buf_tagreg s Config.cipher n k).2
    | _ => cases hk
  · exact (sameRest_body i s hk h).tagreg

/-- AAD keeps CTR and DATABITS (42_process.md R160). -/
theorem slot_aad_kept (s : State) (C : Cipher) {n : Nat} (hn : n < 8) :
    ((s.aad C n).slot n).ctr = (s.slot n).ctr ∧
      Block.databits ((s.aad C n).slot n).lens = Block.databits (s.slot n).lens := by
  rw [State.aad, slot_setPhase_self _ _ _ hn, slot_processCore_kept _ _ _ _ _ _ _ hn]
  exact ⟨rfl, databits_ofLengths _ _⟩

/-- TAG keeps every context field it reads (43_tag.md R180). -/
theorem slot_tag_kept (s : State) (C : Cipher) {n : Nat} (hn : n < 8) :
    ((s.tag C n).slot n).hash = (s.slot n).hash ∧ ((s.tag C n).slot n).lens = (s.slot n).lens ∧
      ((s.tag C n).slot n).ctr = (s.slot n).ctr := by
  rw [slot_tag s C n hn]
  exact ⟨rfl, rfl, rfl⟩

/-- Settles O20: the record of a fault is all that changes, or the body keeps each part. -/
theorem frameOfCommandsThatStoreNothing : Obligations.FrameOfCommandsThatStoreNothing := by
  intro i s t hstore hexec
  rw [exec_eq] at hexec
  cases hexec
  obtain ⟨f, k, w, e, hrecord⟩ | ⟨hslot, e⟩ :=
    run_record_or_body s (commandOf i) i.ctx (commandBody Config.cipher i) <;> rw [e]
  · exact ⟨by constructor <;> rfl, hrecord, fun _ _ => rfl, fun _ => rfl,
      fun _ => ⟨.inl ⟨rfl, rfl⟩, rfl, rfl, rfl, rfl, rfl⟩, fun _ => rfl, fun _ => ⟨rfl, rfl⟩, fun _ => ⟨rfl, rfl, rfl⟩⟩
  · have hn : i.ctx < 8 := hslot.trans_le s.cfg.nctx_le
    obtain ⟨hhost, hrecord⟩ := host_body i s
    refine ⟨hhost, .inl hrecord, slot_body_ne i s, bufByte_body s hstore, fun hk => ?_, tagreg_body i s, fun ha => ?_,
      fun ht => ?_⟩
    · obtain ⟨hkeyerr, hkstat⟩ := keyStatus_body i s hk
      exact ⟨(cacheStep_body i s hn hk).keptOrRebuilt, hkstat, hkeyerr, freeCtr_body i s hk, key_body i s hn hk i.ctx⟩
    · cases i with
      | aad n => exact slot_aad_kept s Config.cipher hn
      | _ => cases ha
    · cases i with
      | tag n => exact slot_tag_kept s Config.cipher hn
      | _ => cases ht

end Sys2Proof.Machine

namespace Sys2Proof.Machine

/-! ### The streaming commands: AAD, ENCRYPT and DECRYPT (42_process.md R160 to R162) -/

/-- The mode a streaming command runs `ProcessCore` in; none for the other three commands. -/
def streamMode : Command → Option Mode
  | .aad => some .aadm
  | .encrypt => some .enc
  | .decrypt => some .dec
  | .setkey => none
  | .setiv => none
  | .tag => none

theorem exists_streamMode {c : Command} (h : c = .aad ∨ c = .encrypt ∨ c = .decrypt) : ∃ mode, streamMode c = some mode := by
  obtain rfl | rfl | rfl := h
  · exact ⟨.aadm, rfl⟩
  · exact ⟨.enc, rfl⟩
  · exact ⟨.dec, rfl⟩

/-- The commands that write BUF are the streaming ones whose mode writes. -/
theorem exists_streamMode_of_writesBuf {c : Command} (h : c.writesBuf = true) :
    ∃ mode, streamMode c = some mode ∧ mode.writes = true := by
  cases c with
  | encrypt => exact ⟨.enc, rfl, rfl⟩
  | decrypt => exact ⟨.dec, rfl, rfl⟩
  | _ => cases h

/-- What a streaming command is: it reads BUF, writes it exactly when its mode does, and is legal in the phase it leaves. -/
theorem command_of_streamMode {c : Command} {mode : Mode} (h : streamMode c = some mode) :
    c.readsBuf = true ∧ c.writesBuf = mode.writes ∧ c.legal (nextPhase c) = true ∧ c ≠ .setkey ∧ c ≠ .tag := by
  cases c with
  | aad => cases h; exact ⟨rfl, rfl, rfl, nofun, nofun⟩
  | encrypt => cases h; exact ⟨rfl, rfl, rfl, nofun, nofun⟩
  | decrypt => cases h; exact ⟨rfl, rfl, rfl, nofun, nofun⟩
  | _ => cases h

/-- A mode that does not write has no use for the output address. -/
theorem fragment_dst {mode : Mode} (h : mode.writes = false) (s : State) (E : Block → Block) (n src dst dst' k : Nat) :
    s.fragment E n mode src dst k = s.fragment E n mode src dst' k := by
  cases mode with
  | aadm => rfl
  | ivd => rfl
  | _ => cases h

theorem fragments_dst {mode : Mode} (h : mode.writes = false) (E : Block → Block) (n c src dst dst' len : Nat) (s : State) :
    State.fragments E n mode c src dst len s = State.fragments E n mode c src dst' len s := by
  induction c generalizing src dst dst' len s with
  | zero => rfl
  | succ c ih =>
    rw [State.fragments, State.fragments, fragment_dst h s E n src dst dst']
    exact ih _ _ _ _ _

/-- The body of a streaming command: `ProcessCore` on the latched operands, then the phase (R160 to R162). -/
theorem body_of_streamMode {i : Instr} {mode : Mode} (h : streamMode (commandOf i) = some mode) (s : State) :
    commandBody Config.cipher i s =
      (s.processCore (s.cipherE Config.cipher i.ctx) i.ctx mode s.operands.src.toNat s.operands.dst.toNat
        s.operands.len.toNat).setPhase i.ctx (nextPhase (commandOf i)) := by
  cases i with
  | aad n =>
    cases h
    exact congrArg (State.setPhase · n .aad) (fragments_dst (mode := .aadm) rfl _ n _ _ 0 _ _ _)
  | encrypt n => cases h; rfl
  | decrypt n => cases h; rfl
  | _ => cases h

/-- The two ranges of an accepted command that writes are equal or disjoint (60_exceptions.md R192). -/
theorem Accepted.ranges {s : State} {p : Pending} {c : Command} {n : Nat} {mode : Mode} (h : Accepted s p c n)
    (hc : streamMode c = some mode) (hm : mode.writes = true) :
    p.src.toNat = p.dst.toNat ∨ p.src.toNat + p.len.toNat ≤ p.dst.toNat ∨ p.dst.toNat + p.len.toNat ≤ p.src.toNat := by
  obtain ⟨-, hw, -⟩ := command_of_streamMode hc
  exact h.disj (hw.trans hm)

/-- An accepted streaming command: the output under the keystream, and the slot with its data counted and hashed and the counter
stepped. ENC hashes the bytes it wrote, the other modes those they read. -/
theorem exec_of_streamMode {i : Instr} {s : State} {p : Pending} {mode : Mode} (hok : CacheOk s)
    (h : Accepted s p (commandOf i) i.ctx) (hc : streamMode (commandOf i) = some mode) :
    ∃ t, exec i s = .next t ∧
      (mode.writes = true → t.memRead p.dst.toNat p.len.toNat =
        ctrXor (Config.cipher.enc (s.slot i.ctx).ciphst) (s.slot i.ctx).ctr (s.memRead p.src.toNat p.len.toNat)) ∧
      t.slot i.ctx = { s.slot i.ctx with
        phase := nextPhase (commandOf i)
        lens := countBits mode p.len.toNat (s.slot i.ctx).lens
        ctr := if mode.writes then counterAt (s.slot i.ctx).ctr (fragmentCount p.len.toNat) else (s.slot i.ctx).ctr
        hash := ghashFold (s.slot i.ctx).key (s.slot i.ctx).hash (blocksOf
          (if mode = .enc then t.memRead p.dst.toNat p.len.toNat else s.memRead p.src.toNat p.len.toNat)) } := by
  have hn : i.ctx < 8 := h.lt8
  refine ⟨_, exec_of_accepted h, ?_⟩
  rw [body_of_streamMode hc, h.operands]
  refine ⟨fun hm => memRead_processCore s _ _ mode _ _ _ hn hm (h.ranges hc hm), ?_⟩
  rw [slot_setPhase_self _ _ _ hn, slot_processCore s _ _ mode _ _ _ hn (fun hd => h.ranges hc (by rw [hd]; rfl)),
    hashFoldl_eq_ghashFold hok h.lt_nctx]
  rfl

/-- Settles O14: AADM reads the data, counts it in AADBITS and steps no counter. -/
theorem aadCountsAndHashesItsData : Obligations.AadCountsAndHashesItsData := by
  intro s p n hok h
  obtain ⟨t, hexec, -, hslot⟩ := exec_of_streamMode (i := .aad n) hok h rfl
  exact ⟨t, hexec, hslot⟩

/-- Settles O15: ENC hashes what it wrote. -/
theorem encryptWritesAndHashesTheCiphertext : Obligations.EncryptWritesAndHashesTheCiphertext := by
  intro s p n hok h
  obtain ⟨t, hexec, hout, hslot⟩ := exec_of_streamMode (i := .encrypt n) hok h rfl
  exact ⟨t, hexec, hout rfl, hslot⟩

/-- Settles O16: DEC hashes what it read. -/
theorem decryptWritesThePlaintextAndHashesTheCiphertext : Obligations.DecryptWritesThePlaintextAndHashesTheCiphertext := by
  intro s p n hok h
  obtain ⟨t, hexec, hout, hslot⟩ := exec_of_streamMode (i := .decrypt n) hok h rfl
  exact ⟨t, hexec, hout rfl, hslot⟩

/-- Settles O18: with no data `ProcessCore` changes nothing. -/
theorem emptyDataOnlyMovesThePhase : Obligations.EmptyDataOnlyMovesThePhase := by
  intro i s p hi h hlen
  obtain ⟨mode, hc⟩ := exists_streamMode hi
  rw [exec_of_accepted h, body_of_streamMode hc, h.operands, hlen]
  exact congrArg (fun t : State => Host.Outcome.next (t.setPhase i.ctx _)) (processCore_zero s _ _ _ _ _)

/-! ### The frame of ENCRYPT and DECRYPT -/

/-- A mode that writes counts in DATABITS only (40_field_algebra.md R117). -/
theorem aadbits_countBits {mode : Mode} (h : mode.writes = true) (k : Nat) (lens : Block) :
    Block.aadbits (countBits mode k lens) = Block.aadbits lens := by
  cases mode with
  | enc => exact aadbits_ofLengths _ _
  | dec => exact aadbits_ofLengths _ _
  | _ => cases h

/-- The counter stays in its IV (40_field_algebra.md R116). -/
theorem ivpart_counterAt (b : Block) (k : Nat) : Block.ivpart (counterAt b k) = Block.ivpart b := ivpart_ofCounter _ _

/-- Of the slot's views a command that writes BUF keeps AADBITS and the IV part (R161, R162). -/
theorem views_body_of_writes {i : Instr} {mode : Mode} (hc : streamMode (commandOf i) = some mode) (hm : mode.writes = true)
    (s : State) (hn : i.ctx < 8) :
    Block.aadbits ((commandBody Config.cipher i s).slot i.ctx).lens = Block.aadbits (s.slot i.ctx).lens ∧
      Block.ivpart ((commandBody Config.cipher i s).slot i.ctx).ctr = Block.ivpart (s.slot i.ctx).ctr := by
  rw [body_of_streamMode hc, slot_setPhase_self _ _ _ hn, slot_processCore_kept _ _ _ _ _ _ _ hn, if_pos hm]
  exact ⟨aadbits_countBits hm _ _, ivpart_counterAt _ _⟩

/-- BUF outside the output range (R161, R162). -/
theorem bufByte_body_of_streamMode {i : Instr} {mode : Mode} (hc : streamMode (commandOf i) = some mode) (s : State) (a : Nat)
    (ha : ¬(s.operands.dst.toNat ≤ a ∧ a < s.operands.dst.toNat + s.operands.len.toNat)) :
    (commandBody Config.cipher i s).bufByte a = s.bufByte a := by
  rw [body_of_streamMode hc]
  exact bufByte_processCore s _ _ mode _ _ _ a (.inr (.inr (by omega)))

/-- Settles O21: the record of a fault is all that changes, or the body keeps each part. -/
theorem frameOfEncryptAndDecrypt : Obligations.FrameOfEncryptAndDecrypt := by
  intro i s t hw hexec
  rw [exec_eq] at hexec
  cases hexec
  obtain ⟨f, k, w, e, hrecord⟩ | ⟨hslot, e⟩ :=
    run_record_or_body s (commandOf i) i.ctx (commandBody Config.cipher i) <;> rw [e]
  · exact ⟨by constructor <;> rfl, hrecord, fun _ _ => rfl, fun _ _ => rfl, .inl ⟨rfl, rfl⟩, rfl, rfl, rfl, rfl, rfl, rfl,
      rfl, rfl⟩
  · have hn : i.ctx < 8 := hslot.trans_le s.cfg.nctx_le
    obtain ⟨mode, hc, hm⟩ := exists_streamMode_of_writesBuf hw
    obtain ⟨-, -, -, hk, ht⟩ := command_of_streamMode hc
    obtain ⟨hhost, hrecord, hkstat, hkeyerr, hfree, htag⟩ := (sameRest_body i s hk ht).frame
    obtain ⟨hkey, hciphst⟩ := key_body i s hn hk i.ctx
    exact ⟨hhost, hrecord, slot_body_ne i s, bufByte_body_of_streamMode hc s, (cacheStep_body i s hn hk).keptOrRebuilt,
      hkstat, hkeyerr, hfree, htag, hkey, hciphst, views_body_of_writes hc hm s hn⟩

/-! ### DECRYPT undoes ENCRYPT (42_process.md R164) -/

/-- The same keystream twice gives the bytes back. -/
theorem ctrXor_ctrXor (E : Block → Block) (ctr : Block) (bs : List Byte) : ctrXor E ctr (ctrXor E ctr bs) = bs := by
  apply List.ext_getElem
  · simp [ctrXor]
  · intro j _ hj
    simp [ctrXor, hj]

/-- Settles O43: both commands meet the same keystream, and both hash the ciphertext. -/
theorem decryptUndoesEncrypt : Obligations.DecryptUndoesEncrypt := by
  intro s s' t t' p p' n n' hok hok' h h' hslot hlen hexec hcipher hexec'
  obtain ⟨u, hu, hout, hu_slot⟩ := encryptWritesAndHashesTheCiphertext s p n hok h
  obtain ⟨u', hu', hout', hu_slot'⟩ := decryptWritesThePlaintextAndHashesTheCiphertext s' p' n' hok' h'
  cases hexec.symm.trans hu
  cases hexec'.symm.trans hu'
  rw [hlen, hslot, hcipher] at hout' hu_slot'
  refine ⟨?_, hu_slot'.trans hu_slot.symm⟩
  rw [hout', hout, ctrXor_ctrXor]

end Sys2Proof.Machine

namespace Sys2Proof.Machine

/-! ### A command split at a multiple of 16 bytes (42_process.md R163)

A command counts its bits first, then runs its fragments, then moves the phase. No fragment reads or writes LENS, PHASE or PEND, so
`relabel` moves past the fragments, and the state a command leaves is its fragments, relabelled once.
-/

/-- `s` with the given LENS and PHASE in slot `n`, and PEND. -/
def State.relabel (s : State) (n : Nat) (lens : Block) (phase : Phase) (pend : Option Pending) : State :=
  { s.setSlot n { s.slot n with lens := lens, phase := phase } with pend := pend }

section Relabel

variable (s : State) {n : Nat} (hn : n < 8) (lens : Block) (phase : Phase) (pend : Option Pending)

/-- A write of the slot goes over the slot's part of a relabelling. -/
theorem setSlot_relabel (v : Slot) : (s.relabel n lens phase pend).setSlot n v = { s.setSlot n v with pend := pend } :=
  congrArg (fun t : State => { t with pend := pend }) (setSlot_setSlot s n _ v)

include hn

theorem slot_relabel_self : (s.relabel n lens phase pend).slot n = { s.slot n with lens := lens, phase := phase } :=
  State.slot_setSlot_self s n _ hn

/-- A relabelling goes over the LENS and PHASE of a write of the slot. -/
theorem relabel_setSlot (v : Slot) :
    (s.setSlot n v).relabel n lens phase pend = { s.setSlot n { v with lens := lens, phase := phase } with pend := pend } := by
  rw [State.relabel, State.slot_setSlot_self s n v hn, setSlot_setSlot]

/-- A relabelling keeps the key, so `Rebuild` builds the same cache. -/
theorem ensureCache_relabel :
    (s.relabel n lens phase pend).ensureCache n = (s.ensureCache n).relabel n lens phase pend := by
  have hrebuild : (s.relabel n lens phase pend).rebuild n = (s.rebuild n).relabel n lens phase pend := by
    rw [State.rebuild, slot_relabel_self s hn]
    rfl
  unfold State.ensureCache
  rw [hrebuild]
  exact (apply_ite (State.relabel · n lens phase pend) _ _ _).symm

theorem mulH_relabel (x : Block) : (s.relabel n lens phase pend).mulH n x = s.mulH n x :=
  mulH_congr (s := s) (t := s.relabel n lens phase pend) rfl (by rw [slot_relabel_self s hn]) x

theorem absorb_relabel (g : List Byte) :
    (s.relabel n lens phase pend).absorb n g = (s.absorb n g).relabel n lens phase pend := by
  rw [State.absorb, State.absorb, ensureCache_relabel s hn, setSlot_relabel, relabel_setSlot _ hn, mulH_relabel s hn,
    slot_relabel_self s hn]

theorem stepCounter_relabel :
    (s.relabel n lens phase pend).stepCounter n = (s.stepCounter n).relabel n lens phase pend := by
  rw [State.stepCounter, State.stepCounter, setSlot_relabel, relabel_setSlot _ hn, slot_relabel_self s hn]

theorem payloadFragment_relabel (E : Block → Block) (dst : Nat) (f : List Byte)
    (pick : List Byte → List Byte → List Byte) :
    (s.relabel n lens phase pend).payloadFragment E n dst f pick =
      (s.payloadFragment E n dst f pick).relabel n lens phase pend := by
  have hctr : ((s.relabel n lens phase pend).slot n).ctr = (s.slot n).ctr := by rw [slot_relabel_self s hn]
  rw [State.payloadFragment, State.payloadFragment, hctr, stepCounter_relabel s hn]
  exact absorb_relabel ((s.stepCounter n).memWrite dst (ksXor f (E (inc32 (s.slot n).ctr)))) hn lens phase pend _

/-- No fragment reads or writes LENS, PHASE or PEND (40_field_algebra.md R117). -/
theorem fragment_relabel (E : Block → Block) (mode : Mode) (src dst k : Nat) :
    (s.relabel n lens phase pend).fragment E n mode src dst k =
      (s.fragment E n mode src dst k).relabel n lens phase pend := by
  have hread : (s.relabel n lens phase pend).memRead src k = s.memRead src k := rfl
  cases mode <;> simp only [State.fragment, hread]
  case aadm => exact absorb_relabel s hn lens phase pend _
  case ivd => exact absorb_relabel s hn lens phase pend _
  case enc => exact payloadFragment_relabel s hn lens phase pend E dst _ _
  case dec => exact payloadFragment_relabel s hn lens phase pend E dst _ _

theorem fragments_relabel (E : Block → Block) (mode : Mode) (c src dst len : Nat) :
    State.fragments E n mode c src dst len (s.relabel n lens phase pend) =
      (State.fragments E n mode c src dst len s).relabel n lens phase pend := by
  induction c generalizing src dst len s with
  | zero => rfl
  | succ c ih => rw [State.fragments, fragment_relabel s hn, ih]; rfl

end Relabel

/-- Of two relabellings the last one stands. -/
theorem relabel_relabel (s : State) {n : Nat} (hn : n < 8) (l l' : Block) (ph ph' : Phase) (q q' : Option Pending) :
    (s.relabel n l ph q).relabel n l' ph' q' = s.relabel n l' ph' q' := by
  rw [State.relabel, slot_relabel_self s hn, setSlot_relabel]
  rfl

theorem withPend_eq_relabel (s : State) (n : Nat) (pend : Option Pending) :
    { s with pend := pend } = s.relabel n (s.slot n).lens (s.slot n).phase pend :=
  congrArg (fun t : State => { t with pend := pend }) (setSlot_self s n).symm

/-- The fragments a streaming command runs on the operands `p`. -/
def State.streamFragments (s : State) (n : Nat) (mode : Mode) (p : Pending) : State :=
  State.fragments (s.cipherE Config.cipher n) n mode (fragmentCount p.len.toNat) p.src.toNat p.dst.toNat p.len.toNat s

/-- A streaming command in closed form: its fragments, with the bits counted, the phase moved and the operands in PEND. -/
theorem body_eq_relabel {i : Instr} {mode : Mode} (hc : streamMode (commandOf i) = some mode) (hn : i.ctx < 8) (s : State)
    (p : Pending) :
    commandBody Config.cipher i { s with pend := some p } =
      (s.streamFragments i.ctx mode p).relabel i.ctx (countBits mode p.len.toNat (s.slot i.ctx).lens)
        (nextPhase (commandOf i)) (some p) := by
  have hcount (u : State) : u.countBits i.ctx mode p.len.toNat =
      u.relabel i.ctx (countBits mode p.len.toNat (u.slot i.ctx).lens) (u.slot i.ctx).phase u.pend := rfl
  have hE : State.cipherE { s with pend := some p } Config.cipher i.ctx = s.cipherE Config.cipher i.ctx := rfl
  rw [body_of_streamMode hc, State.operands_of_pend (s := { s with pend := some p }) rfl, hE, State.processCore, hcount,
    fragments_relabel _ hn, withPend_eq_relabel s i.ctx, fragments_relabel _ hn, relabel_relabel _ hn, State.setPhase,
    slot_relabel_self _ hn, setSlot_relabel, slot_relabel_self _ hn]
  rfl

theorem streamFragments_relabel (s : State) {n : Nat} (hn : n < 8) (lens : Block) (phase : Phase) (pend : Option Pending)
    (mode : Mode) (p : Pending) :
    (s.relabel n lens phase pend).streamFragments n mode p = (s.streamFragments n mode p).relabel n lens phase pend := by
  have hE : (s.relabel n lens phase pend).cipherE Config.cipher n = s.cipherE Config.cipher n := by
    rw [State.cipherE, slot_relabel_self s hn]
    rfl
  rw [State.streamFragments, hE, fragments_relabel _ hn]
  rfl

/-- Two streaming commands of one kind in a row: the fragments of both in turn, relabelled once. -/
theorem body_body_eq_relabel {i : Instr} {mode : Mode} (hc : streamMode (commandOf i) = some mode) (hn : i.ctx < 8)
    (s : State) (p q : Pending) :
    commandBody Config.cipher i { commandBody Config.cipher i { s with pend := some p } with pend := some q } =
      ((s.streamFragments i.ctx mode p).streamFragments i.ctx mode q).relabel i.ctx
        (countBits mode q.len.toNat (countBits mode p.len.toNat (s.slot i.ctx).lens)) (nextPhase (commandOf i)) (some q) := by
  rw [body_eq_relabel hc hn, body_eq_relabel hc hn s, streamFragments_relabel _ hn, relabel_relabel _ hn,
    slot_relabel_self _ hn]

/-- The loop split after `c` fragments. -/
theorem fragments_add (E : Block → Block) (n : Nat) (mode : Mode) (c d src dst len : Nat) (s : State) :
    State.fragments E n mode (c + d) src dst len s =
      State.fragments E n mode d (src + 16 * c) (dst + 16 * c) (len - 16 * c) (State.fragments E n mode c src dst len s) := by
  induction c generalizing src dst len s with
  | zero => rw [Nat.zero_add]; rfl
  | succ c ih =>
    rw [Nat.succ_add, State.fragments, ih, State.fragments]
    congr 1 <;> omega

/-- Whole fragments do not depend on how much data follows them. -/
theorem fragments_whole (E : Block → Block) (n : Nat) (mode : Mode) (c src dst len : Nat) (s : State) (h : 16 * c ≤ len) :
    State.fragments E n mode c src dst len s = State.fragments E n mode c src dst (16 * c) s := by
  induction c generalizing src dst len s with
  | zero => rfl
  | succ c ih =>
    rw [State.fragments, State.fragments, ih _ _ (len - 16) _ (by omega), show min 16 len = min 16 (16 * (c + 1)) by omega]
    rfl

/-- The fragments of `a + b` bytes are those of the first `a`, then those of the last `b`, `a` a multiple of 16. -/
theorem fragments_split (E : Block → Block) (n : Nat) (mode : Mode) (src dst a b : Nat) (s : State) (ha : a % 16 = 0) :
    State.fragments E n mode (fragmentCount (a + b)) src dst (a + b) s =
      State.fragments E n mode (fragmentCount b) (src + a) (dst + a) b
        (State.fragments E n mode (fragmentCount a) src dst a s) := by
  obtain ⟨c, rfl⟩ : ∃ c, a = 16 * c := ⟨a / 16, by omega⟩
  have hwhole : fragmentCount (16 * c) = c := by unfold fragmentCount; omega
  have hall : fragmentCount (16 * c + b) = c + fragmentCount b := by unfold fragmentCount; omega
  rw [hwhole, hall, fragments_add, fragments_whole E n mode c src dst (16 * c + b) s (by omega),
    Nat.add_sub_cancel_left]

/-- Bits counted in two parts (40_field_algebra.md R120). -/
theorem countBits_add (mode : Mode) (a b : Nat) (lens : Block) :
    countBits mode b (countBits mode a lens) = countBits mode (a + b) lens := by
  cases mode <;>
    simp only [countBits, aadbits_ofLengths, databits_ofLengths, Nat.mul_add, BitVec.ofNat_add, BitVec.add_assoc]

/-- The first part of an accepted command is accepted. -/
theorem Accepted.first_part {s : State} {p : Pending} {c : Command} {n : Nat} (h : Accepted s p c n) {len : Word}
    (hlen : len.toNat ≤ p.len.toNat) : Accepted { s with pend := some { p with len := len } } { p with len := len } c n := by
  obtain ⟨-, hfault, hslot, hlegal, hread, hwrite⟩ := h
  refine ⟨rfl, hfault, hslot, hlegal, fun hr => le_trans (Nat.add_le_add_left hlen _) (hread hr), fun hw => ?_⟩
  obtain ⟨hbound, hranges⟩ := hwrite hw
  refine ⟨le_trans (Nat.add_le_add_left hlen _) hbound, ?_⟩
  show len.toNat = 0 ∨ p.src = p.dst ∨ p.src.toNat + len.toNat ≤ p.dst.toNat ∨ p.dst.toNat + len.toNat ≤ p.src.toNat
  obtain hr | hr | hr | hr := hranges
  · exact .inl (by omega)
  · exact .inr (.inl hr)
  · exact .inr (.inr (.inl (by omega)))
  · exact .inr (.inr (.inr (by omega)))

/-- An address of an accepted range moved on inside the range does not wrap (00_scope.md R5, 30_encoding.md R91). -/
theorem toNat_add_of_inside {q : Params} {x : Word} {a len : Nat} (h : x.toNat + len ≤ q.bufSize) (ha : a ≤ len) :
    (x + BitVec.ofNat 32 a).toNat = x.toNat + a := by
  have := bufSize_le q
  rw [BitVec.toNat_add, BitVec.toNat_ofNat]
  omega

/-- The operands of the second part of a split command (R163). -/
def Pending.rest (p : Pending) (a b : Nat) : Pending :=
  { p with src := p.src + BitVec.ofNat 32 a, dst := p.dst + BitVec.ofNat 32 a, len := BitVec.ofNat 32 b }

/-- The length of a part of a latched length is not reduced modulo 2^32. -/
theorem toNat_ofNat_part {len : Word} {a : Nat} (h : a ≤ len.toNat) : (BitVec.ofNat 32 a).toNat = a :=
  (BitVec.toNat_ofNat a 32).trans (Nat.mod_eq_of_lt (h.trans_lt len.isLt))

theorem Pending.len_rest {p : Pending} {a b : Nat} (h : p.len.toNat = a + b) : (p.rest a b).len.toNat = b :=
  toNat_ofNat_part (len := p.len) (by omega)

/-- The second part of an accepted streaming command is accepted in the state the first part leaves. -/
theorem Accepted.second_part {s t : State} {p : Pending} {c : Command} {n a b : Nat} {mode : Mode} (h : Accepted s p c n)
    (hc : streamMode c = some mode) (hlen : p.len.toNat = a + b) (hfault : t.fault = s.fault) (hcfg : t.cfg = s.cfg)
    (hphase : (t.slot n).phase = nextPhase c) :
    Accepted { t with pend := some (p.rest a b) } (p.rest a b) c n := by
  obtain ⟨-, hnofault, hslot, -, hread, hwrite⟩ := h
  obtain ⟨hreads, -, hlegal, -⟩ := command_of_streamMode hc
  have hsrc : (p.rest a b).src.toNat = p.src.toNat + a := toNat_add_of_inside (hread hreads) (by omega)
  refine ⟨rfl, hfault.trans hnofault, hcfg ▸ hslot, (congrArg c.legal hphase).trans hlegal, fun hr => ?_, fun hw => ?_⟩
  · have := hread hr
    rw [hsrc, Pending.len_rest hlen, hcfg]
    omega
  · obtain ⟨hbound, hranges⟩ := hwrite hw
    have hdst : (p.rest a b).dst.toNat = p.dst.toNat + a := toNat_add_of_inside hbound (by omega)
    rw [hsrc, hdst, Pending.len_rest hlen, hcfg]
    refine ⟨by omega, ?_⟩
    obtain hr | hr | hr | hr := hranges
    · exact .inl (by omega)
    · exact .inr (.inl (congrArg (· + BitVec.ofNat 32 a) hr))
    · exact .inr (.inr (.inl (by omega)))
    · exact .inr (.inr (.inr (by omega)))

/-- Fragments keep the cipher's sub-state, so E(n, ·) stays the same function. -/
theorem cipherE_fragments (C : Cipher) (E : Block → Block) {n : Nat} (hn : n < 8) (mode : Mode) (c src dst len : Nat)
    (s : State) : (State.fragments E n mode c src dst len s).cipherE C n = s.cipherE C n := by
  rw [State.cipherE, slot_fragments_kept _ _ _ _ _ _ _ _ hn]
  rfl

/-- The fragments of a command are those of its first part, then those of the rest. -/
theorem streamFragments_split {s : State} {p : Pending} {c : Command} {n a b : Nat} {mode : Mode} (h : Accepted s p c n)
    (hc : streamMode c = some mode) (hlen : p.len.toNat = a + b) (ha : a % 16 = 0) :
    s.streamFragments n mode p =
      (s.streamFragments n mode { p with len := BitVec.ofNat 32 a }).streamFragments n mode (p.rest a b) := by
  obtain ⟨hreads, hwrites, -⟩ := command_of_streamMode hc
  have hn : n < 8 := h.lt8
  obtain ⟨-, -, -, -, hread, hwrite⟩ := h
  have hfirst : (BitVec.ofNat 32 a).toNat = a := toNat_ofNat_part (len := p.len) (by omega)
  have hsrc : (p.rest a b).src.toNat = p.src.toNat + a := toNat_add_of_inside (hread hreads) (by omega)
  simp only [State.streamFragments]
  rw [cipherE_fragments _ _ hn, hlen, fragments_split _ _ _ _ _ _ _ _ ha, hfirst, Pending.len_rest hlen, hsrc]
  cases hm : mode.writes with
  | false => exact fragments_dst hm _ _ _ _ _ _ _ _
  | true =>
    have hdst : (p.rest a b).dst.toNat = p.dst.toNat + a := toNat_add_of_inside (hwrite (hwrites.trans hm)).1 (by omega)
    rw [hdst]

/-- Settles O44: the two parts run the fragments of the one command in turn, and count the same bits. -/
theorem splitAtAMultipleOfSixteenChangesNothing : Obligations.SplitAtAMultipleOfSixteenChangesNothing := by
  intro i s p a b hi h hlen ha
  obtain ⟨mode, hc⟩ := exists_streamMode hi
  obtain ⟨-, -, -, hk, -⟩ := command_of_streamMode hc
  have hn : i.ctx < 8 := h.lt8
  have hfirst : (BitVec.ofNat 32 a).toNat = a := toNat_ofNat_part (len := p.len) (by omega)
  have hpart := h.first_part (len := BitVec.ofNat 32 a) (by omega)
  obtain ⟨hhost, hfault, -⟩ := host_body i { s with pend := some { p with len := BitVec.ofNat 32 a } }
  have hrest := h.second_part hc hlen hfault hhost.cfg (phase_body i _ hn hk)
  refine ⟨_, _, _, exec_of_accepted h, exec_of_accepted hpart, exec_of_accepted hrest, ?_⟩
  have hone := body_eq_relabel hc hn s p
  have htwo := body_body_eq_relabel hc hn s { p with len := BitVec.ofNat 32 a } (p.rest a b)
  rw [← streamFragments_split h hc hlen ha, hfirst, Pending.len_rest hlen, countBits_add, ← hlen] at htwo
  rw [show { s with pend := some p } = s by rw [← h.1]] at hone
  rw [hone]
  exact congrArg (fun t : State => { t with pend := some p }) htwo

end Sys2Proof.Machine

namespace Sys2Proof.Machine

/-! ### The tag (43_tag.md R180) -/

/-- The tag of a slot: the hash with the lengths folded in, under the pad of the rewound counter (R180). -/
def Slot.tag (v : Slot) (C : Cipher) : Block := gmul (v.hash ^^^ v.lens) v.key ^^^ C.enc v.ciphst (initialCounter v)

/-- With the cache that of the tagged key, HashFold is one more product with the slot's key (40_field_algebra.md R118). -/
theorem hashFold_eq_gmul {s : State} {n : Nat} (hok : CacheOk s) (hn : n < s.cfg.nctx) :
    s.hashFold n = gmul ((s.slot n).hash ^^^ (s.slot n).lens) (s.slot n).key := by
  rw [State.hashFold, ofLengths_parts, mulH_eq_gmul hok hn]

theorem tagreg_tag {s : State} {n : Nat} (C : Cipher) (hok : CacheOk s) (hn : n < s.cfg.nctx) :
    (s.tag C n).tagreg = (s.slot n).tag C := by
  rw [State.tag, State.setPhase_tagreg, hashFold_eq_gmul hok hn]
  rfl

/-- What an accepted TAG does: TAGREG is the tag of the slot, of which only the phase changes (R180). -/
theorem exec_tag_of_accepted {s t : State} {p : Pending} {n : Nat} (hok : CacheOk s) (h : Accepted s p .tag n)
    (hexec : exec (.tag n) s = .next t) :
    t.tagreg = (s.slot n).tag Config.cipher ∧ t.slot n = { s.slot n with phase := .tagged } := by
  cases (exec_of_accepted (i := .tag n) h).symm.trans hexec
  exact ⟨tagreg_tag Config.cipher hok h.lt_nctx, slot_tag s Config.cipher n h.lt8⟩

/-- Settles O17: the tag of the slot, written out. -/
theorem tagFoldsTheHashUnderTheRewoundCounter : Obligations.TagFoldsTheHashUnderTheRewoundCounter := by
  intro s p n hok h
  have hexec := exec_of_accepted (i := .tag n) h
  obtain ⟨htag, hslot⟩ := exec_tag_of_accepted hok h hexec
  exact ⟨_, hexec, hslot, htag⟩

/-- Settles O41: the tag is a function of the slot's context fields and cipher state. -/
theorem tagDependsOnlyOnItsSlot : Obligations.TagDependsOnlyOnItsSlot := by
  intro s s' t t' p p' n n' hok hok' h h' hhash hlens hctr hkey hciphst hexec hexec'
  obtain ⟨htag, -⟩ := exec_tag_of_accepted hok h hexec
  obtain ⟨htag', -⟩ := exec_tag_of_accepted hok' h' hexec'
  rw [htag', htag, Slot.tag, Slot.tag, initialCounter, initialCounter, hhash, hlens, hctr, hkey, hciphst]

/-- Settles O42: the first TAG changes only the phase of the slot, which the tag does not read. -/
theorem repeatedTagGivesTheSameTag : Obligations.RepeatedTagGivesTheSameTag := by
  intro s t u v p p' n hok hok' h hexec hkept h' hexec'
  obtain ⟨htag, hslot⟩ := exec_tag_of_accepted hok h hexec
  obtain ⟨htag', hslot'⟩ := exec_tag_of_accepted hok' h' hexec'
  rw [hkept, hslot] at htag' hslot'
  exact ⟨htag'.trans htag.symm, hslot'.trans hslot.symm⟩

/-! ### The rewound counter of a message (40_field_algebra.md R119, 70_reset_and_hazards.md R227) -/

/-- Data counted after a multiple of 128 bits takes one more block per fragment; modulo 2^32 the wrap of DATABITS does not show. -/
theorem payloadBlocks_add {d : BitVec 64} (hd : d.toNat % 128 = 0) (len : Nat) :
    payloadBlocks (d + BitVec.ofNat 64 (8 * len)) = payloadBlocks d + BitVec.ofNat 32 (fragmentCount len) := by
  apply BitVec.eq_of_toNat_eq
  rw [BitVec.toNat_add, toNat_payloadBlocks, toNat_payloadBlocks, BitVec.toNat_add, BitVec.toNat_ofNat,
    BitVec.toNat_ofNat, fragmentCount]
  omega

/-- Payload after a multiple of 128 bits leaves the rewound counter where it was (R227). -/
theorem initialCounter_of_payload {v w : Slot} {len : Nat} (hd : (Block.databits v.lens).toNat % 128 = 0)
    (hctr : w.ctr = counterAt v.ctr (fragmentCount len))
    (hlens : Block.databits w.lens = Block.databits v.lens + BitVec.ofNat 64 (8 * len)) :
    initialCounter w = initialCounter v := by
  rw [initialCounter, initialCounter, hctr, hlens, payloadBlocks_add hd, counterAt, ivpart_ofCounter, suffix_ofCounter,
    add_sub_add_right_eq_sub]

/-- Before any payload the rewound counter is the counter. -/
theorem initialCounter_of_no_payload {v : Slot} (h : Block.databits v.lens = 0) : initialCounter v = v.ctr := by
  rw [initialCounter, h, show payloadBlocks 0 = 0 by decide, sub_zero, ofCounter_parts]

/-! ### A whole message (43_tag.md R181 item 2) -/

/-- The slot after the additional data `a` (42_process.md R160). -/
def Slot.afterAad (v : Slot) (a : List Byte) : Slot :=
  { v with phase := .aad, lens := countBits .aadm a.length v.lens, hash := ghashFold v.key v.hash (blocksOf a) }

/-- The slot after a payload with the ciphertext `c` (42_process.md R161). -/
def Slot.afterPayload (v : Slot) (c : List Byte) : Slot :=
  { v with
    phase := .data, lens := countBits .enc c.length v.lens, ctr := counterAt v.ctr (fragmentCount c.length),
    hash := ghashFold v.key v.hash (blocksOf c) }

/-- The counts of a message: the length block of GHASH. -/
theorem countBits_message (a c : Nat) :
    countBits .enc c (countBits .aadm a 0) = Block.ofLengths (BitVec.ofNat 64 (8 * a)) (BitVec.ofNat 64 (8 * c)) := by
  have hzero : Block.aadbits 0 = 0 ∧ Block.databits 0 = 0 := by decide
  simp only [countBits, aadbits_ofLengths, databits_ofLengths, hzero.1, hzero.2, zero_add]

/-- A whole message from the start of a slot has the standard tag, its counter the one the slot started with (R181 item 2). -/
theorem tag_afterPayload_afterAad {v : Slot} (hhash : v.hash = 0) (hlens : v.lens = 0) (a c : List Byte) (C : Cipher) :
    ((v.afterAad a).afterPayload c).tag C = ghash v.key a c ^^^ C.enc v.ciphst v.ctr := by
  have hzero : Block.databits (v.afterAad a).lens = 0 := by
    rw [Slot.afterAad, hlens, countBits, databits_ofLengths]
    decide
  have hctr : initialCounter ((v.afterAad a).afterPayload c) = v.ctr :=
    (initialCounter_of_payload (v := v.afterAad a) (by rw [hzero]; rfl) rfl (databits_ofLengths _ _)).trans
      (initialCounter_of_no_payload hzero)
  rw [Slot.tag, hctr, ghash, ← countBits_message]
  simp only [Slot.afterPayload, Slot.afterAad, hhash, hlens]

theorem CacheOk.withPend {s : State} (h : CacheOk s) (q : Option Pending) : CacheOk { s with pend := q } := h

/-- What an accepted command other than SETKEY keeps, and the phase it leaves: what the next command's conditions ask. -/
theorem exec_kept {i : Instr} {s t : State} {p : Pending} (hok : CacheOk s) (h : Accepted s p (commandOf i) i.ctx)
    (hi : commandOf i ≠ .setkey) (hexec : exec i s = .next t) :
    CacheOk t ∧ t.fault = false ∧ t.cfg = s.cfg ∧ (t.slot i.ctx).phase = nextPhase (commandOf i) := by
  cases (exec_of_accepted h).symm.trans hexec
  have hn : i.ctx < 8 := h.lt8
  obtain ⟨hhost, hfault, -⟩ := host_body i s
  have hslot := h.lt_nctx
  obtain ⟨-, hnofault, -⟩ := h
  exact ⟨hok.of_cacheStep (cacheStep_body i s hn hi) hslot hhost.cfg (fun m => (key_body i s hn hi m).1),
    hfault.trans hnofault, hhost.cfg, phase_body i s hn hi⟩

/-- Settles O46: each command's slot from the one before; AAD and ENCRYPT run GHASH up to the length block, and TAG does the rest under
the counter J0. -/
theorem messageTagIsTheStandardTag : Obligations.MessageTagIsTheStandardTag := by
  intro s n srcA lenA src dst len hok hfault hn hphase hhash hlens hboundA hboundSrc hboundDst hranges
  have haad : Accepted { s with pend := some ⟨encode (.aad n), srcA, 0, lenA⟩ } _ .aad n :=
    ⟨rfl, hfault, hn, congrArg (Command.legal .aad) hphase, fun _ => hboundA, nofun⟩
  obtain ⟨t₁, hexec₁, hslot₁⟩ := aadCountsAndHashesItsData _ _ n (hok.withPend _) haad
  obtain ⟨hok₁, hfault₁, hcfg₁, hphase₁⟩ := exec_kept (i := .aad n) (hok.withPend _) haad nofun hexec₁
  have henc : Accepted { t₁ with pend := some ⟨encode (.encrypt n), src, dst, len⟩ } _ .encrypt n :=
    ⟨rfl, hfault₁, hcfg₁ ▸ hn, congrArg (Command.legal .encrypt) hphase₁, fun _ => hcfg₁ ▸ hboundSrc,
      fun _ => ⟨hcfg₁ ▸ hboundDst, .inr hranges⟩⟩
  obtain ⟨t₂, hexec₂, -, hslot₂⟩ := encryptWritesAndHashesTheCiphertext _ _ n (hok₁.withPend _) henc
  obtain ⟨hok₂, hfault₂, hcfg₂, hphase₂⟩ := exec_kept (i := .encrypt n) (hok₁.withPend _) henc nofun hexec₂
  have htag : Accepted { t₂ with pend := some ⟨encode (.tag n), 0, 0, 0⟩ } _ .tag n :=
    ⟨rfl, hfault₂, (hcfg₂.trans hcfg₁) ▸ hn, congrArg (Command.legal .tag) hphase₂, nofun, nofun⟩
  have hexec₃ := exec_of_accepted (i := .tag n) htag
  obtain ⟨htagreg, -⟩ := exec_tag_of_accepted (hok₂.withPend _) htag hexec₃
  refine ⟨t₁, t₂, _, hexec₁, hexec₂, hexec₃, htagreg.trans ?_⟩
  have hafter₁ : t₁.slot n = (s.slot n).afterAad (s.memRead srcA.toNat lenA.toNat) := by
    rw [Slot.afterAad, State.length_memRead]
    exact hslot₁
  have hafter₂ : t₂.slot n = (t₁.slot n).afterPayload (t₂.memRead dst.toNat len.toNat) := by
    rw [Slot.afterPayload, State.length_memRead]
    exact hslot₂
  change (t₂.slot n).tag Config.cipher = _
  rw [hafter₂, hafter₁, tag_afterPayload_afterAad hhash hlens]

end Sys2Proof.Machine

namespace Sys2Proof.Machine

/-! ### A command in the fault state, and one that fails a check (60_exceptions.md R193, R194) -/

/-- While FAULT = 1 every command is rejected, whatever its checks say (R194). -/
theorem runCommand_of_fault {s : State} (h : s.fault = true) (check : Option Cause) (body : State → State) :
    s.runCommand check body = s := if_pos h

/-- While FAULT = 0 a failing check is the fault entry (R193). -/
theorem runCommand_some {s : State} (h : s.fault = false) (c : Cause) (body : State → State) :
    s.runCommand (some c) body = s.raiseFault c := by
  simp [State.runCommand, h]

/-- While FAULT = 0 and with no failing check the body runs (30_encoding.md R97). -/
theorem runCommand_none {s : State} (h : s.fault = false) (body : State → State) : s.runCommand none body = body s := by
  simp [State.runCommand, h]

/-- While FAULT = 1 `Execute` has no effect, whatever the word (R194). -/
theorem execute_of_fault {s : State} (h : s.fault = true) : s.execute = .next s := by
  obtain ⟨e, he⟩ | ⟨i, -, hi⟩ := execute_cases s
  · rw [he, runCommand_of_fault h]
  · rw [hi, runCommand_of_fault h]

/-- Settles O6: a rejected `Execute` leaves the state as it is, and what ends the step does the rest. -/
theorem rejectedCommandHasNoEffect : Obligations.RejectedCommandHasNoEffect := by
  intro s p rest hp turn hfault
  exact step_of_execute hp turn (execute_of_fault (s := { s with schedule := rest }) hfault)

/-- Settles O9: with nothing scheduled the sequencer moves, and with PEND empty it changes nothing. -/
theorem idleCoreKeepsItsState : Obligations.IdleCoreKeepsItsState := by
  intro s hp hschedule
  rw [step, hschedule]
  exact sequencerStep_of_empty hp

/-- Settles O11: `exec` is the checks around the body, and a failing check is the fault entry. -/
theorem faultedCommandIsPrecise : Obligations.FaultedCommandIsPrecise := by
  intro i s c hfault hcheck
  rw [exec_eq, hcheck, runCommand_some hfault]
  rfl

/-! ### The phase a command leaves (60_exceptions.md R192, last column) -/

/-- The phase SETKEY leaves, by what it reports in KEYERR. -/
theorem phase_setkey (s : State) (C : Cipher) {n : Nat} (hn : n < 8) (k : BitVec 4) :
    ((s.setkey C n k).slot n).phase = if (s.setkey C n k).keyerr = true then .uninit else .keyed := by
  obtain ⟨st, -, e⟩ | ⟨cs, e⟩ := setkey_status_cases s C n k <;> rw [e]
  · have hkeyerr : ((s.clearSlot n).keyFailed n st).keyerr = true := rfl
    rw [slot_keyFailed s n st hn, if_pos hkeyerr]
    rfl
  · have hkeyerr : ((s.clearSlot n).keyReady C n 0 cs).keyerr = false := rfl
    rw [slot_keyReady s C n 0 cs hn, if_neg (hkeyerr ▸ Bool.false_ne_true)]

/-- The phase any command leaves: that of the table, except for a SETKEY whose key setup fails. -/
theorem phase_body_or_keyFailure (i : Instr) (s : State) (hn : i.ctx < 8) :
    ((commandBody Config.cipher i s).slot i.ctx).phase =
      if commandOf i = .setkey ∧ (commandBody Config.cipher i s).keyerr = true then .uninit else nextPhase (commandOf i) := by
  by_cases hset : commandOf i = .setkey
  · cases i with
    | setkey n k => exact (phase_setkey s Config.cipher hn k).trans (if_congr (and_iff_right rfl).symm rfl rfl)
    | _ => cases hset
  · rw [if_neg (fun h => hset h.1), phase_body i s hn hset]

theorem Accepted.no_fault {s : State} {p : Pending} {c : Command} {n : Nat} (h : Accepted s p c n) : s.fault = false := by
  obtain ⟨-, hfault, -⟩ := h
  exact hfault

/-- Settles O10: an accepted command is its body, which leaves the fault record alone. -/
theorem acceptedCommandRuns : Obligations.AcceptedCommandRuns := by
  intro i s p h
  obtain ⟨-, hfault, -⟩ := host_body i s
  exact ⟨_, exec_of_accepted h, hfault.trans h.no_fault, phase_body_or_keyFailure i s h.lt8⟩

/-! ### `Check(P)` of R192 and the machine's own checks -/

theorem mem_legalPhases_iff (i : Instr) (ph : Phase) : ph ∈ legalPhases i.opcode ↔ (commandOf i).legal ph = true := by
  cases i <;> cases ph <;> simp [Instr.opcode, commandOf, legalPhases, Command.legal]

theorem readsBuf_iff (i : Instr) : (commandOf i).readsBuf = true ↔ i.opcode ≠ 6 := by
  cases i <;> simp [commandOf, Command.readsBuf, Instr.opcode]

theorem writesBuf_iff (i : Instr) : (commandOf i).writesBuf = true ↔ i.opcode = 4 ∨ i.opcode = 5 := by
  cases i <;> simp [commandOf, Command.writesBuf, Instr.opcode]

theorem overlaps_iff (p : Pending) : overlaps p = true ↔ 0 < p.len.toNat ∧ p.src ≠ p.dst ∧
    p.src.toNat < p.dst.toNat + p.len.toNat ∧ p.dst.toNat < p.src.toNat + p.len.toNat := by
  simp [overlaps, and_assoc]

/-- For a word that spells a command the first three checks of R192 pass, and the others are the machine's own; only ENCRYPT and DECRYPT
have an output range to check. -/
theorem checkR192_of_spells {s : State} {p : Pending} {i : Instr} (hp : s.pend = some p) (h : Spells p.word i) :
    checkR192 s p = s.check (commandOf i) i.ctx := by
  obtain ⟨hop, hctx, hciph, hbit7, hhigh⟩ := (spells_iff_digits p.word i).mp h
  have hvalid : ¬ (i.opcode = 0 ∨ 6 < i.opcode) := by cases i <;> simp [Instr.opcode]
  have hreserved : ¬ (p.word.toNat / 128 % 2 = 1 ∨ p.word.toNat / 4096 ≠ 0) := by omega
  have hcipher : ¬ (i.opcode ≠ 1 ∧ i.cipherId.toNat ≠ 0) := by cases i <;> simp [Instr.opcode, Instr.cipherId]
  simp only [checkR192, hop, hctx, hciph, if_neg hvalid, if_neg hreserved, if_neg hcipher]
  simp only [State.check, State.operands_of_pend hp, mem_legalPhases_iff, Bool.not_eq_true, Bool.and_eq_true,
    readsBuf_iff, writesBuf_iff, overlaps_iff, outOfBounds, decide_eq_true_eq]
  by_cases hw : i.opcode = 4 ∨ i.opcode = 5 <;> simp only [hw, if_true, if_false, true_and, false_and]

/-- The first three checks of R192, for a word that is no command: the cause `decode` names (30_encoding.md R93). -/
theorem checkR192_of_error {s : State} {p : Pending} {e : DecodeError} (h : decode p.word = .error e) :
    checkR192 s p = some (causeOf e) := by
  cases e with
  | illegalOp =>
    have hop := ((nonCommandWordsAreNamed p.word).1).mp h
    exact if_pos (by omega)
  | reservedField =>
    obtain ⟨hop, hset⟩ := ((nonCommandWordsAreNamed p.word).2).mp h
    rw [getLsbD_seven_iff, Ne, reservedBit7_eq_zero_iff] at hset
    simp only [checkR192]
    rw [if_neg (by omega)]
    by_cases hbits : p.word.toNat / 128 % 2 = 1 ∨ p.word.toNat / 4096 ≠ 0
    · exact if_pos hbits
    · rw [if_neg hbits]
      exact if_pos (by omega)

/-- `Execute` under the checks of R192: with none failing, the word spells a command whose body is what runs. -/
theorem execute_eq_checkR192 {s : State} {p : Pending} (hp : s.pend = some p) :
    ∃ body, s.execute = .next (s.runCommand (checkR192 s p) body) ∧
      (checkR192 s p = none → ∃ i, decode p.word = .ok i ∧ i.ctx < 8 ∧ body = commandBody Config.cipher i) := by
  have hword : s.operands.word = p.word := by rw [State.operands_of_pend hp]
  cases hd : decode p.word with
  | error e =>
    have hcheck : checkR192 s p = some (causeOf e) := checkR192_of_error hd
    refine ⟨id, ?_, fun hnone => nomatch hcheck.symm.trans hnone⟩
    rw [hcheck, execute_of_error (hword ▸ hd)]
  | ok i =>
    have hspells := (decode_eq_ok_iff_spells p.word i).mp hd
    refine ⟨commandBody Config.cipher i, ?_, fun _ => ⟨i, rfl, hspells.ctx ▸ (ctxField p.word).isLt, rfl⟩⟩
    rw [checkR192_of_spells hp hspells, execute_of_ok (hword ▸ hd), exec_eq]

/-- Settles O5: `Execute` is the checks of R192 around the body, so their answer is the fault entry or the command's phase. -/
theorem checksDecideTheStep : Obligations.ChecksDecideTheStep := by
  intro s p rest hp turn hfault
  obtain ⟨body, hx, hbody⟩ := execute_eq_checkR192 (s := { s with schedule := rest }) hp
  have hstep := step_of_execute hp turn hx
  refine ⟨fun c hcheck => ?_, fun hcheck => ?_⟩
  · have hcheck' : checkR192 { s with schedule := rest } p = some c := hcheck
    have hword : ({ s with schedule := rest } : State).operands.word = p.word :=
      congrArg Pending.word (State.operands_of_pend (s := { s with schedule := rest }) hp)
    rw [hstep, hcheck', runCommand_some (s := { s with schedule := rest }) hfault, ← hword]
    rfl
  · have hcheck' : checkR192 { s with schedule := rest } p = none := hcheck
    obtain ⟨i, hd, hn, rfl⟩ := hbody hcheck
    rw [hcheck', runCommand_none (s := { s with schedule := rest }) hfault] at hstep
    obtain ⟨-, hkept, -⟩ := host_body i { s with schedule := rest }
    exact ⟨i, _, hd, hstep, hkept.trans hfault, phase_body_or_keyFailure i { s with schedule := rest } hn⟩

/-! ### Accepted and refused transactions (60_exceptions.md R197) -/

/-- The aligned offsets that `mapped` names are those of 20_memory.md R65. -/
theorem exists_mapped_iff (p : Params) {a : Nat} (h4 : a % 4 = 0) : (∃ t, mapped p a = some t) ↔ MappedOffset p a := by
  have hbuf := bufSize_mod p
  constructor
  · rintro ⟨t, ht⟩
    obtain ⟨-, hlo, hhi⟩ | ⟨-, hlo, hhi⟩ | ⟨-, htag⟩ | hrow := mapped_cases ht
    · exact .inr (.inr (.inr (by omega)))
    · exact .inr (.inr (.inl (by omega)))
    · exact .inr (.inl htag)
    · have rows : ∀ q ∈ registerMap, q.1 ≤ 0x030 := by decide
      exact .inl (rows _ hrow)
  · rintro (hreg | ⟨hlo, hhi⟩ | ⟨hlo, hhi⟩ | ⟨hlo, hhi⟩)
    · rw [mapped_register p (by omega)]
      exact Option.isSome_iff_exists.mp ((lookup_registerMap a).mpr ⟨hreg, h4⟩)
    · exact ⟨_, mapped_tag p hlo hhi⟩
    · have hpos := p.nctx_pos
      exact ⟨_, mapped_ctx p hlo (by omega)⟩
    · have hpos : 0 < p.bufSize := Nat.two_pow_pos p.log2Buf
      exact ⟨_, mapped_buf p hlo (by omega)⟩

/-- Where a busy core is open to the host: registers only, at the given offsets. -/
structure OpenAt (f : Target → Bool) (offsets : List Nat) : Prop where
  registers : ∀ q ∈ registerMap, f q.2 = true ↔ q.1 ∈ offsets
  low : ∀ a ∈ offsets, a < 0x040
  tag : ∀ w, f (.tag w) = false
  ctx : ∀ n w, f (.ctx n w) = false
  buf : ∀ a, f (.buf a) = false

/-- The reads of 20_memory.md R67: ID, CFG, CTRL and STATUS. -/
theorem openAt_readableWhileBusy : OpenAt Target.readableWhileBusy [0x000, 0x004, 0x008, 0x00C] where
  registers := by decide
  low := by decide
  tag _ := rfl
  ctx _ _ := rfl
  buf _ := rfl

/-- The writes of 20_memory.md R67: CTRL and STATUS. -/
theorem openAt_writableWhileBusy : OpenAt Target.writableWhileBusy [0x008, 0x00C] where
  registers := by decide
  low := by decide
  tag _ := rfl
  ctx _ _ := rfl
  buf _ := rfl

/-- What an offset names is open while BUSY exactly when the offset is one of the open ones. -/
theorem OpenAt.open_iff_mem {f : Target → Bool} {offsets : List Nat} (h : OpenAt f offsets) {p : Params} {a : Nat} {t : Target}
    (hm : mapped p a = some t) : f t = true ↔ a ∈ offsets := by
  have high (hf : f t = false) (ha : 0x040 ≤ a) : f t = true ↔ a ∈ offsets :=
    iff_of_false (by simp [hf]) (fun hmem => absurd (h.low a hmem) (by omega))
  obtain ⟨rfl, hlo, -⟩ | ⟨rfl, hlo, -⟩ | ⟨rfl, hlo, -⟩ | hrow := mapped_cases hm
  · exact high (h.buf _) (by omega)
  · exact high (h.ctx _ _) (by omega)
  · exact high (h.tag _) hlo
  · exact h.registers _ hrow

/-- A transaction is refused exactly when it is misaligned, unmapped or locked out (20_memory.md R62, R66, R67). -/
theorem accepts_eq_none_iff {f : Target → Bool} {offsets : List Nat} (h : OpenAt f offsets) (s : State) (a : BitVec 17) :
    s.accepts f a = none ↔
      a.toNat % 4 ≠ 0 ∨ ¬ MappedOffset s.cfg a.toNat ∨ (s.pend ≠ none ∧ a.toNat ∉ offsets) := by
  constructor
  · intro hnone
    by_contra hok
    rw [not_or, not_or, not_not, not_not, not_and_not_right] at hok
    obtain ⟨h4, hmapped, hopen⟩ := hok
    obtain ⟨t, ht⟩ := (exists_mapped_iff s.cfg h4).mpr hmapped
    have hb : s.pend = none ∨ f t = true := (em _).imp_right fun hne => (h.open_iff_mem ht).mpr (hopen hne)
    exact nomatch hnone.symm.trans (accepts_of_mapped h4 ht hb)
  · intro hrefused
    rw [Option.eq_none_iff_forall_not_mem]
    intro t ht
    obtain ⟨h4, hm, hb⟩ := accepts_some ht
    obtain hmis | hun | ⟨hbusy, hclosed⟩ := hrefused
    · exact hmis h4
    · exact hun ((exists_mapped_iff s.cfg h4).mp ⟨t, hm⟩)
    · exact hclosed ((h.open_iff_mem hm).mp (hb.resolve_left hbusy))

/-- A refused Read32 as a step: BusError, and no effect. -/
theorem step_read32_refused {s : State} {a : BitVec 17} {rest : List Turn} (turn : s.schedule = .read32 a :: rest)
    (h : s.accepts Target.readableWhileBusy a = none) :
    step s = .next { s with schedule := rest, responses := .busError :: s.responses } := by
  have h' : ({ s with schedule := rest } : State).accepts Target.readableWhileBusy a = none := h
  simp only [step, turn, State.read32, h']
  rfl

/-- A refused Write32 as a step: BusError, and no effect. -/
theorem step_write32_refused {s : State} {a : BitVec 17} {v : Word} {rest : List Turn}
    (turn : s.schedule = .write32 a v :: rest) (h : s.accepts Target.writableWhileBusy a = none) :
    step s = .next { s with schedule := rest, responses := .busError :: s.responses } := by
  have h' : ({ s with schedule := rest } : State).accepts Target.writableWhileBusy a = none := h
  simp only [step, turn, State.write32, h']
  rfl

/-- A soft reset keeps the host's side (log 14). -/
theorem softReset_schedule_responses (s : State) :
    s.softReset.schedule = s.schedule ∧ s.softReset.responses = s.responses := by
  obtain ⟨-, e⟩ | ⟨p, -, e⟩ := softReset_eq s <;> rw [e]
  · exact ⟨rfl, rfl⟩
  · have hrest := sameRest_abandonPending s p
    exact ⟨hrest.schedule, hrest.responses⟩

/-- An accepted write touches neither the turns to come nor the answers given. -/
theorem writeTarget_schedule_responses (s : State) (v : Word) (t : Target) :
    (s.writeTarget v t).schedule = s.schedule ∧ (s.writeTarget v t).responses = s.responses := by
  cases t with
  | ctrl =>
    rw [State.writeTarget, State.writeCtrl]
    split
    · exact softReset_schedule_responses s
    · exact ⟨rfl, rfl⟩
  | status => rw [State.writeTarget, writeStatus_eq]; exact ⟨rfl, rfl⟩
  | _ => exact ⟨rfl, rfl⟩

/-- Settles O23: refusal is `accepts` answering none; an accepted read has data, and an accepted write keeps the host's side. -/
theorem busErrorExactlyWhenRefused : Obligations.BusErrorExactlyWhenRefused := by
  intro s a v rest
  simp only [← accepts_eq_none_iff openAt_readableWhileBusy s a, ← accepts_eq_none_iff openAt_writableWhileBusy s a]
  refine ⟨fun turn => ?_, fun turn => ?_⟩
  · cases ha : s.accepts Target.readableWhileBusy a with
    | none =>
      rw [if_pos rfl]
      exact step_read32_refused turn ha
    | some t =>
      rw [if_neg nofun]
      exact ⟨_, step_read32 turn ha⟩
  · cases ha : s.accepts Target.writableWhileBusy a with
    | none =>
      rw [if_pos rfl]
      exact step_write32_refused turn ha
    | some t =>
      rw [if_neg nofun]
      obtain ⟨hschedule, hresponses⟩ := writeTarget_schedule_responses { s with schedule := rest } v t
      exact ⟨_, step_write32 turn ha, hschedule, congrArg (List.cons Response.ok) hresponses⟩

/-! ### What leaves the fault state, and what moves DONE and irq (60_exceptions.md R194, R199) -/

/-- FAULT, its record, TAGREG and every slot are as before: what R194 keeps in the fault state. -/
structure FaultStateKept (s t : State) : Prop where
  fault : t.fault = s.fault
  cause : t.cause = s.cause
  faultcmd : t.faultcmd = s.faultcmd
  tagreg : t.tagreg = s.tagreg
  slots : ∀ n, t.slot n = s.slot n

/-- An accepted write that is no reset keeps all that R194 keeps. -/
theorem faultStateKept_writeTarget (s : State) (v : Word) {t : Target} (h : ¬ (t = .ctrl ∧ v.getLsbD 1 = true)) :
    FaultStateKept s (s.writeTarget v t) := by
  cases t with
  | ctrl =>
    have hsrst : v.getLsbD 1 = false := by simpa using h
    rw [State.writeTarget, writeCtrl_of_srst_clear s hsrst]
    exact ⟨rfl, rfl, rfl, rfl, fun _ => rfl⟩
  | status =>
    rw [State.writeTarget, writeStatus_eq]
    exact ⟨rfl, rfl, rfl, rfl, fun _ => rfl⟩
  | _ => exact ⟨rfl, rfl, rfl, rfl, fun _ => rfl⟩

/-- Settles O39: a rejected command and a read touch nothing of the fault state, and neither does a write that is no reset. -/
theorem onlyAResetLeavesTheFaultState : Obligations.OnlyAResetLeavesTheFaultState := by
  intro s t hfault hstep hreset
  have hkept : FaultStateKept s t := by
    cases stepTo_of_step hstep with
    | idle rest => exact ⟨rfl, rfl, rfl, rfl, fun _ => rfl⟩
    | command rest p u turn full run =>
      cases (execute_of_fault (s := { s with schedule := rest }) hfault).symm.trans run
      exact ⟨rfl, rfl, rfl, rfl, fun _ => rfl⟩
    | read rest a r => exact ⟨rfl, rfl, rfl, rfl, fun _ => rfl⟩
    | write rest a v turn =>
      obtain e | ⟨target, ha, e⟩ := write32_cases { s with schedule := rest } a v <;> rw [e]
      · exact ⟨rfl, rfl, rfl, rfl, fun _ => rfl⟩
      · have hne : ¬ (target = .ctrl ∧ v.getLsbD 1 = true) := by
          rintro ⟨rfl, hv⟩
          exact hreset (resetTurn_of_accepted_ctrl turn ha hv)
        exact { faultStateKept_writeTarget { s with schedule := rest } v hne with }
    | rst rest turn => exact absurd ⟨rest, .inl turn⟩ hreset
  exact ⟨hkept.fault.trans hfault, hkept.cause, hkept.faultcmd, hkept.tagreg, hkept.slots⟩

/-- Settles O40: the turns the statement does not name, an idle sequencer's and a read, keep DONE and CTRL.IE. -/
theorem doneAndIrqChangeOnlyAtStepsWritesAndResets : Obligations.DoneAndIrqChangeOnlyAtStepsWritesAndResets := by
  intro s t hstep hchanged
  cases stepTo_of_step hstep with
  | idle rest => exact hchanged.elim (absurd rfl) (absurd rfl)
  | command rest p u turn full => exact .inl ⟨p, rest, full, turn⟩
  | read rest a r => exact hchanged.elim (absurd rfl) (absurd rfl)
  | write rest a v turn => exact .inr (.inl ⟨a, v, rest, turn⟩)
  | rst rest turn => exact .inr (.inr ⟨rest, turn⟩)

end Sys2Proof.Machine

namespace Sys2Proof.Machine

/-! ### When a command rebuilds the cache (70_reset_and_hazards.md R231, 40_field_algebra.md R115) -/

/-- With the cache valid for the slot nothing is rebuilt. -/
theorem CacheStep.kept_of_hit {s t : State} {n : Nat} (h : CacheStep s t n) (hit : s.cache.validFor n = true) :
    t.rebuilds = s.rebuilds ∧ t.cache = s.cache := by
  obtain hkept | ⟨hmiss, -⟩ := h
  · exact hkept.symm
  · exact absurd (hmiss.symm.trans hit) nofun

/-- Where the cache was not valid for the slot and is afterwards, it has been rebuilt, once. -/
theorem CacheStep.rebuilt_of_miss {s t : State} {n : Nat} (hn : n < 8) (h : CacheStep s t n)
    (miss : ¬ s.cache.validFor n = true) (hvalid : t.cache.validFor n = true) :
    t.rebuilds = s.rebuilds + 1 ∧ t.cache = (s.rebuild n).cache ∧ t.cache.valid = true ∧ t.cache.tag.toNat = n := by
  obtain ⟨hcache, -⟩ | ⟨-, hcache, hcount⟩ := h
  · exact absurd (hcache ▸ hvalid) miss
  · exact ⟨hcount, hcache, (validFor_iff _ hn).mp hvalid⟩

/-- The commands that multiply nothing: a SETIV of 12 bytes, and the streaming commands without data. -/
def NoProduct (c : Command) (len : Word) : Prop :=
  (c = .setiv ∧ len = 12) ∨ ((c = .aad ∨ c = .encrypt ∨ c = .decrypt) ∧ len = 0)

/-- A SETIV of 12 bytes copies them into the IV subfield (41_key_iv.md R141). -/
theorem cache_setiv_of_twelve {s : State} (C : Cipher) (n : Nat) (h : s.operands.len = 12) :
    (s.setiv C n).rebuilds = s.rebuilds ∧ (s.setiv C n).cache = s.cache := by
  rw [State.setiv, if_pos (by rw [h]; rfl)]
  exact ⟨rfl, rfl⟩

theorem cache_of_noProduct {i : Instr} {s t : State} {p : Pending} (h : Accepted s p (commandOf i) i.ctx)
    (hexec : exec i s = .next t) (hidle : NoProduct (commandOf i) p.len) : t.rebuilds = s.rebuilds ∧ t.cache = s.cache := by
  obtain ⟨hset, h12⟩ | ⟨hstream, h0⟩ := hidle
  · cases (exec_of_accepted h).symm.trans hexec
    cases i with
    | setiv n => exact cache_setiv_of_twelve Config.cipher n (by rw [h.operands, h12])
    | _ => cases hset
  · cases (emptyDataOnlyMovesThePhase i s p hstream h h0).symm.trans hexec
    exact ⟨rfl, rfl⟩

/-- A command other than SETKEY that multiplies leaves the cache valid for its slot, whatever it was before. -/
theorem validFor_of_product {i : Instr} {s : State} {p : Pending} (h : Accepted s p (commandOf i) i.ctx)
    (hset : commandOf i ≠ .setkey) (hproduct : ¬ NoProduct (commandOf i) p.len) :
    (commandBody Config.cipher i s).cache.validFor i.ctx = true := by
  rw [← h.operands] at hproduct
  exact validFor_body i s h.lt8 hset (fun hc h12 => hproduct (.inl ⟨hc, BitVec.eq_of_toNat_eq h12⟩))
    (fun hc h0 => hproduct (.inr ⟨hc, BitVec.eq_of_toNat_eq h0⟩))

/-- SETKEY rebuilds exactly when the adapter reports success (41_key_iv.md R140, 60_exceptions.md R196). -/
theorem cache_setkey (s : State) (C : Cipher) {n : Nat} (hn : n < 8) (k : BitVec 4) :
    if (s.setkey C n k).keyerr = true then (s.setkey C n k).rebuilds = s.rebuilds
    else (s.setkey C n k).rebuilds = s.rebuilds + 1 ∧ (s.setkey C n k).cache.valid = true ∧
      (s.setkey C n k).cache.tag.toNat = n := by
  obtain ⟨st, -, e⟩ | ⟨cs, e⟩ := setkey_status_cases s C n k <;> rw [e]
  · exact (if_pos rfl).mpr (rebuilds_keyFailed s n st)
  · exact (if_neg Bool.false_ne_true).mpr ⟨rfl, rfl, toNat_tag_build _ hn _⟩

/-- Settles O22: SETKEY by the adapter's answer; of the others, those that multiply rebuild on a miss. -/
theorem commandRebuildsAtMostOnce : Obligations.CommandRebuildsAtMostOnce := by
  intro i s t p h hexec
  have hn : i.ctx < 8 := h.lt8
  refine ⟨fun hset => ?_, fun hset => ?_⟩
  · cases (exec_of_accepted h).symm.trans hexec
    cases i with
    | setkey n k => exact cache_setkey s Config.cipher hn k
    | _ => cases hset
  · have hbody := (exec_of_accepted h).symm.trans hexec
    have hstep : CacheStep s t i.ctx := Host.Outcome.next.inj hbody ▸ cacheStep_body i s hn hset
    split
    · next hcond =>
      obtain hidle | hit := or_assoc.mpr hcond
      · exact cache_of_noProduct h hexec hidle
      · exact hstep.kept_of_hit ((validFor_iff _ hn).mpr hit)
    · next hcond =>
      obtain ⟨hproduct, hmiss⟩ := not_or.mp (mt or_assoc.mp hcond)
      have hvalid : t.cache.validFor i.ctx = true := Host.Outcome.next.inj hbody ▸ validFor_of_product h hset hproduct
      exact hstep.rebuilt_of_miss hn (mt (validFor_iff _ hn).mp hmiss) hvalid

end Sys2Proof.Machine

namespace Sys2Proof.Machine

/-! ### Payload and the rewound counter (70_reset_and_hazards.md R227) -/

/-- A mode that writes counts its data in DATABITS (40_field_algebra.md R117). -/
theorem databits_countBits {mode : Mode} (h : mode.writes = true) (k : Nat) (lens : Block) :
    Block.databits (countBits mode k lens) = Block.databits lens + BitVec.ofNat 64 (8 * k) := by
  cases mode with
  | enc => exact databits_ofLengths _ _
  | dec => exact databits_ofLengths _ _
  | _ => cases h

/-- What an accepted payload command adds: a counter step per fragment, and its data in DATABITS (42_process.md R161, R162). -/
theorem exec_payload_counts {i : Instr} {s t : State} {p : Pending} {mode : Mode} (h : Accepted s p (commandOf i) i.ctx)
    (hc : streamMode (commandOf i) = some mode) (hm : mode.writes = true) (hexec : exec i s = .next t) :
    (t.slot i.ctx).ctr = counterAt (s.slot i.ctx).ctr (fragmentCount p.len.toNat) ∧
      Block.databits (t.slot i.ctx).lens = Block.databits (s.slot i.ctx).lens + BitVec.ofNat 64 (8 * p.len.toNat) := by
  cases (exec_of_accepted h).symm.trans hexec
  rw [body_of_streamMode hc, slot_setPhase_self _ _ _ h.lt8, slot_processCore_kept _ _ _ _ _ _ _ h.lt8, if_pos hm,
    h.operands]
  exact ⟨rfl, databits_countBits hm _ _⟩

/-- Settles O45: after whole blocks, a fragment is a block of DATABITS, and the counter steps once per fragment. -/
theorem payloadKeepsTheRewoundCounter : Obligations.PayloadKeepsTheRewoundCounter := by
  intro i s t p hi h hwhole hexec
  have hw : (commandOf i).writesBuf = true := by obtain hi | hi := hi <;> rw [hi] <;> rfl
  obtain ⟨mode, hc, hm⟩ := exists_streamMode_of_writesBuf hw
  obtain ⟨hctr, hdatabits⟩ := exec_payload_counts h hc hm hexec
  exact initialCounter_of_payload hwhole hctr hdatabits

end Sys2Proof.Machine

namespace Sys2Proof.Machine

/-! ### The resets (70_reset_and_hazards.md R220 to R223) -/

/-- What the two resets share leaves the values of R221, in every state. -/
theorem resetValues_resetCore (s : State) : ResetValues s.resetCore :=
  { ie := rfl, pend := rfl, done := rfl, fault := rfl, keyerr := rfl, cause := rfl, lastcmd := rfl, src := rfl, dst := rfl
    len := rfl, kstat := rfl, faultcmd := rfl, tagreg := rfl, cacheValid := rfl, cacheTag := rfl
    hardwired := ⟨rfl, rfl⟩, rebuilds := rfl, irq := rfl
    slots := fun n hn => by
      rw [slot_resetCore s n (hn.trans_le s.cfg.nctx_le)]
      exact ⟨rfl, rfl, rfl, rfl, rfl⟩ }

/-- After power-on every slot reads as the reset slot. -/
@[simp] theorem slot_powerOn (p : Params) (n : Nat) : (State.powerOn p).slot n = Slot.reset := by
  rw [State.slot, State.powerOn, Vector.getElem?_replicate]
  split <;> rfl

/-- Settles O33: all but the slots and the tables is as `resetCore` sets it, and each slot is the reset slot. -/
theorem powerOnStateIsTheResetState : Obligations.PowerOnStateIsTheResetState := fun p =>
  { resetValues_resetCore (State.powerOn p) with
    slots := fun n _ => by
      rw [slot_powerOn]
      exact ⟨rfl, rfl, rfl, rfl, rfl⟩ }

/-- The invariant holds after power-on, for every configuration. -/
theorem inv_powerOn (p : Params) : Inv (State.powerOn p) := by
  refine inv_iff.mpr ⟨⟨List.Pairwise.nil, nofun⟩, cacheOk_of_valid_false rfl, fun n _ => ?_, ?_⟩
  · rw [slot_powerOn]
    exact slotOk_reset _
  · exact { noFault := fun _ => ⟨rfl, rfl⟩, faulted := nofun, keyStatus := iff_of_false Bool.false_ne_true (fun h => h rfl)
            pending := nofun }

/-- Settles O37: the reset state is the power-on state of the default configuration. -/
theorem resetMeetsInvariant : Obligations.ResetMeetsInvariant := inv_powerOn Params.standard

/-- Settles O34: rst is `resetCore` with BUF left open, and the values of R221 do not speak of BUF. -/
theorem hardwareResetSetsTheResetValues : Obligations.HardwareResetSetsTheResetValues := by
  intro s rest turn
  refine ⟨({ s with schedule := rest } : State).hardReset, ?_, ?_, rfl, rfl, rfl⟩
  · simp only [step, turn]
  · exact { resetValues_resetCore { s with schedule := rest } with }

/-- `AbandonPending` looks at OP: ENCRYPT or DECRYPT (R223, 30_encoding.md R92). -/
theorem opBits_eq_iff (w : Word) {op : BitVec 4} : w.extractLsb' 0 4 = op ↔ w.toNat % 16 = op.toNat := by
  rw [← BitVec.toNat_inj, ← toNat_opField, opField]

/-- BUF outside an abandoned output range (R223). -/
theorem bufByte_abandonPending {s : State} {p : Pending} {a : Nat}
    (h : p.word.toNat % 16 = 4 ∨ p.word.toNat % 16 = 5 →
      ¬(p.dst.toNat ≤ a ∧ a < p.dst.toNat + p.len.toNat ∧ a < s.cfg.bufSize)) :
    (s.abandonPending p).bufByte a = s.bufByte a := by
  unfold State.abandonPending
  split
  · next hop =>
    have hout := h (hop.imp (opBits_eq_iff _).mp (opBits_eq_iff _).mp)
    rw [State.bufByte_memWrite, if_neg]
    simp only [List.length_map, List.length_range, abandonedCount]
    omega
  · rfl

/-- A soft reset sets the values of R221 and keeps the configuration, with a command pending or without (R222). -/
theorem resetValues_cfg_softReset (s : State) : ResetValues s.softReset ∧ s.softReset.cfg = s.cfg := by
  obtain ⟨-, e⟩ | ⟨p, -, e⟩ := softReset_eq s <;> rw [e]
  · exact ⟨resetValues_resetCore s, rfl⟩
  · exact ⟨resetValues_resetCore _, (sameRest_abandonPending s p).cfg⟩

/-- BUF after a soft reset: only a pending command's output range is abandoned (R222, R223). -/
theorem bufByte_softReset {s : State} {a : Nat}
    (h : ∀ p, s.pend = some p → (p.word.toNat % 16 = 4 ∨ p.word.toNat % 16 = 5) →
      ¬(p.dst.toNat ≤ a ∧ a < p.dst.toNat + p.len.toNat ∧ a < s.cfg.bufSize)) :
    s.softReset.bufByte a = s.bufByte a := by
  obtain ⟨-, e⟩ | ⟨p, hp, e⟩ := softReset_eq s <;> rw [e]
  · rfl
  · exact bufByte_abandonPending (h p hp)

/-- A CTRL write with SRST = 1 is a soft reset, also while BUSY (20_memory.md R67, 10_state.md R38). -/
theorem step_of_srst_write {s : State} {v : Word} {rest : List Turn} (turn : s.schedule = .write32 0x008 v :: rest)
    (hsrst : v.getLsbD 1 = true) : step s = .next (({ s with schedule := rest } : State).softReset.respond .ok) := by
  rw [step_of_register_write (t := .ctrl) turn (by decide) (.inr rfl), State.writeTarget, State.writeCtrl, if_pos hsrst]

/-- Settles O35: the write is a soft reset, whose effects are read off part by part. -/
theorem softResetKeepsTheBuffer : Obligations.SoftResetKeepsTheBuffer := by
  intro s v rest turn hsrst
  obtain ⟨hvalues, hcfg⟩ := resetValues_cfg_softReset { s with schedule := rest }
  obtain ⟨hschedule, hresponses⟩ := softReset_schedule_responses { s with schedule := rest }
  exact ⟨_, step_of_srst_write turn hsrst, { hvalues with }, hcfg, hschedule, congrArg (List.cons Response.ok) hresponses,
    fun _ ha => bufByte_softReset (s := { s with schedule := rest }) ha⟩

end Sys2Proof.Machine
